-- ==== Sys2Proof/Word.lean ====
section
/-! DEFINITION. The words of the hardware: a bus word (and command word) of 32 bits, a block slot of 64 bits, a byte
(spec/00_scope.md R8, R13; spec/20_memory.md R47). Every value is unsigned. -/

namespace Sys2Proof

/-- A 32-bit bus word, command word, or the storage of an H-bit value (spec/20_memory.md R47). -/
abbrev Word := BitVec 32

/-- A 64-bit block register or block slot (spec/10_state.md R23). -/
abbrev Block := BitVec 64

/-- One message byte (spec/10_state.md R43). -/
abbrev Byte := BitVec 8

end Sys2Proof
end

