-- ==== Sys2Proof/Syntax.lean ====
section
/-! DEFINITION. The commands of spec/opcode_table.json: one constructor per row (spec/30_encoding.md R68). Format I
commands carry their 8-bit subkey index (R67); no command has another operand. -/

namespace Sys2Proof

/-- A command. Every term of this type is a legal command: the index is 8 bits wide and any index is legal to
encode (spec/30_encoding.md R66). -/
inductive Instr where
  /-- NOP, spec/40_command_lifecycle.md R90 -/
  | nop
  /-- INIT, spec/42_key_schedule.md R108 -/
  | init
  /-- PACK, spec/41_bitpacker.md R99 -/
  | pack
  /-- UNPACK, spec/41_bitpacker.md R100 -/
  | unpack
  /-- FEVAL i, spec/43_round_function.md R117 -/
  | feval (idx : BitVec 8)
  /-- SPLIT, spec/44_block_cipher.md R126 -/
  | split
  /-- JOIN, spec/44_block_cipher.md R127 -/
  | join
  /-- ROUND_FWD i, spec/44_block_cipher.md R128 -/
  | roundFwd (idx : BitVec 8)
  /-- ROUND_INV i, spec/44_block_cipher.md R129 -/
  | roundInv (idx : BitVec 8)
  /-- ENC_BLOCK, spec/44_block_cipher.md R130 -/
  | encBlock
  /-- DEC_BLOCK, spec/44_block_cipher.md R131 -/
  | decBlock
  /-- ECB_ENC, spec/45_ecb.md R135 -/
  | ecbEnc
  /-- ECB_DEC, spec/45_ecb.md R136 -/
  | ecbDec
  /-- ENC_MSG, spec/45_ecb.md R137 -/
  | encMsg
  /-- DEC_MSG, spec/45_ecb.md R138 -/
  | decMsg
deriving DecidableEq, Repr

end Sys2Proof
end

