-- ==== Sys2Proof/Decode.lean ====
section
/-! DEFINITION. The decoder of a 32-bit command word, total and rejecting by name, and the encoder
(spec/30_encoding.md R64 to R70). -/

namespace Sys2Proof

/-- Why a word is illegal (spec/30_encoding.md R69): each of these completes with ILLEGAL_COMMAND. -/
inductive DecodeError where
  /-- RSVD, bits [31:16], is not 0 -/
  | reservedNotZero
  /-- OP is one of the 241 unlisted values -/
  | unlistedOp
  /-- a format N word with IDX ≠ 0 -/
  | indexNotZero
deriving DecidableEq, Repr

/-- OP, bits [7:0] (R65). -/
def opField (w : Word) : BitVec 8 := w.extractLsb' 0 8

/-- IDX, bits [15:8] (R65). -/
def idxField (w : Word) : BitVec 8 := w.extractLsb' 8 8

/-- RSVD, bits [31:16] (R65). -/
def rsvdField (w : Word) : BitVec 16 := w.extractLsb' 16 16

/-- Format N: the command `i`, legal only with IDX = 0 (R66). -/
def decodeN (w : Word) (i : Instr) : Except DecodeError Instr :=
  if idxField w = 0#8 then .ok i else .error .indexNotZero

/-- Format I: the command with the subkey index IDX, unsigned and not scaled (R66, R67). -/
def decodeI (w : Word) (c : BitVec 8 → Instr) : Except DecodeError Instr :=
  .ok (c (idxField w))

/-- The opcode map (R68). -/
def decodeOp (w : Word) : Except DecodeError Instr :=
  match (opField w).toNat with
  | 0x00 => decodeN w .nop
  | 0x01 => decodeN w .init
  | 0x08 => decodeN w .pack
  | 0x09 => decodeN w .unpack
  | 0x10 => decodeI w .feval
  | 0x20 => decodeN w .split
  | 0x21 => decodeN w .join
  | 0x22 => decodeI w .roundFwd
  | 0x23 => decodeI w .roundInv
  | 0x24 => decodeN w .encBlock
  | 0x25 => decodeN w .decBlock
  | 0x30 => decodeN w .ecbEnc
  | 0x31 => decodeN w .ecbDec
  | 0x32 => decodeN w .encMsg
  | 0x33 => decodeN w .decMsg
  | _ => .error .unlistedOp

/-- The decoder: every word is one row of R68 or illegal (R69, R70). -/
def decode (w : Word) : Except DecodeError Instr :=
  if rsvdField w = 0#16 then decodeOp w else .error .reservedNotZero

/-- The command word with the given OP and IDX, and RSVD = 0 (R65). -/
def commandWord (idx op : BitVec 8) : Word := 0#16 ++ idx ++ op

/-- The encoder (R66, R68): `op` in format N, `idx * 256 + op` in format I. -/
def encode : Instr → Word
  | .nop => commandWord 0#8 0x00#8
  | .init => commandWord 0#8 0x01#8
  | .pack => commandWord 0#8 0x08#8
  | .unpack => commandWord 0#8 0x09#8
  | .feval idx => commandWord idx 0x10#8
  | .split => commandWord 0#8 0x20#8
  | .join => commandWord 0#8 0x21#8
  | .roundFwd idx => commandWord idx 0x22#8
  | .roundInv idx => commandWord idx 0x23#8
  | .encBlock => commandWord 0#8 0x24#8
  | .decBlock => commandWord 0#8 0x25#8
  | .ecbEnc => commandWord 0#8 0x30#8
  | .ecbDec => commandWord 0#8 0x31#8
  | .encMsg => commandWord 0#8 0x32#8
  | .decMsg => commandWord 0#8 0x33#8

/-- The command word of an opcode-table number: the low `nbits` bits of `w`, every bit above them 0. -/
def tableWord (nbits w : Nat) : Word := BitVec.ofNat 32 (w % 2 ^ nbits)

/-- What the decoder reads from an opcode-table word, none where it refuses. A command is one 32-bit bus word
(R64), so the word goes to the decoder as it stands. -/
def decodeTableWord (nbits w : Nat) : Option Instr :=
  match decode (tableWord nbits w) with
  | .ok i => some i
  | .error _ => none

end Sys2Proof
end

