-- ==== Sys2Proof/Config.lean ====
section
/-! DEFINITION. The build parameters (spec/00_scope.md R6) as a record, the two default builds, and the one free value
of the model: what an unwritten buffer byte reads as (spec/70_reset_and_hazards.md R156; log 3). -/

namespace Sys2Proof

/-- The legal values of P_W (spec/00_scope.md R7): no other width can be written down. -/
inductive BlockWidth where
  | w8
  | w64
deriving DecidableEq, Repr

/-- P_W, the block width in bits. -/
def BlockWidth.bits : BlockWidth → Nat
  | .w8 => 8
  | .w64 => 64

/-- H = P_W / 2, the half-block width in bits (spec/00_scope.md R8). -/
def BlockWidth.half : BlockWidth → Nat
  | .w8 => 4
  | .w64 => 32

/-- B = P_W / 8, the bytes of a block (spec/00_scope.md R8). -/
def BlockWidth.bytes : BlockWidth → Nat
  | .w8 => 1
  | .w64 => 8

/-- The configuration check on P_W: a width other than 8 or 64 is rejected (spec/00_scope.md R7). -/
def BlockWidth.ofBits? (n : Nat) : Option BlockWidth :=
  if n = 8 then some .w8 else if n = 64 then some .w64 else none

/-- The build parameters of spec/00_scope.md R6. P_LATENCY is left out: no rule reads it (R168; log 10). -/
structure Params where
  /-- P_W -/
  width : BlockWidth
  /-- P_RMAX, capacity of the subkey store -/
  rmax : Nat
  /-- P_TMAX, capacity of the key table -/
  tmax : Nat
  /-- P_MSG_BYTES, capacity of the message buffer -/
  msgBytes : Nat
  /-- P_KS_CONST, the arithmetic-mixing constant -/
  ksConst : Word
  /-- P_TABLE_INIT, its length being P_TABLE_INIT_LEN -/
  tableInit : List Word
deriving DecidableEq, Repr

/-- The default build with P_W = 8: the key table of the source's scenario (spec/00_scope.md R6, R11). -/
def Params.default8 : Params :=
  { width := .w8, rmax := 16, tmax := 16, msgBytes := 256, ksConst := 0x9E3779B9#32
    tableInit := [0xE#32, 0x4#32, 0xD#32, 0x1#32] }

/-- The default build with P_W = 64: an empty table image (spec/00_scope.md R11). -/
def Params.default64 : Params :=
  { width := .w64, rmax := 16, tmax := 16, msgBytes := 256, ksConst := 0x9E3779B9#32, tableInit := [] }

/-- FREE VALUE (log 3): the byte that draw number `draw` gives at bus offset `addr`, for a MSG or BLK byte that
nothing has written since reset (spec/70_reset_and_hazards.md R156: "a free draw, a fresh one per read"). It has no
body, so no proof can rest on what it is. -/
opaque Config.freeByte (draw addr : Nat) : Byte

end Sys2Proof
end

