-- ==== Sys2Proof/Machine/State.lean ====
section
/-! DEFINITION. The state of feistel_round_engine (spec/10_state.md R19) as plain data, the reasons a step can stop,
and the state after reset (spec/70_reset_and_hazards.md R156). -/

namespace Sys2Proof.Machine

/-- The codes of STATUS.ERR (spec/60_exceptions.md R142). The reserved codes 9..15 are never produced: they cannot be
written down. -/
inductive ErrCode where
  | ok
  | invalidBlockWidth
  | invalidSubkeyCount
  | unencodableInput
  | illegalCommand
  | notKeyed
  | invalidConfig
  | indexRange
  | lengthRange
deriving DecidableEq, Repr

/-- The round-function body (spec/30_encoding.md R71); the reserved value 3 never reaches ACFG. -/
inductive RoundFn where
  | xor
  | and
  | or
deriving DecidableEq, Repr

/-- The key-schedule policy (spec/30_encoding.md R72). -/
inductive KeyPolicy where
  | table
  | arith
  | direct
deriving DecidableEq, Repr

/-- The padding policy (spec/30_encoding.md R73). -/
inductive PadPolicy where
  | fillerTail
  | zeroLeftMessage
  | zeroLeftFinal
deriving DecidableEq, Repr

/-- The accepted message bytes (spec/30_encoding.md R74). -/
inductive Charset where
  | bytes
  | ascii7
deriving DecidableEq, Repr

/-- The content of ACFG (spec/10_state.md R31). A reserved selector cannot be written down, as R31 says it never
appears; the host sees the word `CipherCfg.toWord` (log 9). -/
structure CipherCfg where
  rounds : BitVec 8
  fsel : RoundFn
  ksel : KeyPolicy
  pad : PadPolicy
  charset : Charset
  fill : Byte
deriving DecidableEq, Repr

/-- What the world outside the block can do: a bus access of `bytes` bytes at a 16-bit byte offset
(spec/00_scope.md R15, spec/20_memory.md R47), or the hardware reset (spec/70_reset_and_hazards.md R155). -/
inductive HostMove where
  | read (off : BitVec 16) (bytes : Nat)
  | write (off : BitVec 16) (bytes : Nat) (v : Word)
  | hardReset
deriving DecidableEq, Repr

/-- One entry of the schedule (log 5): the engine's turn, or a move from outside. -/
inductive Input where
  | engineTurn
  | host (m : HostMove)
deriving DecidableEq, Repr

/-- No rule of the spec stops this machine: spec/93_implementation_defined.md says that no item of the hardware is
stuck, and a failing command is a next state that holds the error record (spec/60_exceptions.md R145). So no
constructor is needed, and no step answers a fault. -/
inductive Fault where
deriving DecidableEq, Repr

/-- Why a step has no meaning. -/
inductive Refusal where
  /-- An instruction the model has no meaning for: raised by no arm of this model. Safe: nothing can be proved of a
  run that ends here. -/
  | notModelled (mnemonic : String)
  /-- A host access that is not aligned to 4 bytes or not 32 bits wide, raised by `hostMove`: the spec gives it no
  meaning (spec/20_memory.md R50). Safe: nothing can be proved of a run that makes one. -/
  | accessOutsideInterface
  /-- A build outside spec/00_scope.md R6, raised by `step`: "must be rejected by the model's configuration check"
  (R7). Safe: nothing can be proved of such a build. -/
  | buildRejected
deriving DecidableEq, Repr

/-- The state. H-bit registers and table entries stand in the low bits of a 32-bit word (log 8); MSG and BLK are the
bytes of `mem`, keyed by their bus offset (log 4). -/
structure State where
  /-- the build parameters; configuration, never changed by a step (spec/00_scope.md R6; log 1) -/
  params : Params
  /-- STATUS.BUSY, spec/10_state.md R28 -/
  busy : Bool
  /-- STATUS.DONE, R28 -/
  done : Bool
  /-- STATUS.KEYED, R28 -/
  keyed : Bool
  /-- STATUS.ERR_STICKY, R28 -/
  errSticky : Bool
  /-- STATUS.OVERRUN, R28 -/
  overrun : Bool
  /-- STATUS.ERR, R28 -/
  err : ErrCode
  /-- LAST_CMD, the read-back value of CMD, R29 -/
  lastCmd : Word
  /-- PENDING, the hidden command register, R45 -/
  pending : Word
  /-- CFG, the staging configuration, R30; its RAZ/WI bits are 0 -/
  cfg : Word
  /-- ACFG, the active configuration, R31 -/
  acfg : CipherCfg
  /-- TABLE_LEN, R32 -/
  tableLen : BitVec 8
  /-- MKEY, H bits, R33 -/
  mkey : Word
  /-- FOUT, H bits, R34 -/
  fout : Word
  /-- HALF_L, H bits, R35 -/
  halfL : Word
  /-- HALF_R, H bits, R35 -/
  halfR : Word
  /-- BIN, R35 -/
  bin : Block
  /-- BOUT, R35 -/
  bout : Block
  /-- MSG_LEN, R36 -/
  msgLen : BitVec 16
  /-- ORIG_LEN, R37 -/
  origLen : BitVec 16
  /-- BLK_COUNT, R38 -/
  blkCount : BitVec 16
  /-- ERR_CMD, R39 -/
  errCmd : Word
  /-- ERR_INFO, R40 -/
  errInfo : BitVec 16
  /-- TAB[0..P_TMAX-1], H bits each, R41 -/
  tab : List Word
  /-- SK[0..P_RMAX-1], H bits each, R42 -/
  sk : List Word
  /-- MSG and BLK, R43, R44: the bytes written since reset, at their bus offsets -/
  mem : List Host.Cell
  /-- the model's own: the number of the next free draw (log 3) -/
  draws : Nat
  /-- the model's own: what comes next from outside, in order (log 5) -/
  inputs : List Input
  /-- the model's own: the words the host's reads have returned, oldest first (log 6) -/
  readLog : List Word
deriving DecidableEq, Repr

/-- The content of ACFG after reset, 0x00000000 (spec/10_state.md R31). -/
def CipherCfg.reset : CipherCfg :=
  { rounds := 0#8, fsel := .xor, ksel := .table, pad := .fillerTail, charset := .bytes, fill := 0#8 }

/-- The state after reset of the build `p` (spec/70_reset_and_hazards.md R156). PENDING has no value there: 0 is the
model's choice (log 2). No MSG or BLK byte is listed: their contents are unspecified (log 3). -/
def State.resetOf (p : Params) : State :=
  { params := p
    busy := false, done := false, keyed := false, errSticky := false, overrun := false, err := .ok
    lastCmd := 0#32, pending := 0#32
    cfg := 0x00200004#32, acfg := CipherCfg.reset
    tableLen := BitVec.ofNat 8 p.tableInit.length
    mkey := 0#32, fout := 0#32, halfL := 0#32, halfR := 0#32
    bin := 0#64, bout := 0#64
    msgLen := 0#16, origLen := 0#16, blkCount := 0#16
    errCmd := 0#32, errInfo := 0#16
    tab := p.tableInit ++ List.replicate (p.tmax - p.tableInit.length) 0#32
    sk := List.replicate p.rmax 0#32
    mem := []
    draws := 0, inputs := [], readLog := [] }

/-- The machine right after reset: the default build with P_W = 8 (log 1). -/
def State.reset : State := State.resetOf Params.default8

end Sys2Proof.Machine
end

