-- ==== Sys2Proof/WellFormed.lean ====
section
/-! DEFINITION. The checks on what the model is given: a build (spec/00_scope.md R6, R7, R10, R11) and a command word
(spec/30_encoding.md R69). A term of `Instr` needs no check: its only operand is an 8-bit index, and every index is
legal to encode (R66). The checks are written from the rules and know nothing of the decoder or of a state. -/

namespace Sys2Proof

/-- The mask of the H bits of a half-block. -/
def BlockWidth.halfMask : BlockWidth → Word
  | .w8 => 0x0000000F#32
  | .w64 => 0xFFFFFFFF#32

/-- An H-bit value, in the 32 bits it is stored in: the bits above are zero (spec/10_state.md R22). -/
def BlockWidth.isHalf (w : BlockWidth) (v : Word) : Bool := v &&& w.halfMask == v

/-- The configuration check: the legal values of spec/00_scope.md R6, R10 and R11. -/
def Params.wf (p : Params) : Bool :=
  (1 ≤ p.rmax && p.rmax ≤ 255) &&
  (1 ≤ p.tmax && p.tmax ≤ 255) &&
  (1 ≤ p.msgBytes && p.msgBytes ≤ 4096) &&
  p.ksConst.getLsbD 0 &&
  p.tableInit.length ≤ p.tmax &&
  p.tableInit.all p.width.isHalf

/-- The opcodes of format N (spec/30_encoding.md R68). -/
def opcodesN : List (BitVec 8) :=
  [0x00#8, 0x01#8, 0x08#8, 0x09#8, 0x20#8, 0x21#8, 0x24#8, 0x25#8, 0x30#8, 0x31#8, 0x32#8, 0x33#8]

/-- The opcodes of format I (spec/30_encoding.md R68). -/
def opcodesI : List (BitVec 8) := [0x10#8, 0x22#8, 0x23#8]

/-- A command word is legal when OP is in the table, RSVD = 0, and IDX = 0 in format N (spec/30_encoding.md R69). -/
def legalWord (w : Word) : Bool :=
  w.extractLsb' 16 16 == 0#16 &&
  (opcodesI.contains (w.extractLsb' 0 8) ||
    (opcodesN.contains (w.extractLsb' 0 8) && w.extractLsb' 8 8 == 0#8))

end Sys2Proof
end

