-- ==== Sys2Proof/Machine/Ops.lean ====
section
/-! DEFINITION. The named operations over registers and memory, and the completion of a command: with results, or with
the error record that stands in this hardware for taking an exception (spec/40_command_lifecycle.md R82,
spec/60_exceptions.md R145). There is no return from an error to model beside it (R146: "There is no handler and no
return-from-error"). -/

namespace Sys2Proof

/-- ceil(n / B): the blocks that n message bytes take (spec/00_scope.md R14). -/
def BlockWidth.blocksFor (w : BlockWidth) (n : Nat) : Nat :=
  (n + w.bytes - 1) / w.bytes

/-- P_MAX_BLOCKS = ceil(P_MSG_BYTES / B), the capacity of the block buffer (spec/00_scope.md R6). -/
def Params.maxBlocks (p : Params) : Nat := p.width.blocksFor p.msgBytes

end Sys2Proof

namespace Sys2Proof.Machine

/-! ### Memory: a list of (bus offset, byte) pairs, strictly rising -/

/-- The byte listed at address `a`, none where nothing has been written. -/
def Memory.read? : List Host.Cell → Nat → Option Byte
  | [], _ => none
  | (a', b) :: m, a => if a = a' then some b else Memory.read? m a

/-- Write one byte, keeping the addresses in rising order. No written value equals what an unlisted address reads as
(a free draw), so a write never removes an entry. -/
def Memory.write : List Host.Cell → Nat → Byte → List Host.Cell
  | [], a, v => [(a, v)]
  | (a', b) :: m, a, v =>
    if a < a' then (a, v) :: (a', b) :: m
    else if a = a' then (a, v) :: m
    else (a', b) :: Memory.write m a v

/-- The canonical form: addresses strictly rising. -/
def Memory.wf : List Host.Cell → Bool
  | [] => true
  | [_] => true
  | (a, _) :: (a', b') :: m => decide (a < a') && Memory.wf ((a', b') :: m)

/-- Write the four bytes of a word at `a`: bits [7:0] at `a`, up to bits [31:24] at `a + 3` (log 4). -/
def Memory.writeWord (m : List Host.Cell) (a : Nat) (v : Word) : List Host.Cell :=
  Memory.write (Memory.write (Memory.write (Memory.write m a (v.extractLsb' 0 8))
    (a + 1) (v.extractLsb' 8 8)) (a + 2) (v.extractLsb' 16 8)) (a + 3) (v.extractLsb' 24 8)

/-- The offset of MSG[k] (spec/20_memory.md R48). -/
def msgAddr (k : Nat) : Nat := 0x4000 + 4 * k

/-- The offset of the low word of BLK[j] (spec/20_memory.md R48); the high word is at the next word. -/
def blkAddr (j : Nat) : Nat := 0x8000 + 8 * j

/-- Write BLK[j], bits [31:0] at the lower offset (spec/20_memory.md R54). -/
def Memory.writeSlot (m : List Host.Cell) (j : Nat) (b : Block) : List Host.Cell :=
  Memory.writeWord (Memory.writeWord m (blkAddr j) (b.extractLsb' 0 32)) (blkAddr j + 4) (b.extractLsb' 32 32)

/-- Write the bytes of a list to MSG[k], MSG[k+1], ... -/
def Memory.writeMsgFrom (m : List Host.Cell) (k : Nat) : List Byte → List Host.Cell
  | [] => m
  | b :: bs => Memory.writeMsgFrom (Memory.write m (msgAddr k) b) (k + 1) bs

/-- Write the blocks of a list to BLK[j], BLK[j+1], ... -/
def Memory.writeBlkFrom (m : List Host.Cell) (j : Nat) : List Block → List Host.Cell
  | [] => m
  | b :: bs => Memory.writeBlkFrom (Memory.writeSlot m j b) (j + 1) bs

/-- Is `a` the offset of a byte of an existing MSG entry or BLK slot (spec/20_memory.md R48)? -/
def bufferByte (p : Params) (a : Nat) : Bool :=
  (decide (0x4000 ≤ a) && decide (a < 0x4000 + 4 * p.msgBytes) && a % 4 == 0) ||
  (decide (0x8000 ≤ a) && decide (a < 0x8000 + 8 * p.maxBlocks))

/-! ### Reading the buffers -/

/-- The buffer byte at `a`: what was last written, else this transition's free draw for `a`
(spec/70_reset_and_hazards.md R156; log 3). All the reads that one transition makes of one byte agree (log 7). -/
def State.peek (s : State) (a : Nat) : Byte :=
  match Memory.read? s.mem a with
  | some b => b
  | none => Config.freeByte s.draws a

/-- The word whose bytes stand at `a` to `a + 3`. -/
def State.peekWord (s : State) (a : Nat) : Word :=
  s.peek (a + 3) ++ s.peek (a + 2) ++ s.peek (a + 1) ++ s.peek a

/-- MSG[k]. -/
def State.msgByte (s : State) (k : Nat) : Byte := s.peek (msgAddr k)

/-- BLK[j]: the word at the lower offset holds bits [31:0] (spec/20_memory.md R54). -/
def State.slot (s : State) (j : Nat) : Block := s.peekWord (blkAddr j + 4) ++ s.peekWord (blkAddr j)

/-- MSG[0 .. n-1]. -/
def State.message (s : State) (n : Nat) : List Byte := (List.range n).map s.msgByte

/-- BLK[0 .. n-1]. -/
def State.slots (s : State) (n : Nat) : List Block := (List.range n).map s.slot

/-! ### Registers -/

/-- trunc_H: what an H-bit register stores of a word (spec/10_state.md R22). -/
def truncH (w : BlockWidth) (v : Word) : Word := v &&& w.halfMask

/-- SK[i] (spec/10_state.md R42). An index beyond the store reads 0; no command forms one (log 8). -/
def State.subkey (s : State) (i : Nat) : Word := s.sk.getD i 0#32

/-- The SubkeySequence in use, SK[0 .. ROUNDS-1] (spec/42_key_schedule.md R109). -/
def State.subkeys (s : State) : List Word := s.sk.take s.acfg.rounds.toNat

/-- The word that the engine takes as its command (spec/40_command_lifecycle.md R81). -/
def State.fetch (s : State) : Word := s.pending

/-- Reset (spec/70_reset_and_hazards.md R155, R156). What lies outside the block goes on: the schedule, the words the
host has read, and the count of free draws, so that the buffers are unspecified anew (log 3, 5, 6). -/
def State.toReset (s : State) : State :=
  { State.resetOf s.params with draws := s.draws, inputs := s.inputs, readLog := s.readLog }

/-- Acceptance of a command word (spec/40_command_lifecycle.md R79). -/
def State.issue (s : State) (w : Word) : State :=
  { s with lastCmd := w, pending := w, done := false, busy := true }

/-! ### Completion -/

/-- The outcome of a command (spec/40_command_lifecycle.md R82): Ok, as the state with the command's writes applied, or
Err with a code and a detail value. -/
inductive CmdResult where
  | ok (s : State)
  | err (code : ErrCode) (info : Nat)
deriving DecidableEq, Repr

/-- Completion with success: ERR <- 0, BUSY <- 0, DONE <- 1 (spec/40_command_lifecycle.md R82). -/
def State.succeed (s : State) : State :=
  { s with err := .ok, busy := false, done := true, draws := s.draws + 1 }

/-- Completion with an error: exactly the error record of spec/60_exceptions.md R145, and nothing of the results. -/
def State.raiseError (s : State) (code : ErrCode) (info : Nat) : State :=
  { s with err := code, errSticky := true, errCmd := s.pending, errInfo := BitVec.ofNat 16 info
           busy := false, done := true, draws := s.draws + 1 }

/-- Completion (spec/40_command_lifecycle.md R82), one transition. -/
def State.complete (s : State) : CmdResult → Host.Outcome State Fault Refusal
  | .ok t => .next t.succeed
  | .err code info => .next (s.raiseError code info)

/-- Completion of an illegal word: ILLEGAL_COMMAND with ERR_INFO = OP (spec/30_encoding.md R69). -/
def State.completeIllegal (s : State) : Host.Outcome State Fault Refusal :=
  s.complete (.err .illegalCommand (s.fetch.extractLsb' 0 8).toNat)

/-! ### The checks that commands share, in the order of spec/60_exceptions.md R144 -/

/-- A command that needs a cipher instance (spec/40_command_lifecycle.md R86). -/
def State.needKeyed (s : State) (r : CmdResult) : CmdResult :=
  if s.keyed then r else .err .notKeyed 0

/-- The index check i < ACFG.ROUNDS (spec/30_encoding.md R67). -/
def State.needIndex (s : State) (idx : BitVec 8) (r : CmdResult) : CmdResult :=
  if idx.toNat < s.acfg.rounds.toNat then r else .err .indexRange idx.toNat

/-- A length register whose offset is `off` must not exceed `limit` (spec/60_exceptions.md R142, code 8). -/
def needLength (n limit off : Nat) (r : CmdResult) : CmdResult :=
  if limit < n then .err .lengthRange off else r

/-- The first element of a list that fails a check, if any, is reported by its index. -/
def needAll {α : Type} (good : α → Bool) (xs : List α) (code : ErrCode) (r : CmdResult) : CmdResult :=
  match xs.findIdx? (fun x => !good x) with
  | some k => .err code k
  | none => r

end Sys2Proof.Machine
end

