-- ==== Sys2Proof/Machine/Flags.lean ====
section
/-! DEFINITION. STATUS, the hardware's only flags (spec/10_state.md R28): the word the host reads, and the bits it
clears. No command computes an arithmetic flag (spec/43_round_function.md R112, R115). -/

namespace Sys2Proof.Machine

/-- The number of an error code (spec/60_exceptions.md R142). -/
def ErrCode.code : ErrCode → BitVec 4
  | .ok => 0#4
  | .invalidBlockWidth => 1#4
  | .invalidSubkeyCount => 2#4
  | .unencodableInput => 3#4
  | .illegalCommand => 4#4
  | .notKeyed => 5#4
  | .invalidConfig => 6#4
  | .indexRange => 7#4
  | .lengthRange => 8#4

/-- STATUS as the host reads it: BUSY [0], DONE [1], KEYED [2], ERR_STICKY [3], OVERRUN [4], ERR [11:8]
(spec/10_state.md R28). -/
def State.status (s : State) : Word :=
  0#20 ++ s.err.code ++ 0#3 ++ BitVec.ofBool s.overrun ++ BitVec.ofBool s.errSticky ++ BitVec.ofBool s.keyed ++
    BitVec.ofBool s.done ++ BitVec.ofBool s.busy

/-- A host write to STATUS while idle: the W1C bits 3 and 4 written as 1 are cleared (spec/10_state.md R28,
spec/20_memory.md R52). -/
def State.clearStatus (s : State) (v : Word) : State :=
  { s with errSticky := s.errSticky && !v.getLsbD 3, overrun := s.overrun && !v.getLsbD 4 }

end Sys2Proof.Machine
end

