-- ==== Sys2Proof/Machine/Operands.lean ====
section
/-! DEFINITION. The forms in which commands and the host see operands: the fields of CFG and ACFG
(spec/30_encoding.md R71 to R75), block values (spec/10_state.md R23), the halves of a block
(spec/44_block_cipher.md R118, R119) and its bytes (spec/20_memory.md R53). -/

namespace Sys2Proof.Machine

/-! ### Configuration fields -/

/-- CFG.ROUNDS, bits [7:0]. -/
def cfgRounds (c : Word) : BitVec 8 := c.extractLsb' 0 8

/-- CFG.FSEL, bits [9:8] (R71); 3 is reserved. -/
def cfgFsel (c : Word) : Option RoundFn :=
  match (c.extractLsb' 8 2).toNat with
  | 0 => some .xor
  | 1 => some .and
  | 2 => some .or
  | _ => none

/-- CFG.KSEL, bits [11:10] (R72); 3 is reserved. -/
def cfgKsel (c : Word) : Option KeyPolicy :=
  match (c.extractLsb' 10 2).toNat with
  | 0 => some .table
  | 1 => some .arith
  | 2 => some .direct
  | _ => none

/-- CFG.PAD, bits [13:12] (R73); 3 is reserved. -/
def cfgPad (c : Word) : Option PadPolicy :=
  match (c.extractLsb' 12 2).toNat with
  | 0 => some .fillerTail
  | 1 => some .zeroLeftMessage
  | 2 => some .zeroLeftFinal
  | _ => none

/-- CFG.CHARSET, bit [14] (R74). -/
def cfgCharset (c : Word) : Charset := if c.getLsbD 14 then .ascii7 else .bytes

/-- CFG.FILL, bits [23:16] (R75). -/
def cfgFill (c : Word) : Byte := c.extractLsb' 16 8

/-- The bits of CFG that store: all but the RAZ/WI bits 15 and [31:24] (spec/10_state.md R30). -/
def cfgMask : Word := 0x00FF7FFF#32

/-- The configuration that a CFG word selects, none where a selector is reserved (spec/42_key_schedule.md R107,
check 1). -/
def parseCfg (c : Word) : Option CipherCfg :=
  match cfgFsel c, cfgKsel c, cfgPad c with
  | some f, some k, some p =>
    some { rounds := cfgRounds c, fsel := f, ksel := k, pad := p, charset := cfgCharset c, fill := cfgFill c }
  | _, _, _ => none

/-- The two bits of FSEL (R71). -/
def RoundFn.code : RoundFn → BitVec 2
  | .xor => 0#2
  | .and => 1#2
  | .or => 2#2

/-- The two bits of KSEL (R72). -/
def KeyPolicy.code : KeyPolicy → BitVec 2
  | .table => 0#2
  | .arith => 1#2
  | .direct => 2#2

/-- The two bits of PAD (R73). -/
def PadPolicy.code : PadPolicy → BitVec 2
  | .fillerTail => 0#2
  | .zeroLeftMessage => 1#2
  | .zeroLeftFinal => 2#2

/-- The bit of CHARSET (R74). -/
def Charset.code : Charset → BitVec 1
  | .bytes => 0#1
  | .ascii7 => 1#1

/-- ACFG as the host reads it: the layout of CFG (spec/10_state.md R31). -/
def CipherCfg.toWord (c : CipherCfg) : Word :=
  0#8 ++ c.fill ++ 0#1 ++ c.charset.code ++ c.pad.code ++ c.ksel.code ++ c.fsel.code ++ c.rounds

/-! ### Blocks -/

/-- A well-formed block value: bits 63 down to P_W are zero (spec/10_state.md R23). -/
def wellFormedBlock (w : BlockWidth) (b : Block) : Bool := b >>> w.bits == 0#64

/-- split(b) = (b[P_W-1:H], b[H-1:0]) (spec/44_block_cipher.md R118). -/
def splitBlock (w : BlockWidth) (b : Block) : Word × Word :=
  (truncH w (b.extractLsb' w.half 32), truncH w (b.extractLsb' 0 32))

/-- join(L, R) = zext_64(L || R) (spec/44_block_cipher.md R119). -/
def joinBlock (w : BlockWidth) (l r : Word) : Block :=
  (l.setWidth 64 <<< w.half) ||| r.setWidth 64

/-- bytes(b): the bytes of a block, most significant first (spec/20_memory.md R53, spec/41_bitpacker.md R93). -/
def blockBytes (w : BlockWidth) (b : Block) : List Byte :=
  (List.range w.bytes).map fun t => b.extractLsb' (w.bits - 8 - 8 * t) 8

/-- The block of a byte group: the first byte is the most significant (spec/20_memory.md R53). -/
def groupBlock (bs : List Byte) : Block :=
  bs.foldl (fun acc x => (acc <<< 8) ||| x.setWidth 64) 0#64

/-- The character-set check of one byte (spec/41_bitpacker.md R96). -/
def Charset.accepts : Charset → Byte → Bool
  | .bytes, _ => true
  | .ascii7, b => decide (b.toNat < 0x80)

end Sys2Proof.Machine
end

