-- ==== Sys2Proof/Machine/Bus.lean ====
section
/-! DEFINITION. The host interface (spec/20_memory.md): the address map, bus reads and writes, and the moves from
outside the block. -/

namespace Sys2Proof.Machine

/-- The locations of the address map (spec/20_memory.md R48). -/
inductive Loc where
  | id | param | ctrl | status | cmd | cfg | acfg | tableLen | mkey | fout | halfL | halfR
  | binLo | binHi | boutLo | boutHi | msgLen | origLen | blkCount | errCmd | errInfo
  | tab (j : Nat)
  | sk (i : Nat)
  | msg (k : Nat)
  | blkLo (j : Nat)
  | blkHi (j : Nat)
  | unmapped
deriving DecidableEq, Repr

/-- The register rows of the address map (R48). -/
def registerMap : List (Nat × Loc) :=
  [(0x0000, .id), (0x0004, .param), (0x0008, .ctrl), (0x000C, .status), (0x0010, .cmd), (0x0014, .cfg),
   (0x0018, .acfg), (0x001C, .tableLen), (0x0020, .mkey), (0x0024, .fout), (0x0028, .halfL), (0x002C, .halfR),
   (0x0030, .binLo), (0x0034, .binHi), (0x0038, .boutLo), (0x003C, .boutHi), (0x0040, .msgLen),
   (0x0044, .origLen), (0x0048, .blkCount), (0x004C, .errCmd), (0x0050, .errInfo)]

/-- The array rows of the address map, for the slots that exist under the build parameters (R48). -/
def locateArray (p : Params) (off : Nat) : Loc :=
  if 0x0400 ≤ off ∧ off < 0x0400 + 4 * p.tmax then .tab ((off - 0x0400) / 4)
  else if 0x0800 ≤ off ∧ off < 0x0800 + 4 * p.rmax then .sk ((off - 0x0800) / 4)
  else if 0x4000 ≤ off ∧ off < 0x4000 + 4 * p.msgBytes then .msg ((off - 0x4000) / 4)
  else if 0x8000 ≤ off ∧ off < 0x8000 + 8 * p.maxBlocks then
    if (off - 0x8000) % 8 < 4 then .blkLo ((off - 0x8000) / 8) else .blkHi ((off - 0x8000) / 8)
  else .unmapped

/-- The location at an aligned offset; every other offset is unmapped or reserved (R48, R49). -/
def locate (p : Params) (off : Nat) : Loc :=
  match registerMap.lookup off with
  | some l => l
  | none => locateArray p off

/-- ID: WIDTH [7:0], REV [15:8] = 0x01, MAGIC [31:16] = 0x4645 (spec/10_state.md R25). -/
def idWord (p : Params) : Word := 0x4645#16 ++ 0x01#8 ++ BitVec.ofNat 8 p.width.bits

/-- PARAM: RMAX [7:0], TMAX [15:8], MSGMAX [28:16] (spec/10_state.md R26). -/
def paramWord (p : Params) : Word :=
  0#3 ++ BitVec.ofNat 13 p.msgBytes ++ BitVec.ofNat 8 p.tmax ++ BitVec.ofNat 8 p.rmax

/-- The word that a read of a location returns at this moment (R51): unmapped and reserved offsets read 0 (R49), CTRL
reads 0 (spec/10_state.md R27), CMD reads LAST_CMD (R29), the bits above a stored width read 0 (R46). -/
def State.readLoc (s : State) : Loc → Word
  | .id => idWord s.params
  | .param => paramWord s.params
  | .ctrl => 0#32
  | .status => s.status
  | .cmd => s.lastCmd
  | .cfg => s.cfg
  | .acfg => s.acfg.toWord
  | .tableLen => s.tableLen.setWidth 32
  | .mkey => s.mkey
  | .fout => s.fout
  | .halfL => s.halfL
  | .halfR => s.halfR
  | .binLo => s.bin.extractLsb' 0 32
  | .binHi => s.bin.extractLsb' 32 32
  | .boutLo => s.bout.extractLsb' 0 32
  | .boutHi => s.bout.extractLsb' 32 32
  | .msgLen => s.msgLen.setWidth 32
  | .origLen => s.origLen.setWidth 32
  | .blkCount => s.blkCount.setWidth 32
  | .errCmd => s.errCmd
  | .errInfo => s.errInfo.setWidth 32
  | .tab j => s.tab.getD j 0#32
  | .sk i => s.subkey i
  | .msg k => (s.msgByte k).setWidth 32
  | .blkLo j => s.peekWord (blkAddr j)
  | .blkHi j => s.peekWord (blkAddr j + 4)
  | .unmapped => 0#32

/-- A write to CTRL: bit 0 = 1 resets the block, whether BUSY is 0 or 1; bit 0 = 0 does nothing
(spec/70_reset_and_hazards.md R157). -/
def State.writeCtrl (s : State) (v : Word) : State :=
  if v.getLsbD 0 then s.toReset else s

/-- A write that is accepted while BUSY = 0 (R52): H-bit registers store trunc_H (spec/10_state.md R22), RAZ/WI bits
and read-only locations ignore the write (R46), a write to CMD issues a command (spec/40_command_lifecycle.md R79). -/
def State.writeLoc (s : State) (v : Word) : Loc → State
  | .id => s
  | .param => s
  | .ctrl => s.writeCtrl v
  | .status => s.clearStatus v
  | .cmd => s.issue v
  | .cfg => { s with cfg := v &&& cfgMask }
  | .acfg => s
  | .tableLen => { s with tableLen := v.extractLsb' 0 8 }
  | .mkey => { s with mkey := truncH s.params.width v }
  | .fout => s
  | .halfL => { s with halfL := truncH s.params.width v }
  | .halfR => { s with halfR := truncH s.params.width v }
  | .binLo => { s with bin := s.bin.extractLsb' 32 32 ++ v }
  | .binHi => { s with bin := v ++ s.bin.extractLsb' 0 32 }
  | .boutLo => s
  | .boutHi => s
  | .msgLen => { s with msgLen := v.extractLsb' 0 16 }
  | .origLen => { s with origLen := v.extractLsb' 0 16 }
  | .blkCount => { s with blkCount := v.extractLsb' 0 16 }
  | .errCmd => s
  | .errInfo => s
  | .tab j => { s with tab := s.tab.set j (truncH s.params.width v) }
  | .sk _ => s
  | .msg k => { s with mem := Memory.write s.mem (msgAddr k) (v.extractLsb' 0 8) }
  | .blkLo j => { s with mem := Memory.writeWord s.mem (blkAddr j) v }
  | .blkHi j => { s with mem := Memory.writeWord s.mem (blkAddr j + 4) v }
  | .unmapped => s

/-- A host write (spec/40_command_lifecycle.md R80): while BUSY = 1 every write but one to CTRL is ignored and sets
OVERRUN. -/
def State.busWrite (s : State) (off : Nat) (v : Word) : State :=
  if locate s.params off = .ctrl then s.writeCtrl v
  else if s.busy then { s with overrun := true }
  else s.writeLoc v (locate s.params off)

/-- The word that a host read returns, at any time (R51). -/
def State.busRead (s : State) (off : Nat) : Word := s.readLoc (locate s.params off)

/-- The state after a host read: no location changes (R51); the word goes to the host, and the next free draw is a
fresh one (log 3, 6). -/
def State.afterRead (s : State) (off : Nat) : State :=
  { s with readLog := s.readLog ++ [s.busRead off], draws := s.draws + 1 }

/-- An access the interface has: one aligned 32-bit word (R47, R50). -/
def accessLegal (off : BitVec 16) (bytes : Nat) : Bool := bytes == 4 && off.toNat % 4 == 0

/-- A move from outside the block. -/
def State.hostMove (s : State) (m : HostMove) : Host.Outcome State Fault Refusal :=
  match m with
  | .read off bytes => if accessLegal off bytes then .next (s.afterRead off.toNat) else .refused .accessOutsideInterface
  | .write off bytes v =>
    if accessLegal off bytes then .next (s.busWrite off.toNat v) else .refused .accessOutsideInterface
  | .hardReset => .next s.toReset

end Sys2Proof.Machine
end

