-- ==== Sys2Proof/Machine/BitPacker.lean ====
section
/-! DEFINITION. The serializer: pack, unpack, and the commands PACK and UNPACK (spec/41_bitpacker.md). -/

namespace Sys2Proof.Machine

/-- The message with its padding where the policy puts it (R91). -/
def padMessage (w : BlockWidth) (pad : PadPolicy) (fill : Byte) (m : List Byte) : List Byte :=
  let n := m.length
  let count := w.blocksFor n
  let p := count * w.bytes - n
  match pad with
  | .fillerTail => m ++ List.replicate p fill
  | .zeroLeftMessage => List.replicate p 0#8 ++ m
  | .zeroLeftFinal =>
    m.take ((count - 1) * w.bytes) ++ List.replicate p 0#8 ++ m.drop ((count - 1) * w.bytes)

/-- The first `count` groups of `size` bytes. -/
def byteGroups (size : Nat) : Nat → List Byte → List (List Byte)
  | 0, _ => []
  | count + 1, s => s.take size :: byteGroups size count (s.drop size)

/-- pack(m, PAD, FILL): N = ceil(n / B) blocks, big-endian (R91). -/
def packMessage (w : BlockWidth) (pad : PadPolicy) (fill : Byte) (m : List Byte) : List Block :=
  (byteGroups w.bytes (w.blocksFor m.length) (padMessage w pad fill m)).map groupBlock

/-- unpack(blocks, n, PAD): the p padding bytes are dropped where pack put them, and never looked at (R93, R94). -/
def unpackBlocks (w : BlockWidth) (pad : PadPolicy) (n : Nat) (blocks : List Block) : List Byte :=
  let s := blocks.flatMap (blockBytes w)
  let count := blocks.length
  let p := count * w.bytes - n
  match pad with
  | .fillerTail => s.take n
  | .zeroLeftMessage => (s.drop p).take n
  | .zeroLeftFinal => s.take ((count - 1) * w.bytes) ++ s.drop ((count - 1) * w.bytes + p)

/-- The length check of a decode (R97): BLK_COUNT, then ORIG_LEN, then their agreement. -/
def needDecodeLength (p : Params) (count n : Nat) (r : CmdResult) : CmdResult :=
  if p.maxBlocks < count then .err .lengthRange 0x0048
  else if p.msgBytes < n then .err .lengthRange 0x0044
  else if count ≠ p.width.blocksFor n then .err .lengthRange 0x0044
  else r

/-- The width check of BLK[0 .. count-1]: the least ill-formed slot is reported (R98). -/
def State.needSlots (s : State) (count : Nat) (r : CmdResult) : CmdResult :=
  needAll (wellFormedBlock s.params.width) (s.slots count) .invalidBlockWidth r

/-- The checks that the encoding commands share, before they use MSG (R99, spec/45_ecb.md R137). -/
def State.needMessage (s : State) (r : CmdResult) : CmdResult :=
  s.needKeyed <| needLength s.msgLen.toNat s.params.msgBytes 0x0040 <|
    needAll s.acfg.charset.accepts (s.message s.msgLen.toNat) .unencodableInput r

/-- The checks that the decoding commands share, before they use BLK (R100, spec/45_ecb.md R138). -/
def State.needBlocks (s : State) (r : CmdResult) : CmdResult :=
  s.needKeyed <| needDecodeLength s.params s.blkCount.toNat s.origLen.toNat <|
    s.needSlots s.blkCount.toNat r

/-- The blocks that MSG[0 .. MSG_LEN-1] packs into under the active configuration (R99). -/
def State.packed (s : State) : List Block :=
  packMessage s.params.width s.acfg.pad s.acfg.fill (s.message s.msgLen.toNat)

/-- BLK[j] <- blocks[j], BLK_COUNT <- N, ORIG_LEN <- MSG_LEN (R99). -/
def State.storePacked (s : State) (blocks : List Block) : State :=
  { s with mem := Memory.writeBlkFrom s.mem 0 blocks
           blkCount := BitVec.ofNat 16 blocks.length, origLen := s.msgLen }

/-- The message that the given blocks unpack to, of ORIG_LEN bytes (R100). -/
def State.unpacked (s : State) (blocks : List Block) : List Byte :=
  unpackBlocks s.params.width s.acfg.pad s.origLen.toNat blocks

/-- MSG[k] <- m[k], MSG_LEN <- ORIG_LEN (R100). -/
def State.storeMessage (s : State) (m : List Byte) : State :=
  { s with mem := Memory.writeMsgFrom s.mem 0 m, msgLen := s.origLen }

/-- PACK (R99). -/
def execPack (s : State) : Host.Outcome State Fault Refusal :=
  s.complete (s.needMessage (.ok (s.storePacked s.packed)))

/-- UNPACK (R100). -/
def execUnpack (s : State) : Host.Outcome State Fault Refusal :=
  s.complete (s.needBlocks (.ok (s.storeMessage (s.unpacked (s.slots s.blkCount.toNat)))))

end Sys2Proof.Machine
end

