-- ==== Sys2Proof/Machine/RoundFunction.lean ====
section
/-! DEFINITION. The round function F and FEVAL (spec/43_round_function.md). -/

namespace Sys2Proof.Machine

/-- F(sel, a, k), bitwise (R111). -/
def roundF (sel : RoundFn) (a k : Word) : Word :=
  match sel with
  | .xor => a ^^^ k
  | .and => a &&& k
  | .or => a ||| k

/-- FEVAL i (R117): FOUT <- F(HALF_R, SK[i]). -/
def execFeval (idx : BitVec 8) (s : State) : Host.Outcome State Fault Refusal :=
  s.complete <| s.needKeyed <| s.needIndex idx <|
    .ok { s with fout := roundF s.acfg.fsel s.halfR (s.subkey idx.toNat) }

end Sys2Proof.Machine
end

