-- ==== Sys2Proof/Machine/BlockCipher.lean ====
section
/-! DEFINITION. The Feistel round engine (spec/44_block_cipher.md): the rounds, the block maps, and the commands SPLIT,
JOIN, ROUND_FWD, ROUND_INV, ENC_BLOCK and DEC_BLOCK. -/

namespace Sys2Proof.Machine

/-- fwd(K, (L, R)) = (R, L ^ F(R, K)) (R120). -/
def fwdRound (sel : RoundFn) (k : Word) (lr : Word × Word) : Word × Word :=
  (lr.2, lr.1 ^^^ roundF sel lr.2 k)

/-- inv(K, (L', R')) = (R' ^ F(L', K), L') (R121). -/
def invRound (sel : RoundFn) (k : Word) (lr : Word × Word) : Word × Word :=
  (lr.2 ^^^ roundF sel lr.1 k, lr.1)

/-- The forward rounds, subkeys in order (R123). -/
def fwdRounds (sel : RoundFn) (keys : List Word) (lr : Word × Word) : Word × Word :=
  keys.foldl (fun x k => fwdRound sel k x) lr

/-- The inverse rounds, subkeys in reverse order (R124). -/
def invRounds (sel : RoundFn) (keys : List Word) (lr : Word × Word) : Word × Word :=
  keys.reverse.foldl (fun x k => invRound sel k x) lr

/-- The final halves of encrypt(b) (R123). -/
def encryptHalves (w : BlockWidth) (sel : RoundFn) (keys : List Word) (b : Block) : Word × Word :=
  fwdRounds sel keys (splitBlock w b)

/-- The final halves of decrypt(b) (R124). -/
def decryptHalves (w : BlockWidth) (sel : RoundFn) (keys : List Word) (b : Block) : Word × Word :=
  invRounds sel keys (splitBlock w b)

/-- enc(b): the joined halves as they stand, with no swap after the last round (R123). -/
def encryptBlock (w : BlockWidth) (sel : RoundFn) (keys : List Word) (b : Block) : Block :=
  joinBlock w (encryptHalves w sel keys b).1 (encryptHalves w sel keys b).2

/-- dec(b) (R124). -/
def decryptBlock (w : BlockWidth) (sel : RoundFn) (keys : List Word) (b : Block) : Block :=
  joinBlock w (decryptHalves w sel keys b).1 (decryptHalves w sel keys b).2

/-- encrypt under the instance that the state holds. -/
def State.enc (s : State) (b : Block) : Block := encryptBlock s.params.width s.acfg.fsel s.subkeys b

/-- decrypt under the instance that the state holds. -/
def State.dec (s : State) (b : Block) : Block := decryptBlock s.params.width s.acfg.fsel s.subkeys b

/-- The width check of BIN (R126, R130, R131): the detail value is 0. -/
def State.needBin (s : State) (r : CmdResult) : CmdResult :=
  if wellFormedBlock s.params.width s.bin then r else .err .invalidBlockWidth 0

/-- The simultaneous write of HALF_L and HALF_R. -/
def State.putHalves (s : State) (lr : Word × Word) : State := { s with halfL := lr.1, halfR := lr.2 }

/-- The write of HALF_L, HALF_R and BOUT by the block commands (R130, R131). -/
def State.putBlock (s : State) (lr : Word × Word) : State :=
  { s with halfL := lr.1, halfR := lr.2, bout := joinBlock s.params.width lr.1 lr.2 }

/-- SPLIT (R126); it needs no instance. -/
def execSplit (s : State) : Host.Outcome State Fault Refusal :=
  s.complete <| s.needBin <| .ok (s.putHalves (splitBlock s.params.width s.bin))

/-- JOIN (R127); it needs no instance. -/
def execJoin (s : State) : Host.Outcome State Fault Refusal :=
  s.complete (.ok { s with bout := joinBlock s.params.width s.halfL s.halfR })

/-- ROUND_FWD i (R128). -/
def execRoundFwd (idx : BitVec 8) (s : State) : Host.Outcome State Fault Refusal :=
  s.complete <| s.needKeyed <| s.needIndex idx <|
    .ok (s.putHalves (fwdRound s.acfg.fsel (s.subkey idx.toNat) (s.halfL, s.halfR)))

/-- ROUND_INV i (R129). -/
def execRoundInv (idx : BitVec 8) (s : State) : Host.Outcome State Fault Refusal :=
  s.complete <| s.needKeyed <| s.needIndex idx <|
    .ok (s.putHalves (invRound s.acfg.fsel (s.subkey idx.toNat) (s.halfL, s.halfR)))

/-- ENC_BLOCK (R130). -/
def execEncBlock (s : State) : Host.Outcome State Fault Refusal :=
  s.complete <| s.needKeyed <| s.needBin <|
    .ok (s.putBlock (encryptHalves s.params.width s.acfg.fsel s.subkeys s.bin))

/-- DEC_BLOCK (R131). -/
def execDecBlock (s : State) : Host.Outcome State Fault Refusal :=
  s.complete <| s.needKeyed <| s.needBin <|
    .ok (s.putBlock (decryptHalves s.params.width s.acfg.fsel s.subkeys s.bin))

end Sys2Proof.Machine
end

