-- ==== Sys2Proof/Machine/Ecb.lean ====
section
/-! DEFINITION. The ECB message sequencer: ECB_ENC, ECB_DEC, ENC_MSG and DEC_MSG (spec/45_ecb.md). Every slot is read
before any is written (R135, spec/20_memory.md R63), so no order of processing shows (R134). -/

namespace Sys2Proof.Machine

/-- The checks that ECB_ENC and ECB_DEC share (R135, R136). -/
def State.needBlockBuffer (s : State) (r : CmdResult) : CmdResult :=
  s.needKeyed <| needLength s.blkCount.toNat s.params.maxBlocks 0x0048 <| s.needSlots s.blkCount.toNat r

/-- BLK[j] <- f(BLK[j]) for j < BLK_COUNT, in place (R133). -/
def State.mapSlots (s : State) (f : Block → Block) : State :=
  { s with mem := Memory.writeBlkFrom s.mem 0 ((s.slots s.blkCount.toNat).map f) }

/-- ECB_ENC (R135). -/
def execEcbEnc (s : State) : Host.Outcome State Fault Refusal :=
  s.complete <| s.needBlockBuffer <| .ok (s.mapSlots s.enc)

/-- ECB_DEC (R136). -/
def execEcbDec (s : State) : Host.Outcome State Fault Refusal :=
  s.complete <| s.needBlockBuffer <| .ok (s.mapSlots s.dec)

/-- ENC_MSG (R137). -/
def execEncMsg (s : State) : Host.Outcome State Fault Refusal :=
  s.complete <| s.needMessage <| .ok (s.storePacked (s.packed.map s.enc))

/-- DEC_MSG (R138): BLK is left with the plaintext blocks, padding included. -/
def execDecMsg (s : State) : Host.Outcome State Fault Refusal :=
  s.complete <| s.needBlocks <|
    .ok ((s.mapSlots s.dec).storeMessage (s.unpacked ((s.slots s.blkCount.toNat).map s.dec)))

end Sys2Proof.Machine
end

