-- ==== Sys2Proof/Machine/KeySchedule.lean ====
section
/-! DEFINITION. The key schedule and INIT (spec/42_key_schedule.md). -/

namespace Sys2Proof.Machine

/-- TABLE: k[i] = TAB[i mod t] (R103). -/
def deriveTable (tab : List Word) (t r : Nat) : List Word :=
  (List.range r).map fun i => tab.getD (i % t) 0#32

/-- ARITH: k[i] = trunc_H(MKEY ^ trunc_H(i * P_KS_CONST)), the product exact and then reduced (R104). -/
def deriveArith (p : Params) (mkey : Word) (r : Nat) : List Word :=
  (List.range r).map fun i =>
    truncH p.width (mkey ^^^ truncH p.width (BitVec.ofNat 32 (i * p.ksConst.toNat)))

/-- DIRECT: k[i] = TAB[i] (R105). -/
def deriveDirect (tab : List Word) (r : Nat) : List Word :=
  (List.range r).map fun i => tab.getD i 0#32

/-- derive(KSEL, r, TAB, t, MKEY), always r entries (R102). -/
def derive (p : Params) (k : KeyPolicy) (r : Nat) (tab : List Word) (t : Nat) (mkey : Word) : List Word :=
  match k with
  | .table => deriveTable tab t r
  | .arith => deriveArith p mkey r
  | .direct => deriveDirect tab r

/-- Checks 2 to 5 of R107, in order, for a configuration whose selectors are not reserved. -/
def initCheck (p : Params) (c : CipherCfg) (t : Nat) (r : CmdResult) : CmdResult :=
  if p.rmax < c.rounds.toNat then .err .invalidSubkeyCount c.rounds.toNat
  else if c.ksel = .table ∧ (t = 0 ∨ p.tmax < t) then .err .invalidConfig 0x001C
  else if c.ksel = .direct ∧ p.tmax < t then .err .invalidConfig 0x001C
  else if c.ksel = .direct ∧ t ≠ c.rounds.toNat then .err .invalidSubkeyCount t
  else r

/-- The state that a successful INIT latches: ACFG, all of SK (0 beyond ROUNDS) and KEYED (R108). -/
def State.latch (s : State) (c : CipherCfg) : State :=
  { s with
    acfg := c
    sk := derive s.params c.ksel c.rounds.toNat s.tab s.tableLen.toNat s.mkey ++
      List.replicate (s.params.rmax - c.rounds.toNat) 0#32
    keyed := true }

/-- INIT (R108): check 1 of R107 is the reading of CFG, checks 2 to 5 follow. -/
def execInit (s : State) : Host.Outcome State Fault Refusal :=
  s.complete (match parseCfg s.cfg with
    | none => .err .invalidConfig 0x0014
    | some c => initCheck s.params c s.tableLen.toNat (.ok (s.latch c)))

end Sys2Proof.Machine
end

