-- ==== Sys2Proof/Machine/Lifecycle.lean ====
section
/-! DEFINITION. NOP and the end of a run (spec/40_command_lifecycle.md R90, R87). -/

namespace Sys2Proof.Machine

/-- NOP: no writes; it needs no instance (R90). -/
def execNop (s : State) : Host.Outcome State Fault Refusal :=
  s.complete (.ok s)

/-- Is the entry an access of the host (R18, R47)? The engine's turn is not, and the reset input is the platform's
(spec/70_reset_and_hazards.md R155). -/
def Input.isHostAccess : Input → Bool
  | .engineTurn => false
  | .host (.read _ _) => true
  | .host (.write _ _ _) => true
  | .host .hardReset => false

/-- A run has ended: the host has made its last access and BUSY = 0 (R87). What is left of the schedule may hold turns
of the engine and hardware resets (log 5). -/
def State.ended (s : State) : Bool := !s.inputs.any Input.isHostAccess && !s.busy

end Sys2Proof.Machine
end

