-- ==== Sys2Proof/Machine/Step.lean ====
section
/-! DEFINITION. One step of the machine: the move of the agent whose turn it is (spec/10_state.md R18; log 5). -/

namespace Sys2Proof.Machine

/-- The engine's turn (spec/40_command_lifecycle.md R81): while BUSY = 1 it executes and completes the pending
command; while BUSY = 0 it has no enabled step and all state is kept (spec/60_exceptions.md R154). -/
def State.engineTurn (s : State) : Host.Outcome State Fault Refusal :=
  if s.busy then
    match decode s.fetch with
    | .ok i => exec i s
    | .error _ => s.completeIllegal
  else .next s

/-- One step. With nothing scheduled the engine moves, so every pending command completes (R85). A build outside the
legal parameters is rejected (spec/00_scope.md R7). -/
def step (s : State) : Host.Outcome State Fault Refusal :=
  if s.params.wf then
    match s.inputs with
    | [] => s.engineTurn
    | .engineTurn :: rest => State.engineTurn { s with inputs := rest }
    | .host m :: rest => State.hostMove { s with inputs := rest } m
  else .refused .buildRejected

/-- The state in which the very next step runs the command of an opcode-table word: the word accepted as R79 accepts a
CMD write, and the engine's turn next (log 11). -/
def State.withFetchWord (s : State) (nbits w : Nat) : State :=
  { s with lastCmd := tableWord nbits w, pending := tableWord nbits w, done := false, busy := true, inputs := [] }

end Sys2Proof.Machine
end

