-- ==== Sys2Proof/Machine/HostAsm.lean ====
section
/-! DEFINITION. The host assembly language of spec/30_encoding.md R76 to R78: location names, the text of a command, and
the pseudo-instructions, as schedules of moves. -/

namespace Sys2Proof.Machine

/-- offset(loc): where the address map puts a named location (R76, spec/20_memory.md R48). -/
def Loc.offset : Loc → Nat
  | .id => 0x0000
  | .param => 0x0004
  | .ctrl => 0x0008
  | .status => 0x000C
  | .cmd => 0x0010
  | .cfg => 0x0014
  | .acfg => 0x0018
  | .tableLen => 0x001C
  | .mkey => 0x0020
  | .fout => 0x0024
  | .halfL => 0x0028
  | .halfR => 0x002C
  | .binLo => 0x0030
  | .binHi => 0x0034
  | .boutLo => 0x0038
  | .boutHi => 0x003C
  | .msgLen => 0x0040
  | .origLen => 0x0044
  | .blkCount => 0x0048
  | .errCmd => 0x004C
  | .errInfo => 0x0050
  | .tab j => 0x0400 + 4 * j
  | .sk i => 0x0800 + 4 * i
  | .msg k => 0x4000 + 4 * k
  | .blkLo j => 0x8000 + 8 * j
  | .blkHi j => 0x8004 + 8 * j
  | .unmapped => 0x0054

/-- Does the location exist under the build parameters (spec/20_memory.md R48)? -/
def Loc.exists (p : Params) : Loc → Bool
  | .tab j => decide (j < p.tmax)
  | .sk i => decide (i < p.rmax)
  | .msg k => decide (k < p.msgBytes)
  | .blkLo j => decide (j < p.maxBlocks)
  | .blkHi j => decide (j < p.maxBlocks)
  | .unmapped => false
  | _ => true

/-- `wr <loc>, <imm32>` is MemWrite(offset(loc), 4, imm32) (R76). -/
def wr (l : Loc) (v : Word) : Input := .host (.write (BitVec.ofNat 16 l.offset) 4 v)

/-- `rd <loc>` is MemRead(offset(loc), 4) (R76). -/
def rd (l : Loc) : Input := .host (.read (BitVec.ofNat 16 l.offset) 4)

/-- `wait`: reads of STATUS until bit 0 reads 0 (R78). `polls` reads fall before the engine's turn, one after it; how
many do is the schedule's choice (log 5). -/
def waitIdle (polls : Nat) : List Input :=
  List.replicate polls (rd .status) ++ [.engineTurn, rd .status]

/-- `cmd <command>`: `wr CMD, <word>` then `wait` (R78). -/
def cmdWord (w : Word) (polls : Nat) : List Input := wr .cmd w :: waitIdle polls

/-- `wrbin <imm64>` (R78). -/
def wrbin (b : Block) : List Input := [wr .binLo (b.extractLsb' 0 32), wr .binHi (b.extractLsb' 32 32)]

/-- `rdbout` (R78). -/
def rdbout : List Input := [rd .boutLo, rd .boutHi]

/-- `wrblk <j>, <imm64>` (R78). -/
def wrblk (j : Nat) (b : Block) : List Input :=
  [wr (.blkLo j) (b.extractLsb' 0 32), wr (.blkHi j) (b.extractLsb' 32 32)]

/-- `wrmsg`, for the bytes of the text (R78). -/
def wrmsg (bs : List Byte) : List Input :=
  bs.zipIdx.map (fun x => wr (.msg x.2) (x.1.setWidth 32)) ++ [wr .msgLen (BitVec.ofNat 32 bs.length)]

/-- `wrtab <v0>, <v1>, ...` (R78). -/
def wrtab (vs : List Word) : List Input :=
  vs.zipIdx.map (fun x => wr (.tab x.2) x.1) ++ [wr .tableLen (BitVec.ofNat 32 vs.length)]

/-- The text of a command: the mnemonic, and the decimal index in format I (R77). -/
def commandText : Instr → String
  | .nop => "NOP"
  | .init => "INIT"
  | .pack => "PACK"
  | .unpack => "UNPACK"
  | .feval idx => "FEVAL " ++ toString idx.toNat
  | .split => "SPLIT"
  | .join => "JOIN"
  | .roundFwd idx => "ROUND_FWD " ++ toString idx.toNat
  | .roundInv idx => "ROUND_INV " ++ toString idx.toNat
  | .encBlock => "ENC_BLOCK"
  | .decBlock => "DEC_BLOCK"
  | .ecbEnc => "ECB_ENC"
  | .ecbDec => "ECB_DEC"
  | .encMsg => "ENC_MSG"
  | .decMsg => "DEC_MSG"

end Sys2Proof.Machine
end

