-- ==== Sys2Proof/Safety.lean ====
section
/-! DEFINITION. What the statements call a well-formed state, a safe run, and a host that respects the hazards. -/

namespace Sys2Proof.Machine

/-- The invariant: what the rules of spec/ say holds of every state of the block. -/
structure State.Inv (s : State) : Prop where
  /-- the build is legal (spec/00_scope.md R6, R7, R10, R11) -/
  build : s.params.wf = true
  /-- "BUSY and DONE are never both 1" (spec/10_state.md R28) -/
  notBusyAndDone : (s.busy && s.done) = false
  /-- PENDING and LAST_CMD hold the word accepted last (spec/40_command_lifecycle.md R79) -/
  pendingIsLast : s.busy = true → s.pending = s.lastCmd
  /-- the RAZ/WI bits of CFG are 0 (spec/10_state.md R30, R46) -/
  cfgBits : s.cfg &&& cfgMask = s.cfg
  /-- the H-bit registers hold H bits (R22, R34, R46) -/
  mkeyHalf : s.params.width.isHalf s.mkey = true
  foutHalf : s.params.width.isHalf s.fout = true
  halfLHalf : s.params.width.isHalf s.halfL = true
  halfRHalf : s.params.width.isHalf s.halfR = true
  /-- BOUT holds a well-formed block (spec/44_block_cipher.md R119) -/
  boutWf : wellFormedBlock s.params.width s.bout = true
  /-- TAB has P_TMAX entries of H bits (R41) -/
  tabLength : s.tab.length = s.params.tmax
  tabHalf : s.tab.all s.params.width.isHalf = true
  /-- SK has P_RMAX entries of H bits (R42) -/
  skLength : s.sk.length = s.params.rmax
  skHalf : s.sk.all s.params.width.isHalf = true
  /-- the instance's ROUNDS fits the store, and SK is 0 beyond it (R42, spec/42_key_schedule.md R108, R109) -/
  roundsFit : s.acfg.rounds.toNat ≤ s.params.rmax
  skTail : (s.sk.drop s.acfg.rounds.toNat).all (· == 0#32) = true
  /-- with no instance, ACFG and SK are as reset left them (R20, R31, R42) -/
  unkeyedCfg : s.keyed = false → s.acfg = CipherCfg.reset
  /-- the buffers are in canonical form and hold only bytes of MSG and BLK (spec/20_memory.md R48) -/
  memWf : Memory.wf s.mem = true
  memInBuffers : s.mem.all (fun c => bufferByte s.params c.1) = true

/-- A safe run of `k` steps: none of them is refused and none faults. -/
def SafeRun : Nat → State → Prop
  | 0, _ => True
  | k + 1, s => ∃ t, step s = .next t ∧ SafeRun k t

/-- Commands executed one after another, each completing before the next starts (spec/40_command_lifecycle.md R88). -/
def execSeq : List Instr → State → Host.Outcome State Fault Refusal
  | [], s => .next s
  | i :: is, s =>
    match exec i s with
    | .next t => execSeq is t
    | .fault r => .fault r
    | .refused r => .refused r

/-- Every host access of the schedule is one the interface has (spec/20_memory.md R47, R50). -/
def legalInput : Input → Bool
  | .engineTurn => true
  | .host (.read off bytes) => accessLegal off bytes
  | .host (.write off bytes _) => accessLegal off bytes
  | .host .hardReset => true

/-- The move the hazard rule forbids: a host write, other than to CTRL, while BUSY = 1
(spec/70_reset_and_hazards.md R160). -/
def State.hazardWrite (s : State) : Input → Bool
  | .host (.write off _ _) => s.busy && !(locate s.params off.toNat == .ctrl)
  | _ => false

end Sys2Proof.Machine
end

