-- ==== Sys2Proof/Certificates/Slice0/Obligations.lean ====
section
/-! DEFINITION. The statements for the provers, each a rule of spec/ about the model. In them `s.succeed` and
`s.raiseError code info` are the two completions, which `CompletionWritesExactly` spells out field by field; a
conclusion `u = State.succeed { s with ... }` says that every field not named there is unchanged. The fields `draws`
(the count of free draws, log 3), `inputs` (the schedule, log 5) and `readLog` (what the host's reads returned, log 6)
are the model's own, not state of the spec: where a statement says what becomes of them, that is the model's choice. -/

open Sys2Proof Sys2Proof.Machine

/-! ### Encoding -/

/-- R68: the fifteen rows of the opcode map, format I with every index. -/
def Obligations.EveryTableRowDecodesToItsCommand : Prop :=
  decode 0x00000000#32 = .ok .nop ∧ decode 0x00000001#32 = .ok .init ∧
  decode 0x00000008#32 = .ok .pack ∧ decode 0x00000009#32 = .ok .unpack ∧
  decode 0x00000020#32 = .ok .split ∧ decode 0x00000021#32 = .ok .join ∧
  decode 0x00000024#32 = .ok .encBlock ∧ decode 0x00000025#32 = .ok .decBlock ∧
  decode 0x00000030#32 = .ok .ecbEnc ∧ decode 0x00000031#32 = .ok .ecbDec ∧
  decode 0x00000032#32 = .ok .encMsg ∧ decode 0x00000033#32 = .ok .decMsg ∧
  ∀ idx : BitVec 8,
    decode (BitVec.ofNat 32 (idx.toNat * 256 + 0x10)) = .ok (.feval idx) ∧
    decode (BitVec.ofNat 32 (idx.toNat * 256 + 0x22)) = .ok (.roundFwd idx) ∧
    decode (BitVec.ofNat 32 (idx.toNat * 256 + 0x23)) = .ok (.roundInv idx)

/-- Decode of encode is the command, for every command and every index (R66, R67, R68). -/
def Obligations.DecodeOfEncodeIsTheCommand : Prop :=
  ∀ i : Instr, decode (encode i) = .ok i

/-- R70: every word is exactly one command's word, or illegal and no command's word. -/
def Obligations.EveryWordIsOneCommandOrIllegal : Prop :=
  ∀ w : Word,
    (legalWord w = true → ∃ i, decode w = .ok i ∧ encode i = w ∧ ∀ j, encode j = w → j = i) ∧
    (legalWord w = false → (∃ e, decode w = .error e) ∧ ∀ j, encode j ≠ w)

/-- R69: a word with RSVD ≠ 0, an unlisted OP, or a format N OP with IDX ≠ 0 is accepted like any other, and the engine
completes it with ILLEGAL_COMMAND, ERR_INFO = OP and no other effect. The engine moves when its turn is scheduled, and
when nothing is: that is the model's choice (log 5). The model's own count `draws` is left open (log 3). -/
def Obligations.IllegalWordCompletesWithIllegalCommand : Prop :=
  ∀ w : Word,
    (w.extractLsb' 16 16 ≠ 0#16 ∨
      w.extractLsb' 0 8 ∉ opcodesN ++ opcodesI ∨
      (w.extractLsb' 0 8 ∈ opcodesN ∧ w.extractLsb' 8 8 ≠ 0#8)) →
    (∀ s : State, s.busy = false → ∃ t, s.hostMove (.write 0x0010#16 4 w) = .next t ∧ t.busy = true ∧ t.pending = w) ∧
    (∀ s : State, s.params.wf = true → s.busy = true → s.pending = w →
      (s.inputs = [] → ∃ d, step s = .next { s with
        err := .illegalCommand, errSticky := true, errCmd := w, errInfo := (w.extractLsb' 0 8).setWidth 16
        busy := false, done := true, draws := d }) ∧
      (∀ rest, s.inputs = .engineTurn :: rest → ∃ d, step s = .next { s with
        err := .illegalCommand, errSticky := true, errCmd := w, errInfo := (w.extractLsb' 0 8).setWidth 16
        busy := false, done := true, draws := d, inputs := rest }))

/-! ### The step -/

/-- R81: when the pending word decodes to a command, the engine's step is exec of that command. Around exec the step
only takes the engine's own turn off the schedule (log 5). -/
def Obligations.StepRunsTheDecodedCommand : Prop :=
  ∀ (s : State) (i : Instr), s.params.wf = true → s.busy = true → decode s.pending = .ok i →
    (s.inputs = [] → step s = exec i s) ∧
    (∀ rest, s.inputs = .engineTurn :: rest → step s = exec i { s with inputs := rest })

/-- R18, R58: a scheduled move of the host is performed as the one transition of that step (the schedule is the model's,
log 5). -/
def Obligations.StepPerformsTheScheduledHostMove : Prop :=
  ∀ (s : State) (m : HostMove) (rest : List Input), s.params.wf = true → s.inputs = .host m :: rest →
    step s = State.hostMove { s with inputs := rest } m

/-- R154: with no command pending the engine has no enabled step and all state is kept. -/
def Obligations.IdleEngineKeepsAllState : Prop :=
  ∀ s : State, s.params.wf = true → s.busy = false →
    (s.inputs = [] → step s = .next s) ∧
    (∀ rest, s.inputs = .engineTurn :: rest → step s = .next { s with inputs := rest })

/-- R81, R82, R85: one engine step completes whatever word is pending. The engine moves when its turn is scheduled, and
when nothing is (log 5). -/
def Obligations.PendingCommandCompletesInOneStep : Prop :=
  ∀ s : State, s.params.wf = true → s.busy = true →
    (s.inputs = [] ∨ ∃ rest, s.inputs = .engineTurn :: rest) →
    ∃ t, step s = .next t ∧ t.busy = false ∧ t.done = true ∧ t.pending = s.pending ∧ t.lastCmd = s.lastCmd ∧
      t.inputs = s.inputs.tail

/-- R49, R50: no step of a legal build faults, and a step is refused exactly when the next move is a host access that is
not one aligned 32-bit word. -/
def Obligations.StepRefusesOnlyAccessesOutsideTheInterface : Prop :=
  ∀ s : State, s.params.wf = true →
    (∀ r, step s ≠ .fault r) ∧
    ((∃ r, step s = .refused r) ↔
      ∃ (off : BitVec 16) (bytes : Nat) (rest : List Input), (bytes ≠ 4 ∨ off.toNat % 4 ≠ 0) ∧
        (s.inputs = .host (.read off bytes) :: rest ∨ ∃ v, s.inputs = .host (.write off bytes v) :: rest))

/-! ### The bus -/

/-- R50: a misaligned access, or one that is not 32 bits wide, is refused. -/
def Obligations.AccessOutsideTheInterfaceIsRefused : Prop :=
  ∀ (s : State) (off : BitVec 16) (bytes : Nat) (v : Word), (bytes ≠ 4 ∨ off.toNat % 4 ≠ 0) →
    s.hostMove (.read off bytes) = .refused .accessOutsideInterface ∧
    s.hostMove (.write off bytes v) = .refused .accessOutsideInterface

/-- R79: a write to CMD while BUSY = 0 accepts the word, legal or not, and changes nothing else. -/
def Obligations.CmdWriteIssuesTheCommand : Prop :=
  ∀ (s : State) (w : Word), s.busy = false →
    s.hostMove (.write 0x0010#16 4 w) = .next { s with lastCmd := w, pending := w, done := false, busy := true }

/-- R80: while BUSY = 1 a write to any offset but CTRL only sets OVERRUN, a write to CTRL acts as while BUSY = 0, and
reads are never refused. -/
def Obligations.WriteWhileBusyOnlySetsOverrun : Prop :=
  ∀ (s : State) (off : BitVec 16) (v : Word), s.busy = true → off.toNat % 4 = 0 →
    (off ≠ 0x0008#16 → s.hostMove (.write off 4 v) = .next { s with overrun := true }) ∧
    (off = 0x0008#16 → s.hostMove (.write off 4 v) = .next (if v.getLsbD 0 then s.toReset else s)) ∧
    (∃ t, s.hostMove (.read off 4) = .next t)

/-- R51: a read at any time changes no location. It appends the word read to the model's read log and takes the next
free draw (log 3, 6). -/
def Obligations.ReadsHaveNoSideEffect : Prop :=
  ∀ (s : State) (off : BitVec 16), off.toNat % 4 = 0 →
    s.hostMove (.read off 4) =
      .next { s with readLog := s.readLog ++ [s.busRead off.toNat], draws := s.draws + 1 }

/-- R22: HALF_L, HALF_R, MKEY and every TAB[j] store exactly the low H bits of the word written; for W=64 that is the
whole word. -/
def Obligations.HalfRegistersStoreHBits : Prop :=
  ∀ (s : State) (v : Word), s.Inv → s.busy = false →
    (((s.busWrite 0x0028 v).busRead 0x0028).toNat = v.toNat % 2 ^ s.params.width.half ∧
      s.busWrite 0x0028 v = { s with halfL := (s.busWrite 0x0028 v).halfL }) ∧
    (((s.busWrite 0x002C v).busRead 0x002C).toNat = v.toNat % 2 ^ s.params.width.half ∧
      s.busWrite 0x002C v = { s with halfR := (s.busWrite 0x002C v).halfR }) ∧
    (((s.busWrite 0x0020 v).busRead 0x0020).toNat = v.toNat % 2 ^ s.params.width.half ∧
      s.busWrite 0x0020 v = { s with mkey := (s.busWrite 0x0020 v).mkey }) ∧
    (∀ j < s.params.tmax,
      ((s.busWrite (0x0400 + 4 * j) v).busRead (0x0400 + 4 * j)).toNat = v.toNat % 2 ^ s.params.width.half ∧
      s.busWrite (0x0400 + 4 * j) v = { s with tab := (s.busWrite (0x0400 + 4 * j) v).tab } ∧
      ∀ k, k ≠ j → (s.busWrite (0x0400 + 4 * j) v).tab.getD k 0#32 = s.tab.getD k 0#32)

/-- R30, R32, R36 to R38, R43, R44, R52, R54: what the other writable registers and the buffers store while idle, that
nothing else changes, and that the next read of the offset returns what was stored. -/
def Obligations.IdleWriteStoresItsRegister : Prop :=
  ∀ (s : State) (v : Word), s.params.wf = true → s.busy = false →
    (s.busWrite 0x0014 v = { s with cfg := v &&& 0x00FF7FFF#32 } ∧
      (s.busWrite 0x0014 v).busRead 0x0014 = v &&& 0x00FF7FFF#32) ∧
    (s.busWrite 0x001C v = { s with tableLen := v.extractLsb' 0 8 } ∧
      (s.busWrite 0x001C v).busRead 0x001C = (v.extractLsb' 0 8).setWidth 32) ∧
    (s.busWrite 0x0030 v = { s with bin := s.bin.extractLsb' 32 32 ++ v } ∧
      (s.busWrite 0x0030 v).busRead 0x0030 = v) ∧
    (s.busWrite 0x0034 v = { s with bin := v ++ s.bin.extractLsb' 0 32 } ∧
      (s.busWrite 0x0034 v).busRead 0x0034 = v) ∧
    (s.busWrite 0x0040 v = { s with msgLen := v.extractLsb' 0 16 } ∧
      (s.busWrite 0x0040 v).busRead 0x0040 = (v.extractLsb' 0 16).setWidth 32) ∧
    (s.busWrite 0x0044 v = { s with origLen := v.extractLsb' 0 16 } ∧
      (s.busWrite 0x0044 v).busRead 0x0044 = (v.extractLsb' 0 16).setWidth 32) ∧
    (s.busWrite 0x0048 v = { s with blkCount := v.extractLsb' 0 16 } ∧
      (s.busWrite 0x0048 v).busRead 0x0048 = (v.extractLsb' 0 16).setWidth 32) ∧
    (∀ k < s.params.msgBytes, ∃ t, s.busWrite (0x4000 + 4 * k) v = t ∧ t = { s with mem := t.mem } ∧
      t.busRead (0x4000 + 4 * k) = (v.extractLsb' 0 8).setWidth 32 ∧
      ∀ a, a ≠ msgAddr k → Memory.read? t.mem a = Memory.read? s.mem a) ∧
    (∀ j < s.params.maxBlocks, ∀ h < 2, ∃ t, s.busWrite (0x8000 + 8 * j + 4 * h) v = t ∧ t = { s with mem := t.mem } ∧
      t.busRead (0x8000 + 8 * j + 4 * h) = v ∧
      ∀ a, ¬(blkAddr j + 4 * h ≤ a ∧ a < blkAddr j + 4 * h + 4) → Memory.read? t.mem a = Memory.read? s.mem a)

/-- R46: while idle a write to a read-only register or to SK changes nothing, not even OVERRUN. -/
def Obligations.ReadOnlyRegistersIgnoreWrites : Prop :=
  ∀ (s : State) (off : Nat) (v : Word), s.params.wf = true → s.busy = false →
    (off ∈ [0x0000, 0x0004, 0x0018, 0x0024, 0x0038, 0x003C, 0x004C, 0x0050] ∨
      ∃ i < s.params.rmax, off = 0x0800 + 4 * i) →
    s.busWrite off v = s

/-- R49: an aligned offset of no row of the address map reads 0x00000000 and ignores writes, which set OVERRUN while
BUSY = 1; neither access is an error. -/
def Obligations.UnmappedOffsetsReadZeroAndIgnoreWrites : Prop :=
  ∀ (s : State) (off : BitVec 16) (v : Word), s.params.wf = true → off.toNat % 4 = 0 →
    ((0x0054 ≤ off.toNat ∧ off.toNat ≤ 0x03FC) ∨
      (0x0400 + 4 * s.params.tmax ≤ off.toNat ∧ off.toNat < 0x0800) ∨
      (0x0800 + 4 * s.params.rmax ≤ off.toNat ∧ off.toNat ≤ 0x3FFC) ∨
      (0x4000 + 4 * s.params.msgBytes ≤ off.toNat ∧ off.toNat < 0x8000) ∨
      0x8000 + 8 * s.params.maxBlocks ≤ off.toNat) →
    s.busRead off.toNat = 0#32 ∧ (∃ t, s.hostMove (.read off 4) = .next t) ∧
    s.hostMove (.write off 4 v) = .next { s with overrun := s.overrun || s.busy }

/-- R48: every location of a legal build stands at its offset, which is an aligned 16-bit one, and no other aligned
offset is mapped. -/
def Obligations.AddressMapIsExact : Prop :=
  ∀ p : Params, p.wf = true →
    (∀ l : Loc, l.exists p = true → l.offset < 0x10000 ∧ l.offset % 4 = 0 ∧ locate p l.offset = l) ∧
    (∀ off : Nat, off % 4 = 0 → locate p off ≠ .unmapped →
      (locate p off).offset = off ∧ (locate p off).exists p = true)

/-- R28: what a read of STATUS shows. -/
def Obligations.StatusShowsTheFlags : Prop :=
  ∀ s : State,
    (s.busRead 0x000C).getLsbD 0 = s.busy ∧ (s.busRead 0x000C).getLsbD 1 = s.done ∧
    (s.busRead 0x000C).getLsbD 2 = s.keyed ∧ (s.busRead 0x000C).getLsbD 3 = s.errSticky ∧
    (s.busRead 0x000C).getLsbD 4 = s.overrun ∧ (s.busRead 0x000C).extractLsb' 5 3 = 0#3 ∧
    (s.busRead 0x000C).extractLsb' 12 20 = 0#20 ∧
    ((s.busRead 0x000C).extractLsb' 8 4).toNat =
      match s.err with
      | .ok => 0
      | .invalidBlockWidth => 1
      | .invalidSubkeyCount => 2
      | .unencodableInput => 3
      | .illegalCommand => 4
      | .notKeyed => 5
      | .invalidConfig => 6
      | .indexRange => 7
      | .lengthRange => 8

/-- R28, R52: a write to STATUS while idle clears ERR_STICKY and OVERRUN where bits 3 and 4 are 1, and nothing else. -/
def Obligations.StatusWriteClearsOnlyItsW1CBits : Prop :=
  ∀ (s : State) (v : Word), s.busy = false →
    s.busWrite 0x000C v =
      { s with
        errSticky := if v.getLsbD 3 then false else s.errSticky
        overrun := if v.getLsbD 4 then false else s.overrun }

/-- R25, R26: ID and PARAM read the constants of the build, and a write changes neither: while idle it changes nothing. -/
def Obligations.IdAndParamReadTheBuild : Prop :=
  ∀ s : State, s.params.wf = true →
    (s.params.width = .w8 → s.busRead 0x0000 = 0x46450108#32) ∧
    (s.params.width = .w64 → s.busRead 0x0000 = 0x46450140#32) ∧
    ((s.busRead 0x0004).extractLsb' 0 8).toNat = s.params.rmax ∧
    ((s.busRead 0x0004).extractLsb' 8 8).toNat = s.params.tmax ∧
    ((s.busRead 0x0004).extractLsb' 16 13).toNat = s.params.msgBytes ∧
    (s.busRead 0x0004).extractLsb' 29 3 = 0#3 ∧
    (s.params = Params.default8 ∨ s.params = Params.default64 → s.busRead 0x0004 = 0x01001010#32) ∧
    ∀ v : Word,
      (s.busWrite 0x0000 v).busRead 0x0000 = s.busRead 0x0000 ∧ (s.busWrite 0x0004 v).busRead 0x0004 = s.busRead 0x0004 ∧
      (s.busy = false → s.busWrite 0x0000 v = s ∧ s.busWrite 0x0004 v = s)

/-! ### Reset -/

/-- R156: what the host reads of a block of any legal build right after reset; MSG and BLK entries read free draws. -/
def Obligations.ResetStateHasTheStatedValues : Prop :=
  ∀ p : Params, p.wf = true →
    (State.resetOf p).busRead 0x0008 = 0#32 ∧ (State.resetOf p).busRead 0x000C = 0#32 ∧
    (State.resetOf p).busRead 0x0010 = 0#32 ∧ (State.resetOf p).busRead 0x0014 = 0x00200004#32 ∧
    (State.resetOf p).busRead 0x0018 = 0#32 ∧ ((State.resetOf p).busRead 0x001C).toNat = p.tableInit.length ∧
    (∀ off ∈ [0x0020, 0x0024, 0x0028, 0x002C, 0x0030, 0x0034, 0x0038, 0x003C, 0x0040, 0x0044, 0x0048, 0x004C, 0x0050],
      (State.resetOf p).busRead off = 0#32) ∧
    (∀ j < p.tmax, (State.resetOf p).busRead (0x0400 + 4 * j) = p.tableInit.getD j 0#32) ∧
    (∀ i < p.rmax, (State.resetOf p).busRead (0x0800 + 4 * i) = 0#32) ∧
    (∀ a, Memory.read? (State.resetOf p).mem a = none)

/-- R155, R157: a write to CTRL with bit 0 = 1 gives the reset state at once, whether BUSY is 0 or 1, and with bit 0 = 0
has no effect; the hardware reset gives the reset state too. That the hardware reset is one transition is the model's
choice (log 14), and so is the value 0 that PENDING has in the reset state (log 2). What is not the block's (schedule,
read log, count of draws) goes on (log 3, 5, 6). -/
def Obligations.BothResetsGiveTheResetState : Prop :=
  ∀ s : State,
    s.hostMove .hardReset =
      .next { State.resetOf s.params with draws := s.draws, inputs := s.inputs, readLog := s.readLog } ∧
    ∀ v : Word, s.hostMove (.write 0x0008#16 4 v) =
      .next (if v.getLsbD 0 then
          { State.resetOf s.params with draws := s.draws, inputs := s.inputs, readLog := s.readLog }
        else s)

/-! ### Completion and errors -/

/-- R82, R145: the two completions, field by field. -/
def Obligations.CompletionWritesExactly : Prop :=
  ∀ (s t : State) (code : ErrCode) (info : Nat),
    s.complete (.ok t) = .next { t with err := .ok, busy := false, done := true, draws := t.draws + 1 } ∧
    s.complete (.err code info) = .next { s with
      err := code, errSticky := true, errCmd := s.pending, errInfo := BitVec.ofNat 16 info
      busy := false, done := true, draws := s.draws + 1 } ∧
    t.succeed = { t with err := .ok, busy := false, done := true, draws := t.draws + 1 } ∧
    s.raiseError code info = { s with
      err := code, errSticky := true, errCmd := s.pending, errInfo := BitVec.ofNat 16 info
      busy := false, done := true, draws := s.draws + 1 }

/-- R83, R145: a command that fails writes nothing but the error record. (The model's own count `draws` is left open,
log 3.) -/
def Obligations.FailedCommandWritesOnlyTheErrorRecord : Prop :=
  ∀ (i : Instr) (s t : State), exec i s = .next t → t.err ≠ .ok →
    t = { s with
      err := t.err, errSticky := true, errCmd := s.pending, errInfo := t.errInfo
      busy := false, done := true, draws := t.draws }

/-- R39, R40, R146: a command that succeeds leaves ERR_STICKY, OVERRUN, ERR_CMD and ERR_INFO as they were. -/
def Obligations.SuccessKeepsTheErrorRecord : Prop :=
  ∀ (i : Instr) (s t : State), exec i s = .next t → t.err = .ok →
    t.errSticky = s.errSticky ∧ t.overrun = s.overrun ∧ t.errCmd = s.errCmd ∧ t.errInfo = s.errInfo ∧
    t.busy = false ∧ t.done = true ∧ t.lastCmd = s.lastCmd

/-- R146, R147: ERR_STICKY and OVERRUN stay 1 until the host writes 1 to their bit while BUSY = 0, or a reset. -/
def Obligations.StickyBitsStayUntilClearedOrReset : Prop :=
  ∀ s t : State, step s = .next t →
    (s.errSticky = true → t.errSticky = true ∨ (∃ rest, s.inputs = .host .hardReset :: rest) ∨
      (∃ v rest, s.inputs = .host (.write 0x0008#16 4 v) :: rest ∧ v.getLsbD 0 = true) ∨
      (∃ v rest, s.inputs = .host (.write 0x000C#16 4 v) :: rest ∧ v.getLsbD 3 = true ∧ s.busy = false)) ∧
    (s.overrun = true → t.overrun = true ∨ (∃ rest, s.inputs = .host .hardReset :: rest) ∨
      (∃ v rest, s.inputs = .host (.write 0x0008#16 4 v) :: rest ∧ v.getLsbD 0 = true) ∨
      (∃ v rest, s.inputs = .host (.write 0x000C#16 4 v) :: rest ∧ v.getLsbD 4 = true ∧ s.busy = false))

/-- R86: the eleven commands that need an instance raise NOT_KEYED without one; the other four never do. -/
def Obligations.CommandsThatNeedAnInstance : Prop :=
  ∀ s : State,
    (s.keyed = false → ∀ idx : BitVec 8, ∀ i ∈ [Instr.feval idx, .roundFwd idx, .roundInv idx, .encBlock, .decBlock,
      .pack, .unpack, .ecbEnc, .ecbDec, .encMsg, .decMsg], exec i s = .next (s.raiseError .notKeyed 0)) ∧
    (∀ i ∈ [Instr.nop, .init, .split, .join], ∃ t, exec i s = .next t ∧ t.err ≠ .notKeyed)

/-! ### What the engine reads and writes -/

/-- R20: the staging configuration and BIN are written by the host and by reset only; no engine step writes them. -/
def Obligations.EngineNeverWritesStagingOrBin : Prop :=
  ∀ s t : State, step s = .next t → (∀ m rest, s.inputs ≠ .host m :: rest) →
    t.cfg = s.cfg ∧ t.tableLen = s.tableLen ∧ t.tab = s.tab ∧ t.mkey = s.mkey ∧ t.bin = s.bin ∧ t.params = s.params

/-- R20, R31, R42: the cipher instance is written only by INIT and by reset. -/
def Obligations.OnlyInitAndResetChangeTheInstance : Prop :=
  ∀ s t : State, step s = .next t →
    (t.acfg = s.acfg ∧ t.sk = s.sk ∧ t.keyed = s.keyed) ∨
    (s.busy = true ∧ decode s.pending = .ok .init ∧ ∀ m rest, s.inputs ≠ .host m :: rest) ∨
    (∃ rest, s.inputs = .host .hardReset :: rest) ∨
    (∃ v rest, s.inputs = .host (.write 0x0008#16 4 v) :: rest ∧ v.getLsbD 0 = true)

/-- R106, R163: no command but INIT reads CFG, TABLE_LEN, TAB or MKEY. -/
def Obligations.StagingIsReadOnlyByInit : Prop :=
  ∀ (i : Instr) (s t : State) (c : Word) (l : BitVec 8) (tb : List Word) (k : Word), i ≠ .init →
    exec i s = .next t →
    exec i { s with cfg := c, tableLen := l, tab := tb, mkey := k } =
      .next { t with cfg := c, tableLen := l, tab := tb, mkey := k }

/-- R28: no command reads DONE, ERR_STICKY, OVERRUN or ERR. -/
def Obligations.FlagsAreReadByNoCommand : Prop :=
  ∀ (i : Instr) (s t : State) (d st ov : Bool) (e : ErrCode), exec i s = .next t →
    exec i { s with done := d, errSticky := st, overrun := ov, err := e } =
      .next { t with errSticky := st || !decide (t.err = .ok), overrun := ov }

/-! ### NOP and INIT -/

/-- R90: NOP writes nothing but ERR <- 0, DONE <- 1 and BUSY <- 0; a word with OP 0x00 and other bits set is
illegal. (The model's own count `draws` is left open, log 3.) -/
def Obligations.NopOnlyCompletes : Prop :=
  (∀ s : State, ∃ d, exec .nop s = .next { s with err := .ok, busy := false, done := true, draws := d }) ∧
  decode 0x00000000#32 = .ok .nop ∧
  ∀ w : Word, w ≠ 0#32 → w.extractLsb' 0 8 = 0#8 → ∃ e, decode w = .error e

/-- R107: INIT reports the first of its five checks that fails. -/
def Obligations.InitReportsTheFirstFailingCheck : Prop :=
  ∀ s : State,
    let r := (s.cfg.extractLsb' 0 8).toNat
    let fsel := (s.cfg.extractLsb' 8 2).toNat
    let ksel := (s.cfg.extractLsb' 10 2).toNat
    let pad := (s.cfg.extractLsb' 12 2).toNat
    let t := s.tableLen.toNat
    ((fsel = 3 ∨ ksel = 3 ∨ pad = 3) → exec .init s = .next (s.raiseError .invalidConfig 0x0014)) ∧
    (fsel ≠ 3 → ksel ≠ 3 → pad ≠ 3 →
      (s.params.rmax < r → exec .init s = .next (s.raiseError .invalidSubkeyCount r)) ∧
      (r ≤ s.params.rmax →
        (ksel = 0 → (t = 0 ∨ s.params.tmax < t) → exec .init s = .next (s.raiseError .invalidConfig 0x001C)) ∧
        (ksel = 2 → s.params.tmax < t → exec .init s = .next (s.raiseError .invalidConfig 0x001C)) ∧
        (ksel = 2 → t ≤ s.params.tmax → t ≠ r → exec .init s = .next (s.raiseError .invalidSubkeyCount t))))

/-- R102 to R105, R108: INIT that passes its checks latches CFG into ACFG, derives the subkeys by the selected policy,
clears SK beyond ROUNDS, sets KEYED, and changes nothing else. -/
def Obligations.InitLatchesTheInstance : Prop :=
  ∀ s : State, s.Inv →
    let r := (s.cfg.extractLsb' 0 8).toNat
    let ksel := (s.cfg.extractLsb' 10 2).toNat
    let t := s.tableLen.toNat
    (s.cfg.extractLsb' 8 2).toNat ≠ 3 → ksel ≠ 3 → (s.cfg.extractLsb' 12 2).toNat ≠ 3 → r ≤ s.params.rmax →
    (ksel = 0 → 1 ≤ t ∧ t ≤ s.params.tmax) → (ksel = 2 → t ≤ s.params.tmax ∧ t = r) →
    ∃ u, exec .init s = .next u ∧
      u = State.succeed { s with acfg := u.acfg, sk := u.sk, keyed := true } ∧
      u.acfg.toWord = s.cfg ∧ u.sk.length = s.params.rmax ∧
      (∀ i < r, ksel = 0 → u.sk[i]? = s.tab[i % t]?) ∧
      (∀ i < r, ksel = 1 → (u.subkey i).toNat =
        (s.mkey.toNat ^^^ (i * s.params.ksConst.toNat % 2 ^ s.params.width.half)) % 2 ^ s.params.width.half) ∧
      (∀ i < r, ksel = 2 → u.sk[i]? = s.tab[i]?) ∧
      (∀ i, r ≤ i → i < s.params.rmax → u.sk[i]? = some 0#32)

/-! ### The serializer -/

/-- R91: what pack produces: N = ceil(n / B) well-formed blocks, big-endian, with the padding where the policy puts it. -/
def Obligations.PackPlacesEveryByte : Prop :=
  ∀ (w : BlockWidth) (pad : PadPolicy) (fill : Byte) (m : List Byte),
    let count := w.blocksFor m.length
    let p := count * w.bytes - m.length
    (packMessage w pad fill m).length = count ∧ m.length ≤ count * w.bytes ∧ p < w.bytes ∧
    (∀ b ∈ packMessage w pad fill m, b.toNat < 2 ^ w.bits) ∧
    ∀ j < count, ∀ t < w.bytes,
      ((packMessage w pad fill m).getD j 0#64).extractLsb' (w.bits - 8 - 8 * t) 8 =
        (match pad with
          | .fillerTail => m ++ List.replicate p fill
          | .zeroLeftMessage => List.replicate p 0#8 ++ m
          | .zeroLeftFinal =>
            m.take ((count - 1) * w.bytes) ++ List.replicate p 0#8 ++ m.drop ((count - 1) * w.bytes)).getD
          (j * w.bytes + t) 0#8

/-- R95: unpack of pack is the message, under every policy and filler byte. -/
def Obligations.UnpackUndoesPack : Prop :=
  ∀ (w : BlockWidth) (pad : PadPolicy) (fill : Byte) (m : List Byte),
    unpackBlocks w pad m.length (packMessage w pad fill m) = m

/-- R99: PACK, its errors in order and its effect. -/
def Obligations.PackFollowsItsRule : Prop :=
  ∀ s : State, s.params.wf = true →
    let n := s.msgLen.toNat
    let count := s.params.width.blocksFor n
    (s.keyed = false → exec .pack s = .next (s.raiseError .notKeyed 0)) ∧
    (s.keyed = true →
      (s.params.msgBytes < n → exec .pack s = .next (s.raiseError .lengthRange 0x0040)) ∧
      (n ≤ s.params.msgBytes →
        (∀ k < n, s.acfg.charset = .ascii7 → 0x80 ≤ (s.msgByte k).toNat → (∀ j < k, (s.msgByte j).toNat < 0x80) →
          exec .pack s = .next (s.raiseError .unencodableInput k)) ∧
        ((s.acfg.charset = .ascii7 → ∀ k < n, (s.msgByte k).toNat < 0x80) →
          ∃ u, exec .pack s = .next u ∧
            u = State.succeed { s with mem := u.mem, blkCount := u.blkCount, origLen := s.msgLen } ∧
            u.blkCount.toNat = count ∧
            (∀ j < count, u.slot j =
              (packMessage s.params.width s.acfg.pad s.acfg.fill ((List.range n).map s.msgByte)).getD j 0#64) ∧
            (∀ a, (∀ j < count, ¬(blkAddr j ≤ a ∧ a < blkAddr j + 8)) →
              Memory.read? u.mem a = Memory.read? s.mem a))))

/-- R97, R98, R100: UNPACK, its errors in order and its effect. Byte k of the message is byte q of the blocks' bytes,
where q skips the padding as the policy placed it (R93). -/
def Obligations.UnpackFollowsItsRule : Prop :=
  ∀ s : State, s.params.wf = true →
    let w := s.params.width
    let n := s.origLen.toNat
    let count := s.blkCount.toNat
    (s.keyed = false → exec .unpack s = .next (s.raiseError .notKeyed 0)) ∧
    (s.keyed = true →
      (s.params.maxBlocks < count → exec .unpack s = .next (s.raiseError .lengthRange 0x0048)) ∧
      (count ≤ s.params.maxBlocks → s.params.msgBytes < n →
        exec .unpack s = .next (s.raiseError .lengthRange 0x0044)) ∧
      (count ≤ s.params.maxBlocks → n ≤ s.params.msgBytes → count ≠ w.blocksFor n →
        exec .unpack s = .next (s.raiseError .lengthRange 0x0044)) ∧
      (n ≤ s.params.msgBytes → count = w.blocksFor n →
        (∀ j < count, 2 ^ w.bits ≤ (s.slot j).toNat → (∀ i < j, (s.slot i).toNat < 2 ^ w.bits) →
          exec .unpack s = .next (s.raiseError .invalidBlockWidth j)) ∧
        ((∀ j < count, (s.slot j).toNat < 2 ^ w.bits) →
          ∃ u, exec .unpack s = .next u ∧
            u = State.succeed { s with mem := u.mem, msgLen := s.origLen } ∧
            (∀ k < n,
              let p := count * w.bytes - n
              let q := match s.acfg.pad with
                | .fillerTail => k
                | .zeroLeftMessage => p + k
                | .zeroLeftFinal => if k < (count - 1) * w.bytes then k else p + k
              u.msgByte k = (s.slot (q / w.bytes)).extractLsb' (w.bits - 8 - 8 * (q % w.bytes)) 8) ∧
            (∀ a, (∀ k < n, a ≠ msgAddr k) → Memory.read? u.mem a = Memory.read? s.mem a))))

/-! ### The round function and the rounds -/

/-- R111, R116: F is the selected bitwise operation, bit by bit, of H bits, and its values at the extreme operands; with
AND and an all-zero subkey the round is the swap. -/
def Obligations.RoundFunctionIsBitwise : Prop :=
  (∀ (a k : Word) (n : Nat),
    (roundF .xor a k).getLsbD n = (a.getLsbD n ^^ k.getLsbD n) ∧
    (roundF .and a k).getLsbD n = (a.getLsbD n && k.getLsbD n) ∧
    (roundF .or a k).getLsbD n = (a.getLsbD n || k.getLsbD n)) ∧
  (∀ (w : BlockWidth) (a k : Word), w.isHalf a = true → w.isHalf k = true →
    (roundF .xor a 0#32 = a ∧ roundF .xor a w.halfMask = w.halfMask ^^^ a ∧ roundF .xor 0#32 k = k ∧
      roundF .xor w.halfMask k = w.halfMask ^^^ k ∧ roundF .xor a a = 0#32) ∧
    (roundF .and a 0#32 = 0#32 ∧ roundF .and a w.halfMask = a ∧ roundF .and 0#32 k = 0#32 ∧
      roundF .and w.halfMask k = k ∧ roundF .and a a = a) ∧
    (roundF .or a 0#32 = a ∧ roundF .or a w.halfMask = w.halfMask ∧ roundF .or 0#32 k = k ∧
      roundF .or w.halfMask k = w.halfMask ∧ roundF .or a a = a) ∧
    w.halfMask.toNat = 2 ^ w.half - 1 ∧ (∀ sel, w.isHalf (roundF sel a k) = true) ∧
    fwdRound .and 0#32 (a, k) = (k, a))

/-- R117: FEVAL, its errors in order and its effect. -/
def Obligations.FevalFollowsItsRule : Prop :=
  ∀ (s : State) (idx : BitVec 8),
    (s.keyed = false → exec (.feval idx) s = .next (s.raiseError .notKeyed 0)) ∧
    (s.keyed = true → s.acfg.rounds.toNat ≤ idx.toNat →
      exec (.feval idx) s = .next (s.raiseError .indexRange idx.toNat)) ∧
    (s.keyed = true → idx.toNat < s.acfg.rounds.toNat →
      exec (.feval idx) s =
        .next (State.succeed { s with fout := roundF s.acfg.fsel s.halfR (s.subkey idx.toNat) }))

/-- R118, R126: SPLIT, keyed or not: a BIN with a 1 above bit P_W-1 is an error; else the high half goes to HALF_L and
the low half to HALF_R. -/
def Obligations.SplitFollowsItsRule : Prop :=
  ∀ s : State,
    (2 ^ s.params.width.bits ≤ s.bin.toNat → exec .split s = .next (s.raiseError .invalidBlockWidth 0)) ∧
    (s.bin.toNat < 2 ^ s.params.width.bits →
      ∃ u, exec .split s = .next u ∧ u = State.succeed { s with halfL := u.halfL, halfR := u.halfR } ∧
        u.halfL.toNat = s.bin.toNat / 2 ^ s.params.width.half ∧
        u.halfR.toNat = s.bin.toNat % 2 ^ s.params.width.half)

/-- R119, R127: JOIN, keyed or not: BOUT is HALF_L above HALF_R. -/
def Obligations.JoinFollowsItsRule : Prop :=
  ∀ s : State, s.Inv →
    ∃ u, exec .join s = .next u ∧ u = State.succeed { s with bout := u.bout } ∧
      u.bout.toNat = s.halfL.toNat * 2 ^ s.params.width.half + s.halfR.toNat

/-- R120, R121, R128, R129: ROUND_FWD and ROUND_INV, their errors in order and their effects. -/
def Obligations.RoundCommandsFollowTheirRules : Prop :=
  ∀ (s : State) (idx : BitVec 8),
    (s.keyed = false → exec (.roundFwd idx) s = .next (s.raiseError .notKeyed 0) ∧
      exec (.roundInv idx) s = .next (s.raiseError .notKeyed 0)) ∧
    (s.keyed = true → s.acfg.rounds.toNat ≤ idx.toNat →
      exec (.roundFwd idx) s = .next (s.raiseError .indexRange idx.toNat) ∧
      exec (.roundInv idx) s = .next (s.raiseError .indexRange idx.toNat)) ∧
    (s.keyed = true → idx.toNat < s.acfg.rounds.toNat →
      exec (.roundFwd idx) s = .next (State.succeed { s with
        halfL := s.halfR, halfR := s.halfL ^^^ roundF s.acfg.fsel s.halfR (s.subkey idx.toNat) }) ∧
      exec (.roundInv idx) s = .next (State.succeed { s with
        halfL := s.halfR ^^^ roundF s.acfg.fsel s.halfL (s.subkey idx.toNat), halfR := s.halfL }))

/-- R122: each round undoes the other, whatever F is. -/
def Obligations.RoundsUndoEachOther : Prop :=
  ∀ (sel : RoundFn) (k : Word) (lr : Word × Word),
    invRound sel k (fwdRound sel k lr) = lr ∧ fwdRound sel k (invRound sel k lr) = lr

/-- R119: split and join undo each other, on well-formed blocks and H-bit halves. -/
def Obligations.SplitAndJoinUndoEachOther : Prop :=
  ∀ w : BlockWidth,
    (∀ b : Block, b.toNat < 2 ^ w.bits → joinBlock w (splitBlock w b).1 (splitBlock w b).2 = b) ∧
    (∀ l r : Word, l.toNat < 2 ^ w.half → r.toNat < 2 ^ w.half →
      splitBlock w (joinBlock w l r) = (l, r) ∧
      (joinBlock w l r).toNat = l.toNat * 2 ^ w.half + r.toNat)

/-- R125: decrypt and encrypt undo each other, for every width, round function and H-bit subkeys, on every well-formed
block. -/
def Obligations.DecryptUndoesEncrypt : Prop :=
  ∀ (w : BlockWidth) (sel : RoundFn) (keys : List Word) (b : Block),
    (∀ k ∈ keys, k.toNat < 2 ^ w.half) → b.toNat < 2 ^ w.bits →
    (encryptBlock w sel keys b).toNat < 2 ^ w.bits ∧ (decryptBlock w sel keys b).toNat < 2 ^ w.bits ∧
    decryptBlock w sel keys (encryptBlock w sel keys b) = b ∧
    encryptBlock w sel keys (decryptBlock w sel keys b) = b

/-- R123, R130: ENC_BLOCK, its errors in order and its effect: the halves of BIN go through forward rounds
0 .. ROUNDS-1, and the final halves are joined as they stand. -/
def Obligations.EncBlockIteratesTheForwardRounds : Prop :=
  ∀ s : State, s.Inv →
    (s.keyed = false → exec .encBlock s = .next (s.raiseError .notKeyed 0)) ∧
    (s.keyed = true → 2 ^ s.params.width.bits ≤ s.bin.toNat →
      exec .encBlock s = .next (s.raiseError .invalidBlockWidth 0)) ∧
    (s.keyed = true → s.bin.toNat < 2 ^ s.params.width.bits →
      ∃ u, exec .encBlock s = .next u ∧
        u = State.succeed { s with halfL := u.halfL, halfR := u.halfR, bout := u.bout } ∧
        u.bout.toNat = u.halfL.toNat * 2 ^ s.params.width.half + u.halfR.toNat ∧
        ∃ x : Nat → Word × Word,
          (x 0).1.toNat = s.bin.toNat / 2 ^ s.params.width.half ∧
          (x 0).2.toNat = s.bin.toNat % 2 ^ s.params.width.half ∧
          (∀ i < s.acfg.rounds.toNat,
            x (i + 1) = ((x i).2, (x i).1 ^^^ roundF s.acfg.fsel (x i).2 (s.subkey i))) ∧
          x s.acfg.rounds.toNat = (u.halfL, u.halfR))

/-- R124, R131: DEC_BLOCK, its errors in order and its effect: inverse rounds ROUNDS-1 .. 0. In the trace `x`,
`x i` is the pair of halves before forward round i. -/
def Obligations.DecBlockIteratesTheInverseRounds : Prop :=
  ∀ s : State, s.Inv →
    (s.keyed = false → exec .decBlock s = .next (s.raiseError .notKeyed 0)) ∧
    (s.keyed = true → 2 ^ s.params.width.bits ≤ s.bin.toNat →
      exec .decBlock s = .next (s.raiseError .invalidBlockWidth 0)) ∧
    (s.keyed = true → s.bin.toNat < 2 ^ s.params.width.bits →
      ∃ u, exec .decBlock s = .next u ∧
        u = State.succeed { s with halfL := u.halfL, halfR := u.halfR, bout := u.bout } ∧
        u.bout.toNat = u.halfL.toNat * 2 ^ s.params.width.half + u.halfR.toNat ∧
        ∃ x : Nat → Word × Word,
          (x s.acfg.rounds.toNat).1.toNat = s.bin.toNat / 2 ^ s.params.width.half ∧
          (x s.acfg.rounds.toNat).2.toNat = s.bin.toNat % 2 ^ s.params.width.half ∧
          (∀ i < s.acfg.rounds.toNat,
            x i = ((x (i + 1)).2 ^^^ roundF s.acfg.fsel (x (i + 1)).1 (s.subkey i), (x (i + 1)).1)) ∧
          x 0 = (u.halfL, u.halfR))

/-- R130, R131: enc(b) and dec(b) are what ENC_BLOCK and DEC_BLOCK leave in BOUT when BIN holds b. -/
def Obligations.BlockMapsAreTheBlockCommands : Prop :=
  ∀ (s : State) (b : Block), s.keyed = true → b.toNat < 2 ^ s.params.width.bits →
    (∃ u, exec .encBlock { s with bin := b } = .next u ∧ u.bout = s.enc b) ∧
    (∃ u, exec .decBlock { s with bin := b } = .next u ∧ u.bout = s.dec b)

/-- R132: ENC_BLOCK succeeds and leaves exactly what SPLIT, ROUND_FWD 0 .. ROUND_FWD r-1, JOIN leaves, and DEC_BLOCK
succeeds and leaves what SPLIT, ROUND_INV r-1 .. ROUND_INV 0, JOIN leaves; only the count of draws differs, which is the
model's own. -/
def Obligations.BlockCommandsAreTheirRoundSequences : Prop :=
  ∀ s : State, s.Inv → s.keyed = true → s.bin.toNat < 2 ^ s.params.width.bits →
    (∃ t u, exec .encBlock s = .next t ∧ t.err = .ok ∧
      execSeq (.split :: (List.range s.acfg.rounds.toNat).map (fun i => Instr.roundFwd (BitVec.ofNat 8 i)) ++ [.join]) s
        = .next u ∧ u = { t with draws := u.draws }) ∧
    (∃ t u, exec .decBlock s = .next t ∧ t.err = .ok ∧
      execSeq (.split :: (List.range s.acfg.rounds.toNat).reverse.map (fun i => Instr.roundInv (BitVec.ofNat 8 i)) ++
        [.join]) s = .next u ∧ u = { t with draws := u.draws })

/-! ### The ECB sequencer -/

/-- R135, R136: ECB_ENC and ECB_DEC, their errors in order and their effects, slot by slot in place. -/
def Obligations.EcbCommandsFollowTheirRules : Prop :=
  ∀ s : State, s.params.wf = true →
    let w := s.params.width
    let count := s.blkCount.toNat
    (s.keyed = false → exec .ecbEnc s = .next (s.raiseError .notKeyed 0) ∧
      exec .ecbDec s = .next (s.raiseError .notKeyed 0)) ∧
    (s.keyed = true →
      (s.params.maxBlocks < count → exec .ecbEnc s = .next (s.raiseError .lengthRange 0x0048) ∧
        exec .ecbDec s = .next (s.raiseError .lengthRange 0x0048)) ∧
      (count ≤ s.params.maxBlocks →
        (∀ j < count, 2 ^ w.bits ≤ (s.slot j).toNat → (∀ i < j, (s.slot i).toNat < 2 ^ w.bits) →
          exec .ecbEnc s = .next (s.raiseError .invalidBlockWidth j) ∧
          exec .ecbDec s = .next (s.raiseError .invalidBlockWidth j)) ∧
        ((∀ j < count, (s.slot j).toNat < 2 ^ w.bits) →
          (∃ u, exec .ecbEnc s = .next u ∧ u = State.succeed { s with mem := u.mem } ∧
            (∀ j < count, u.slot j = s.enc (s.slot j)) ∧
            (∀ a, (∀ j < count, ¬(blkAddr j ≤ a ∧ a < blkAddr j + 8)) →
              Memory.read? u.mem a = Memory.read? s.mem a)) ∧
          (∃ u, exec .ecbDec s = .next u ∧ u = State.succeed { s with mem := u.mem } ∧
            (∀ j < count, u.slot j = s.dec (s.slot j)) ∧
            (∀ a, (∀ j < count, ¬(blkAddr j ≤ a ∧ a < blkAddr j + 8)) →
              Memory.read? u.mem a = Memory.read? s.mem a)))))

/-- R137: ENC_MSG, its errors in order and its effect. -/
def Obligations.EncMsgFollowsItsRule : Prop :=
  ∀ s : State, s.params.wf = true →
    let n := s.msgLen.toNat
    let count := s.params.width.blocksFor n
    (s.keyed = false → exec .encMsg s = .next (s.raiseError .notKeyed 0)) ∧
    (s.keyed = true →
      (s.params.msgBytes < n → exec .encMsg s = .next (s.raiseError .lengthRange 0x0040)) ∧
      (n ≤ s.params.msgBytes →
        (∀ k < n, s.acfg.charset = .ascii7 → 0x80 ≤ (s.msgByte k).toNat → (∀ j < k, (s.msgByte j).toNat < 0x80) →
          exec .encMsg s = .next (s.raiseError .unencodableInput k)) ∧
        ((s.acfg.charset = .ascii7 → ∀ k < n, (s.msgByte k).toNat < 0x80) →
          ∃ u, exec .encMsg s = .next u ∧
            u = State.succeed { s with mem := u.mem, blkCount := u.blkCount, origLen := s.msgLen } ∧
            u.blkCount.toNat = count ∧
            (∀ j < count, u.slot j = s.enc
              ((packMessage s.params.width s.acfg.pad s.acfg.fill ((List.range n).map s.msgByte)).getD j 0#64)) ∧
            (∀ a, (∀ j < count, ¬(blkAddr j ≤ a ∧ a < blkAddr j + 8)) →
              Memory.read? u.mem a = Memory.read? s.mem a))))

/-- R97, R98, R138: DEC_MSG, its errors in order and its effect; byte k of the message is byte q of the decrypted
blocks' bytes, as in UNPACK. -/
def Obligations.DecMsgFollowsItsRule : Prop :=
  ∀ s : State, s.params.wf = true →
    let w := s.params.width
    let n := s.origLen.toNat
    let count := s.blkCount.toNat
    (s.keyed = false → exec .decMsg s = .next (s.raiseError .notKeyed 0)) ∧
    (s.keyed = true →
      (s.params.maxBlocks < count → exec .decMsg s = .next (s.raiseError .lengthRange 0x0048)) ∧
      (count ≤ s.params.maxBlocks → s.params.msgBytes < n →
        exec .decMsg s = .next (s.raiseError .lengthRange 0x0044)) ∧
      (count ≤ s.params.maxBlocks → n ≤ s.params.msgBytes → count ≠ w.blocksFor n →
        exec .decMsg s = .next (s.raiseError .lengthRange 0x0044)) ∧
      (n ≤ s.params.msgBytes → count = w.blocksFor n →
        (∀ j < count, 2 ^ w.bits ≤ (s.slot j).toNat → (∀ i < j, (s.slot i).toNat < 2 ^ w.bits) →
          exec .decMsg s = .next (s.raiseError .invalidBlockWidth j)) ∧
        ((∀ j < count, (s.slot j).toNat < 2 ^ w.bits) →
          ∃ u, exec .decMsg s = .next u ∧
            u = State.succeed { s with mem := u.mem, msgLen := s.origLen } ∧
            (∀ j < count, u.slot j = s.dec (s.slot j)) ∧
            (∀ k < n,
              let p := count * w.bytes - n
              let q := match s.acfg.pad with
                | .fillerTail => k
                | .zeroLeftMessage => p + k
                | .zeroLeftFinal => if k < (count - 1) * w.bytes then k else p + k
              u.msgByte k = (s.dec (s.slot (q / w.bytes))).extractLsb' (w.bits - 8 - 8 * (q % w.bytes)) 8) ∧
            (∀ a, (∀ j < count, ¬(blkAddr j ≤ a ∧ a < blkAddr j + 8)) → (∀ k < n, a ≠ msgAddr k) →
              Memory.read? u.mem a = Memory.read? s.mem a))))

/-- R139, the success case: ENC_MSG leaves what PACK then ECB_ENC leaves, and DEC_MSG what ECB_DEC then UNPACK leaves;
only the count of draws differs, which is the model's own. -/
def Obligations.MessageCommandsAreTheirPairs : Prop :=
  ∀ s : State, s.Inv →
    (∀ t, exec .encMsg s = .next t → t.err = .ok →
      ∃ u, execSeq [.pack, .ecbEnc] s = .next u ∧ u = { t with draws := u.draws }) ∧
    (∀ t, exec .decMsg s = .next t → t.err = .ok →
      ∃ u, execSeq [.ecbDec, .unpack] s = .next u ∧ u = { t with draws := u.draws })

/-- R140: under one instance, ENC_MSG of a message that fits and passes the character-set check, followed directly by
DEC_MSG, restores the message and its length. -/
def Obligations.EncMsgThenDecMsgRestoresTheMessage : Prop :=
  ∀ s : State, s.Inv → s.keyed = true → s.msgLen.toNat ≤ s.params.msgBytes →
    (s.acfg.charset = .ascii7 → ∀ k < s.msgLen.toNat, (s.msgByte k).toNat < 0x80) →
    ∃ t u, exec .encMsg s = .next t ∧ t.err = .ok ∧ exec .decMsg t = .next u ∧ u.err = .ok ∧
      u.msgLen = s.msgLen ∧
      ∀ k < s.msgLen.toNat, Memory.read? u.mem (msgAddr k) = some (s.msgByte k)

/-- R141: under one instance equal blocks give equal blocks and distinct blocks distinct ones, as single values and
between the slots that one ECB_ENC rewrites. -/
def Obligations.EqualBlocksExactlyEqualCiphertexts : Prop :=
  ∀ s : State, s.Inv →
    (∀ b c : Block, b.toNat < 2 ^ s.params.width.bits → c.toNat < 2 ^ s.params.width.bits →
      (s.enc b = s.enc c ↔ b = c)) ∧
    (∀ t, exec .ecbEnc s = .next t → t.err = .ok → ∀ i < s.blkCount.toNat, ∀ j < s.blkCount.toNat,
      (t.slot i = t.slot j ↔ s.slot i = s.slot j))

/-! ### The invariant -/

/-- The reset state of every legal build meets the invariant. -/
def Obligations.ResetMeetsTheInvariant : Prop :=
  ∀ p : Params, p.wf = true → (State.resetOf p).Inv

/-- Every step, of the engine, the host or the reset, from any state that meets the invariant leads to one that meets
it: BUSY and DONE are never both 1, RAZ/WI bits stay 0, H-bit registers hold H bits, BOUT is well-formed, the arrays
keep their lengths, SK is 0 beyond ROUNDS, there is no instance while KEYED = 0, and the buffers keep their canonical
form within the bytes that exist. -/
def Obligations.EveryStepKeepsTheInvariant : Prop :=
  ∀ s t : State, s.Inv → step s = .next t → t.Inv

/-! ### Reads -/

/-- R27, R29 to R44, R46, R51, R54: what a read of each offset returns, whatever BUSY is;
`StatusShowsTheFlags`, `IdAndParamReadTheBuild` and `UnmappedOffsetsReadZeroAndIgnoreWrites` say it of the offsets left. A byte of MSG or BLK
that nothing has written since reset is a free draw (log 3), and the place of a BLK byte in memory is the model's
(log 4). -/
def Obligations.ReadsReturnWhatTheLocationsHold : Prop :=
  ∀ s : State, s.Inv →
    (s.busRead 0x0008 = 0#32 ∧ s.busRead 0x0010 = s.lastCmd ∧ s.busRead 0x0014 = s.cfg) ∧
    ((s.busRead 0x0018).extractLsb' 0 8 = s.acfg.rounds ∧
      ((s.busRead 0x0018).extractLsb' 8 2).toNat = (match s.acfg.fsel with | .xor => 0 | .and => 1 | .or => 2) ∧
      ((s.busRead 0x0018).extractLsb' 10 2).toNat = (match s.acfg.ksel with | .table => 0 | .arith => 1 | .direct => 2) ∧
      ((s.busRead 0x0018).extractLsb' 12 2).toNat =
        (match s.acfg.pad with | .fillerTail => 0 | .zeroLeftMessage => 1 | .zeroLeftFinal => 2) ∧
      ((s.busRead 0x0018).extractLsb' 14 1).toNat = (match s.acfg.charset with | .bytes => 0 | .ascii7 => 1) ∧
      (s.busRead 0x0018).getLsbD 15 = false ∧ (s.busRead 0x0018).extractLsb' 16 8 = s.acfg.fill ∧
      (s.busRead 0x0018).extractLsb' 24 8 = 0#8) ∧
    ((s.busRead 0x001C).toNat = s.tableLen.toNat ∧ s.busRead 0x0020 = s.mkey ∧ s.busRead 0x0024 = s.fout ∧
      s.busRead 0x0028 = s.halfL ∧ s.busRead 0x002C = s.halfR) ∧
    (∀ off ∈ [0x0020, 0x0024, 0x0028, 0x002C], (s.busRead off).toNat < 2 ^ s.params.width.half) ∧
    (s.busRead 0x0034 ++ s.busRead 0x0030 = s.bin ∧ s.busRead 0x003C ++ s.busRead 0x0038 = s.bout) ∧
    ((s.busRead 0x0040).toNat = s.msgLen.toNat ∧ (s.busRead 0x0044).toNat = s.origLen.toNat ∧
      (s.busRead 0x0048).toNat = s.blkCount.toNat) ∧
    (s.busRead 0x004C = s.errCmd ∧ (s.busRead 0x0050).toNat = s.errInfo.toNat) ∧
    (∀ j < s.params.tmax, s.tab[j]? = some (s.busRead (0x0400 + 4 * j)) ∧
      (s.busRead (0x0400 + 4 * j)).toNat < 2 ^ s.params.width.half) ∧
    (∀ i < s.params.rmax, s.sk[i]? = some (s.busRead (0x0800 + 4 * i)) ∧
      (s.busRead (0x0800 + 4 * i)).toNat < 2 ^ s.params.width.half) ∧
    (∀ k < s.params.msgBytes, (s.busRead (0x4000 + 4 * k)).extractLsb' 8 24 = 0#24 ∧
      ∀ b, Memory.read? s.mem (msgAddr k) = some b → (s.busRead (0x4000 + 4 * k)).extractLsb' 0 8 = b) ∧
    (∀ j < s.params.maxBlocks, s.busRead (0x8004 + 8 * j) ++ s.busRead (0x8000 + 8 * j) = s.slot j ∧
      ∀ t < 8, ∀ b, Memory.read? s.mem (blkAddr j + t) = some b → (s.slot j).extractLsb' (8 * t) 8 = b)
end

