-- ==== Sys2Proof/Laws/Blocks.lean ====
section
/-! SUPPORT. H-bit values and blocks as numbers, and what keeps a value H bits wide. -/

namespace Sys2Proof.Machine

theorem isHalf_iff (w : BlockWidth) (v : Word) : w.isHalf v = true ↔ v.toNat < 2 ^ w.half := by
  cases w
  · simp only [BlockWidth.isHalf, BlockWidth.halfMask, BlockWidth.half, beq_iff_eq]
    rw [show (0x0000000F#32 : Word) = BitVec.ofNat 32 (2 ^ 4 - 1) by rfl, ← BitVec.toNat_inj, BitVec.toNat_and]
    simp only [BitVec.toNat_ofNat, Nat.reducePow, Nat.reduceSub, Nat.reduceMod]
    rw [show (15 : Nat) = 2 ^ 4 - 1 by rfl, Nat.and_two_pow_sub_one_eq_mod]
    omega
  · have h := v.isLt
    simp only [BlockWidth.isHalf, BlockWidth.halfMask, BlockWidth.half, beq_iff_eq]
    rw [show (0xFFFFFFFF#32 : Word) = BitVec.allOnes 32 by rfl, BitVec.and_allOnes]
    simpa using h

theorem truncH_toNat (w : BlockWidth) (v : Word) : (truncH w v).toNat = v.toNat % 2 ^ w.half := by
  have h := v.isLt
  cases w
  · simp only [truncH, BlockWidth.halfMask, BlockWidth.half, BitVec.toNat_and]
    rw [show (0x0000000F#32 : Word).toNat = 2 ^ 4 - 1 by rfl, Nat.and_two_pow_sub_one_eq_mod]
  · simp only [truncH, BlockWidth.halfMask, BlockWidth.half]
    rw [show (0xFFFFFFFF#32 : Word) = BitVec.allOnes 32 by rfl, BitVec.and_allOnes]
    omega

@[simp] theorem truncH_isHalf (w : BlockWidth) (v : Word) : w.isHalf (truncH w v) = true := by
  rw [isHalf_iff, truncH_toNat]
  exact Nat.mod_lt _ (Nat.two_pow_pos _)

theorem wellFormedBlock_iff (w : BlockWidth) (b : Block) :
    wellFormedBlock w b = true ↔ b.toNat < 2 ^ w.bits := by
  have h := b.isLt
  simp only [wellFormedBlock, beq_iff_eq, ← BitVec.toNat_inj, BitVec.toNat_ushiftRight, BitVec.toNat_ofNat,
    Nat.zero_mod, Nat.shiftRight_eq_div_pow, Nat.div_eq_zero_iff]
  cases w <;> simp [BlockWidth.bits]

theorem isHalf_zero (w : BlockWidth) : w.isHalf 0#32 = true := by cases w <;> rfl

theorem isHalf_xor {w : BlockWidth} {a b : Word} (ha : w.isHalf a = true) (hb : w.isHalf b = true) :
    w.isHalf (a ^^^ b) = true := by
  rw [isHalf_iff] at *
  rw [BitVec.toNat_xor]
  exact Nat.xor_lt_two_pow ha hb

theorem isHalf_and {w : BlockWidth} {a b : Word} (ha : w.isHalf a = true) : w.isHalf (a &&& b) = true := by
  rw [isHalf_iff] at *
  rw [BitVec.toNat_and]
  exact Nat.lt_of_le_of_lt Nat.and_le_left ha

theorem isHalf_or {w : BlockWidth} {a b : Word} (ha : w.isHalf a = true) (hb : w.isHalf b = true) :
    w.isHalf (a ||| b) = true := by
  rw [isHalf_iff] at *
  rw [BitVec.toNat_or]
  exact Nat.or_lt_two_pow ha hb

/-- F of H-bit values is an H-bit value (spec/43_round_function.md R112). -/
theorem roundF_isHalf {w : BlockWidth} {a k : Word} (sel : RoundFn) (ha : w.isHalf a = true)
    (hk : w.isHalf k = true) : w.isHalf (roundF sel a k) = true := by
  cases sel
  · exact isHalf_xor ha hk
  · exact isHalf_and ha
  · exact isHalf_or ha hk

/-- The two halves of a block are H-bit values. -/
theorem splitBlock_isHalf (w : BlockWidth) (b : Block) :
    w.isHalf (splitBlock w b).1 = true ∧ w.isHalf (splitBlock w b).2 = true := by
  simp [splitBlock]

/-- A pair of halves, both H bits wide. -/
abbrev HalfPair (w : BlockWidth) (lr : Word × Word) : Prop := w.isHalf lr.1 = true ∧ w.isHalf lr.2 = true

theorem fwdRound_isHalf {w : BlockWidth} {k : Word} {lr : Word × Word} (sel : RoundFn) (hk : w.isHalf k = true)
    (h : HalfPair w lr) : HalfPair w (fwdRound sel k lr) :=
  ⟨h.2, isHalf_xor h.1 (roundF_isHalf sel h.2 hk)⟩

theorem invRound_isHalf {w : BlockWidth} {k : Word} {lr : Word × Word} (sel : RoundFn) (hk : w.isHalf k = true)
    (h : HalfPair w lr) : HalfPair w (invRound sel k lr) :=
  ⟨isHalf_xor h.2 (roundF_isHalf sel h.1 hk), h.1⟩

@[simp] theorem fwdRounds_nil (sel : RoundFn) (lr : Word × Word) : fwdRounds sel [] lr = lr := rfl

@[simp] theorem fwdRounds_cons (sel : RoundFn) (k : Word) (ks : List Word) (lr : Word × Word) :
    fwdRounds sel (k :: ks) lr = fwdRounds sel ks (fwdRound sel k lr) := rfl

@[simp] theorem invRounds_nil (sel : RoundFn) (lr : Word × Word) : invRounds sel [] lr = lr := rfl

/-- The inverse rounds undo the first subkey last. -/
@[simp] theorem invRounds_cons (sel : RoundFn) (k : Word) (ks : List Word) (lr : Word × Word) :
    invRounds sel (k :: ks) lr = invRound sel k (invRounds sel ks lr) := by
  simp [invRounds, List.foldl_append]

theorem fwdRounds_isHalf {w : BlockWidth} (sel : RoundFn) (ks : List Word) {lr : Word × Word}
    (hk : ∀ k ∈ ks, w.isHalf k = true) (h : HalfPair w lr) : HalfPair w (fwdRounds sel ks lr) := by
  induction ks generalizing lr with
  | nil => exact h
  | cons k ks ih => exact ih (fun x hx => hk x (by simp [hx])) (fwdRound_isHalf sel (hk k (by simp)) h)

theorem invRounds_isHalf {w : BlockWidth} (sel : RoundFn) (ks : List Word) {lr : Word × Word}
    (hk : ∀ k ∈ ks, w.isHalf k = true) (h : HalfPair w lr) : HalfPair w (invRounds sel ks lr) := by
  induction ks with
  | nil => exact h
  | cons k ks ih =>
    rw [invRounds_cons]
    exact invRound_isHalf sel (hk k (by simp)) (ih fun x hx => hk x (by simp [hx]))

/-- join of two H-bit halves, as a number (spec/00_scope.md R14). -/
theorem joinBlock_toNat {w : BlockWidth} {l r : Word} (hl : w.isHalf l = true) (hr : w.isHalf r = true) :
    (joinBlock w l r).toNat = l.toNat * 2 ^ w.half + r.toNat := by
  rw [isHalf_iff] at hl hr
  have hl2 := l.isLt
  have hr2 := r.isLt
  simp only [joinBlock, BitVec.toNat_or, BitVec.toNat_shiftLeft, BitVec.toNat_setWidth]
  rw [Nat.mod_eq_of_lt (show l.toNat < 2 ^ 64 by omega), Nat.mod_eq_of_lt (show r.toNat < 2 ^ 64 by omega),
    Nat.shiftLeft_eq, Nat.mod_eq_of_lt]
  · rw [Nat.mul_comm, ← Nat.two_pow_add_eq_or_of_lt hr]
  · cases w <;> simp only [BlockWidth.half] at * <;> omega

/-- join of two H-bit halves is a well-formed block (spec/44_block_cipher.md R119). -/
theorem joinBlock_wellFormed {w : BlockWidth} {l r : Word} (hl : w.isHalf l = true) (hr : w.isHalf r = true) :
    wellFormedBlock w (joinBlock w l r) = true := by
  rw [wellFormedBlock_iff, joinBlock_toNat hl hr]
  rw [isHalf_iff] at hl hr
  cases w <;> simp only [BlockWidth.half, BlockWidth.bits] at * <;> omega

end Sys2Proof.Machine
end

