-- ==== Sys2Proof/Laws/Bus.lean ====
section
/-! SUPPORT. What the address map and a bus write can answer, said once. -/

namespace Sys2Proof.Machine

/-! ### The limits of a legal build -/

theorem Params.wf_iff (p : Params) :
    p.wf = true ↔
      (1 ≤ p.rmax ∧ p.rmax ≤ 255) ∧ (1 ≤ p.tmax ∧ p.tmax ≤ 255) ∧ (1 ≤ p.msgBytes ∧ p.msgBytes ≤ 4096) ∧
        p.ksConst.getLsbD 0 = true ∧ p.tableInit.length ≤ p.tmax ∧ p.tableInit.all p.width.isHalf = true := by
  simp [Params.wf, and_assoc]

/-- A message takes at most one block a byte. -/
theorem BlockWidth.blocksFor_le (w : BlockWidth) (n : Nat) : w.blocksFor n ≤ n := by
  cases w
  · simp [BlockWidth.blocksFor, BlockWidth.bytes]
  · simp only [BlockWidth.blocksFor, BlockWidth.bytes]
    omega

/-- A message that fits its buffer takes no more blocks than there are slots. -/
theorem Params.blocksFor_le_maxBlocks {p : Params} {n : Nat} (h : n ≤ p.msgBytes) :
    p.width.blocksFor n ≤ p.maxBlocks := by
  simp only [Params.maxBlocks, BlockWidth.blocksFor]
  exact Nat.div_le_div_right (by omega)

/-! ### The address map -/

/-- No register stands at 0x0054 or above. -/
theorem registerMap_lookup_none {off : Nat} (h : 0x54 ≤ off) : registerMap.lookup off = none := by
  rw [List.lookup_eq_none_iff]
  intro p hp
  simp only [registerMap, List.mem_cons, List.not_mem_nil, or_false] at hp
  rcases hp with rfl | rfl | rfl | rfl | rfl | rfl | rfl | rfl | rfl | rfl | rfl | rfl | rfl | rfl | rfl | rfl | rfl |
    rfl | rfl | rfl | rfl <;> (simp; omega)

theorem locate_of_array (p : Params) {off : Nat} (h : 0x54 ≤ off) : locate p off = locateArray p off := by
  simp [locate, registerMap_lookup_none h]

theorem locate_tab {p : Params} {j : Nat} (h : j < p.tmax) : locate p (0x0400 + 4 * j) = .tab j := by
  rw [locate_of_array _ (by omega), locateArray, if_pos (by omega)]
  congr 1
  omega

theorem locate_sk {p : Params} (hp : p.wf = true) {i : Nat} (h : i < p.rmax) : locate p (0x0800 + 4 * i) = .sk i := by
  rw [Params.wf_iff] at hp
  rw [locate_of_array _ (by omega), locateArray, if_neg (by omega), if_pos (by omega)]
  congr 1
  omega

theorem locate_msg {p : Params} (hp : p.wf = true) {k : Nat} (h : k < p.msgBytes) :
    locate p (0x4000 + 4 * k) = .msg k := by
  rw [Params.wf_iff] at hp
  rw [locate_of_array _ (by omega), locateArray, if_neg (by omega), if_neg (by omega), if_pos (by omega)]
  congr 1
  omega

theorem locate_blkLo {p : Params} (hp : p.wf = true) {j : Nat} (h : j < p.maxBlocks) :
    locate p (0x8000 + 8 * j) = .blkLo j := by
  rw [Params.wf_iff] at hp
  rw [locate_of_array _ (by omega), locateArray, if_neg (by omega), if_neg (by omega), if_neg (by omega),
    if_pos (by omega), if_pos (by omega)]
  congr 1
  omega

theorem locate_blkHi {p : Params} (hp : p.wf = true) {j : Nat} (h : j < p.maxBlocks) :
    locate p (0x8004 + 8 * j) = .blkHi j := by
  rw [Params.wf_iff] at hp
  rw [locate_of_array _ (by omega), locateArray, if_neg (by omega), if_neg (by omega), if_neg (by omega),
    if_pos (by omega), if_neg (by omega)]
  congr 1
  omega

/-- An array offset is located inside the array that exists. -/
theorem locateArray_bounds (p : Params) (off j : Nat) :
    (locateArray p off = .tab j → j < p.tmax) ∧ (locateArray p off = .sk j → j < p.rmax) ∧
    (locateArray p off = .msg j → j < p.msgBytes) ∧ (locateArray p off = .blkLo j → j < p.maxBlocks) ∧
    (locateArray p off = .blkHi j → j < p.maxBlocks) := by
  unfold locateArray
  repeat' split
  all_goals
    refine ⟨?_, ?_, ?_, ?_, ?_⟩ <;> intro h <;>
      first
        | exact Loc.noConfusion h
        | (simp only [Loc.tab.injEq, Loc.sk.injEq, Loc.msg.injEq, Loc.blkLo.injEq, Loc.blkHi.injEq] at h; omega)

/-- The register rows name no array entry. -/
theorem registerMap_no_array {off : Nat} {l : Loc} (h : registerMap.lookup off = some l) (j : Nat) :
    l ≠ .tab j ∧ l ≠ .sk j ∧ l ≠ .msg j ∧ l ≠ .blkLo j ∧ l ≠ .blkHi j := by
  simp only [registerMap, List.lookup] at h
  repeat' split at h
  all_goals first | (cases h; simp) | cases h

/-- Every array entry that the address map names exists. -/
theorem locate_bounds (p : Params) (off j : Nat) :
    (locate p off = .tab j → j < p.tmax) ∧ (locate p off = .sk j → j < p.rmax) ∧
    (locate p off = .msg j → j < p.msgBytes) ∧ (locate p off = .blkLo j → j < p.maxBlocks) ∧
    (locate p off = .blkHi j → j < p.maxBlocks) := by
  unfold locate
  split
  · next l hl =>
    obtain ⟨h1, h2, h3, h4, h5⟩ := registerMap_no_array hl j
    exact ⟨fun h => absurd h h1, fun h => absurd h h2, fun h => absurd h h3, fun h => absurd h h4, fun h => absurd h h5⟩
  · exact locateArray_bounds p off j

/-- Only offset 0x0008 is CTRL. -/
theorem locate_eq_ctrl (p : Params) (off : Nat) : locate p off = .ctrl ↔ off = 0x0008 := by
  constructor
  · intro h
    unfold locate at h
    split at h
    · next l hl =>
      subst h
      simp only [registerMap, List.lookup] at hl
      repeat' split at hl
      all_goals simp_all
    · unfold locateArray at h
      repeat' split at h
      all_goals cases h
  · rintro rfl
    rfl

/-- Only offset 0x000C is STATUS. -/
theorem locate_eq_status (p : Params) (off : Nat) : locate p off = .status ↔ off = 0x000C := by
  constructor
  · intro h
    unfold locate at h
    split at h
    · next l hl =>
      subst h
      simp only [registerMap, List.lookup] at hl
      repeat' split at hl
      all_goals simp_all
    · unfold locateArray at h
      repeat' split at h
      all_goals cases h
  · rintro rfl
    rfl

/-! ### A bus write -/

/-- Everything a bus write can do: it acts on CTRL, it is ignored while BUSY = 1, or it stores while idle. -/
theorem State.busWrite_cases (s : State) (off : Nat) (v : Word) :
    (off = 0x0008 ∧ s.busWrite off v = s.writeCtrl v) ∨
    (off ≠ 0x0008 ∧ s.busy = true ∧ s.busWrite off v = { s with overrun := true }) ∨
    (off ≠ 0x0008 ∧ s.busy = false ∧ s.busWrite off v = s.writeLoc v (locate s.params off)) := by
  unfold State.busWrite
  split
  · next h => exact .inl ⟨(locate_eq_ctrl _ _).1 h, rfl⟩
  · next h =>
    have hne : off ≠ 0x0008 := fun e => h ((locate_eq_ctrl _ _).2 e)
    split
    · next hb => exact .inr (.inl ⟨hne, hb, rfl⟩)
    · next hb => exact .inr (.inr ⟨hne, by simpa using hb, rfl⟩)

/-- An access of the interface is aligned and 32 bits wide. -/
theorem accessLegal_iff (off : BitVec 16) (bytes : Nat) :
    accessLegal off bytes = true ↔ bytes = 4 ∧ off.toNat % 4 = 0 := by
  simp [accessLegal]

end Sys2Proof.Machine
end

