-- ==== Sys2Proof/Laws/State.lean ====
section
/-! SUPPORT. What each named update of the state leaves in each field, so that no proof unfolds a record update. -/

namespace Sys2Proof.Machine

/-! ### `State.succeed` -/

@[simp] theorem State.succeed_params (s : State) : s.succeed.params = s.params := rfl
@[simp] theorem State.succeed_busy (s : State) : s.succeed.busy = false := rfl
@[simp] theorem State.succeed_done (s : State) : s.succeed.done = true := rfl
@[simp] theorem State.succeed_keyed (s : State) : s.succeed.keyed = s.keyed := rfl
@[simp] theorem State.succeed_errSticky (s : State) : s.succeed.errSticky = s.errSticky := rfl
@[simp] theorem State.succeed_overrun (s : State) : s.succeed.overrun = s.overrun := rfl
@[simp] theorem State.succeed_err (s : State) : s.succeed.err = .ok := rfl
@[simp] theorem State.succeed_lastCmd (s : State) : s.succeed.lastCmd = s.lastCmd := rfl
@[simp] theorem State.succeed_pending (s : State) : s.succeed.pending = s.pending := rfl
@[simp] theorem State.succeed_cfg (s : State) : s.succeed.cfg = s.cfg := rfl
@[simp] theorem State.succeed_acfg (s : State) : s.succeed.acfg = s.acfg := rfl
@[simp] theorem State.succeed_tableLen (s : State) : s.succeed.tableLen = s.tableLen := rfl
@[simp] theorem State.succeed_mkey (s : State) : s.succeed.mkey = s.mkey := rfl
@[simp] theorem State.succeed_fout (s : State) : s.succeed.fout = s.fout := rfl
@[simp] theorem State.succeed_halfL (s : State) : s.succeed.halfL = s.halfL := rfl
@[simp] theorem State.succeed_halfR (s : State) : s.succeed.halfR = s.halfR := rfl
@[simp] theorem State.succeed_bin (s : State) : s.succeed.bin = s.bin := rfl
@[simp] theorem State.succeed_bout (s : State) : s.succeed.bout = s.bout := rfl
@[simp] theorem State.succeed_msgLen (s : State) : s.succeed.msgLen = s.msgLen := rfl
@[simp] theorem State.succeed_origLen (s : State) : s.succeed.origLen = s.origLen := rfl
@[simp] theorem State.succeed_blkCount (s : State) : s.succeed.blkCount = s.blkCount := rfl
@[simp] theorem State.succeed_errCmd (s : State) : s.succeed.errCmd = s.errCmd := rfl
@[simp] theorem State.succeed_errInfo (s : State) : s.succeed.errInfo = s.errInfo := rfl
@[simp] theorem State.succeed_tab (s : State) : s.succeed.tab = s.tab := rfl
@[simp] theorem State.succeed_sk (s : State) : s.succeed.sk = s.sk := rfl
@[simp] theorem State.succeed_mem (s : State) : s.succeed.mem = s.mem := rfl
@[simp] theorem State.succeed_draws (s : State) : s.succeed.draws = s.draws + 1 := rfl
@[simp] theorem State.succeed_inputs (s : State) : s.succeed.inputs = s.inputs := rfl
@[simp] theorem State.succeed_readLog (s : State) : s.succeed.readLog = s.readLog := rfl

/-! ### `State.raiseError` -/

@[simp] theorem State.raiseError_params (s : State) (c : ErrCode) (n : Nat) : (s.raiseError c n).params = s.params := rfl
@[simp] theorem State.raiseError_busy (s : State) (c : ErrCode) (n : Nat) : (s.raiseError c n).busy = false := rfl
@[simp] theorem State.raiseError_done (s : State) (c : ErrCode) (n : Nat) : (s.raiseError c n).done = true := rfl
@[simp] theorem State.raiseError_keyed (s : State) (c : ErrCode) (n : Nat) : (s.raiseError c n).keyed = s.keyed := rfl
@[simp] theorem State.raiseError_errSticky (s : State) (c : ErrCode) (n : Nat) : (s.raiseError c n).errSticky = true := rfl
@[simp] theorem State.raiseError_overrun (s : State) (c : ErrCode) (n : Nat) : (s.raiseError c n).overrun = s.overrun := rfl
@[simp] theorem State.raiseError_err (s : State) (c : ErrCode) (n : Nat) : (s.raiseError c n).err = c := rfl
@[simp] theorem State.raiseError_lastCmd (s : State) (c : ErrCode) (n : Nat) : (s.raiseError c n).lastCmd = s.lastCmd := rfl
@[simp] theorem State.raiseError_pending (s : State) (c : ErrCode) (n : Nat) : (s.raiseError c n).pending = s.pending := rfl
@[simp] theorem State.raiseError_cfg (s : State) (c : ErrCode) (n : Nat) : (s.raiseError c n).cfg = s.cfg := rfl
@[simp] theorem State.raiseError_acfg (s : State) (c : ErrCode) (n : Nat) : (s.raiseError c n).acfg = s.acfg := rfl
@[simp] theorem State.raiseError_tableLen (s : State) (c : ErrCode) (n : Nat) : (s.raiseError c n).tableLen = s.tableLen := rfl
@[simp] theorem State.raiseError_mkey (s : State) (c : ErrCode) (n : Nat) : (s.raiseError c n).mkey = s.mkey := rfl
@[simp] theorem State.raiseError_fout (s : State) (c : ErrCode) (n : Nat) : (s.raiseError c n).fout = s.fout := rfl
@[simp] theorem State.raiseError_halfL (s : State) (c : ErrCode) (n : Nat) : (s.raiseError c n).halfL = s.halfL := rfl
@[simp] theorem State.raiseError_halfR (s : State) (c : ErrCode) (n : Nat) : (s.raiseError c n).halfR = s.halfR := rfl
@[simp] theorem State.raiseError_bin (s : State) (c : ErrCode) (n : Nat) : (s.raiseError c n).bin = s.bin := rfl
@[simp] theorem State.raiseError_bout (s : State) (c : ErrCode) (n : Nat) : (s.raiseError c n).bout = s.bout := rfl
@[simp] theorem State.raiseError_msgLen (s : State) (c : ErrCode) (n : Nat) : (s.raiseError c n).msgLen = s.msgLen := rfl
@[simp] theorem State.raiseError_origLen (s : State) (c : ErrCode) (n : Nat) : (s.raiseError c n).origLen = s.origLen := rfl
@[simp] theorem State.raiseError_blkCount (s : State) (c : ErrCode) (n : Nat) : (s.raiseError c n).blkCount = s.blkCount := rfl
@[simp] theorem State.raiseError_errCmd (s : State) (c : ErrCode) (n : Nat) : (s.raiseError c n).errCmd = s.pending := rfl
@[simp] theorem State.raiseError_errInfo (s : State) (c : ErrCode) (n : Nat) : (s.raiseError c n).errInfo = BitVec.ofNat 16 n := rfl
@[simp] theorem State.raiseError_tab (s : State) (c : ErrCode) (n : Nat) : (s.raiseError c n).tab = s.tab := rfl
@[simp] theorem State.raiseError_sk (s : State) (c : ErrCode) (n : Nat) : (s.raiseError c n).sk = s.sk := rfl
@[simp] theorem State.raiseError_mem (s : State) (c : ErrCode) (n : Nat) : (s.raiseError c n).mem = s.mem := rfl
@[simp] theorem State.raiseError_draws (s : State) (c : ErrCode) (n : Nat) : (s.raiseError c n).draws = s.draws + 1 := rfl
@[simp] theorem State.raiseError_inputs (s : State) (c : ErrCode) (n : Nat) : (s.raiseError c n).inputs = s.inputs := rfl
@[simp] theorem State.raiseError_readLog (s : State) (c : ErrCode) (n : Nat) : (s.raiseError c n).readLog = s.readLog := rfl

/-! ### `State.toReset` -/

@[simp] theorem State.toReset_params (s : State) : s.toReset.params = s.params := rfl
@[simp] theorem State.toReset_busy (s : State) : s.toReset.busy = false := rfl
@[simp] theorem State.toReset_done (s : State) : s.toReset.done = false := rfl
@[simp] theorem State.toReset_keyed (s : State) : s.toReset.keyed = false := rfl
@[simp] theorem State.toReset_errSticky (s : State) : s.toReset.errSticky = false := rfl
@[simp] theorem State.toReset_overrun (s : State) : s.toReset.overrun = false := rfl
@[simp] theorem State.toReset_err (s : State) : s.toReset.err = .ok := rfl
@[simp] theorem State.toReset_lastCmd (s : State) : s.toReset.lastCmd = 0#32 := rfl
@[simp] theorem State.toReset_pending (s : State) : s.toReset.pending = 0#32 := rfl
@[simp] theorem State.toReset_cfg (s : State) : s.toReset.cfg = 0x00200004#32 := rfl
@[simp] theorem State.toReset_acfg (s : State) : s.toReset.acfg = CipherCfg.reset := rfl
@[simp] theorem State.toReset_tableLen (s : State) : s.toReset.tableLen = BitVec.ofNat 8 s.params.tableInit.length := rfl
@[simp] theorem State.toReset_mkey (s : State) : s.toReset.mkey = 0#32 := rfl
@[simp] theorem State.toReset_fout (s : State) : s.toReset.fout = 0#32 := rfl
@[simp] theorem State.toReset_halfL (s : State) : s.toReset.halfL = 0#32 := rfl
@[simp] theorem State.toReset_halfR (s : State) : s.toReset.halfR = 0#32 := rfl
@[simp] theorem State.toReset_bin (s : State) : s.toReset.bin = 0#64 := rfl
@[simp] theorem State.toReset_bout (s : State) : s.toReset.bout = 0#64 := rfl
@[simp] theorem State.toReset_msgLen (s : State) : s.toReset.msgLen = 0#16 := rfl
@[simp] theorem State.toReset_origLen (s : State) : s.toReset.origLen = 0#16 := rfl
@[simp] theorem State.toReset_blkCount (s : State) : s.toReset.blkCount = 0#16 := rfl
@[simp] theorem State.toReset_errCmd (s : State) : s.toReset.errCmd = 0#32 := rfl
@[simp] theorem State.toReset_errInfo (s : State) : s.toReset.errInfo = 0#16 := rfl
@[simp] theorem State.toReset_tab (s : State) : s.toReset.tab = s.params.tableInit ++ List.replicate (s.params.tmax - s.params.tableInit.length) 0#32 := rfl
@[simp] theorem State.toReset_sk (s : State) : s.toReset.sk = List.replicate s.params.rmax 0#32 := rfl
@[simp] theorem State.toReset_mem (s : State) : s.toReset.mem = [] := rfl
@[simp] theorem State.toReset_draws (s : State) : s.toReset.draws = s.draws := rfl
@[simp] theorem State.toReset_inputs (s : State) : s.toReset.inputs = s.inputs := rfl
@[simp] theorem State.toReset_readLog (s : State) : s.toReset.readLog = s.readLog := rfl

/-! ### `State.issue` -/

@[simp] theorem State.issue_params (s : State) (w : Word) : (s.issue w).params = s.params := rfl
@[simp] theorem State.issue_busy (s : State) (w : Word) : (s.issue w).busy = true := rfl
@[simp] theorem State.issue_done (s : State) (w : Word) : (s.issue w).done = false := rfl
@[simp] theorem State.issue_keyed (s : State) (w : Word) : (s.issue w).keyed = s.keyed := rfl
@[simp] theorem State.issue_errSticky (s : State) (w : Word) : (s.issue w).errSticky = s.errSticky := rfl
@[simp] theorem State.issue_overrun (s : State) (w : Word) : (s.issue w).overrun = s.overrun := rfl
@[simp] theorem State.issue_err (s : State) (w : Word) : (s.issue w).err = s.err := rfl
@[simp] theorem State.issue_lastCmd (s : State) (w : Word) : (s.issue w).lastCmd = w := rfl
@[simp] theorem State.issue_pending (s : State) (w : Word) : (s.issue w).pending = w := rfl
@[simp] theorem State.issue_cfg (s : State) (w : Word) : (s.issue w).cfg = s.cfg := rfl
@[simp] theorem State.issue_acfg (s : State) (w : Word) : (s.issue w).acfg = s.acfg := rfl
@[simp] theorem State.issue_tableLen (s : State) (w : Word) : (s.issue w).tableLen = s.tableLen := rfl
@[simp] theorem State.issue_mkey (s : State) (w : Word) : (s.issue w).mkey = s.mkey := rfl
@[simp] theorem State.issue_fout (s : State) (w : Word) : (s.issue w).fout = s.fout := rfl
@[simp] theorem State.issue_halfL (s : State) (w : Word) : (s.issue w).halfL = s.halfL := rfl
@[simp] theorem State.issue_halfR (s : State) (w : Word) : (s.issue w).halfR = s.halfR := rfl
@[simp] theorem State.issue_bin (s : State) (w : Word) : (s.issue w).bin = s.bin := rfl
@[simp] theorem State.issue_bout (s : State) (w : Word) : (s.issue w).bout = s.bout := rfl
@[simp] theorem State.issue_msgLen (s : State) (w : Word) : (s.issue w).msgLen = s.msgLen := rfl
@[simp] theorem State.issue_origLen (s : State) (w : Word) : (s.issue w).origLen = s.origLen := rfl
@[simp] theorem State.issue_blkCount (s : State) (w : Word) : (s.issue w).blkCount = s.blkCount := rfl
@[simp] theorem State.issue_errCmd (s : State) (w : Word) : (s.issue w).errCmd = s.errCmd := rfl
@[simp] theorem State.issue_errInfo (s : State) (w : Word) : (s.issue w).errInfo = s.errInfo := rfl
@[simp] theorem State.issue_tab (s : State) (w : Word) : (s.issue w).tab = s.tab := rfl
@[simp] theorem State.issue_sk (s : State) (w : Word) : (s.issue w).sk = s.sk := rfl
@[simp] theorem State.issue_mem (s : State) (w : Word) : (s.issue w).mem = s.mem := rfl
@[simp] theorem State.issue_draws (s : State) (w : Word) : (s.issue w).draws = s.draws := rfl
@[simp] theorem State.issue_inputs (s : State) (w : Word) : (s.issue w).inputs = s.inputs := rfl
@[simp] theorem State.issue_readLog (s : State) (w : Word) : (s.issue w).readLog = s.readLog := rfl

/-! ### `State.clearStatus` -/

@[simp] theorem State.clearStatus_params (s : State) (v : Word) : (s.clearStatus v).params = s.params := rfl
@[simp] theorem State.clearStatus_busy (s : State) (v : Word) : (s.clearStatus v).busy = s.busy := rfl
@[simp] theorem State.clearStatus_done (s : State) (v : Word) : (s.clearStatus v).done = s.done := rfl
@[simp] theorem State.clearStatus_keyed (s : State) (v : Word) : (s.clearStatus v).keyed = s.keyed := rfl
@[simp] theorem State.clearStatus_errSticky (s : State) (v : Word) : (s.clearStatus v).errSticky = (s.errSticky && !v.getLsbD 3) := rfl
@[simp] theorem State.clearStatus_overrun (s : State) (v : Word) : (s.clearStatus v).overrun = (s.overrun && !v.getLsbD 4) := rfl
@[simp] theorem State.clearStatus_err (s : State) (v : Word) : (s.clearStatus v).err = s.err := rfl
@[simp] theorem State.clearStatus_lastCmd (s : State) (v : Word) : (s.clearStatus v).lastCmd = s.lastCmd := rfl
@[simp] theorem State.clearStatus_pending (s : State) (v : Word) : (s.clearStatus v).pending = s.pending := rfl
@[simp] theorem State.clearStatus_cfg (s : State) (v : Word) : (s.clearStatus v).cfg = s.cfg := rfl
@[simp] theorem State.clearStatus_acfg (s : State) (v : Word) : (s.clearStatus v).acfg = s.acfg := rfl
@[simp] theorem State.clearStatus_tableLen (s : State) (v : Word) : (s.clearStatus v).tableLen = s.tableLen := rfl
@[simp] theorem State.clearStatus_mkey (s : State) (v : Word) : (s.clearStatus v).mkey = s.mkey := rfl
@[simp] theorem State.clearStatus_fout (s : State) (v : Word) : (s.clearStatus v).fout = s.fout := rfl
@[simp] theorem State.clearStatus_halfL (s : State) (v : Word) : (s.clearStatus v).halfL = s.halfL := rfl
@[simp] theorem State.clearStatus_halfR (s : State) (v : Word) : (s.clearStatus v).halfR = s.halfR := rfl
@[simp] theorem State.clearStatus_bin (s : State) (v : Word) : (s.clearStatus v).bin = s.bin := rfl
@[simp] theorem State.clearStatus_bout (s : State) (v : Word) : (s.clearStatus v).bout = s.bout := rfl
@[simp] theorem State.clearStatus_msgLen (s : State) (v : Word) : (s.clearStatus v).msgLen = s.msgLen := rfl
@[simp] theorem State.clearStatus_origLen (s : State) (v : Word) : (s.clearStatus v).origLen = s.origLen := rfl
@[simp] theorem State.clearStatus_blkCount (s : State) (v : Word) : (s.clearStatus v).blkCount = s.blkCount := rfl
@[simp] theorem State.clearStatus_errCmd (s : State) (v : Word) : (s.clearStatus v).errCmd = s.errCmd := rfl
@[simp] theorem State.clearStatus_errInfo (s : State) (v : Word) : (s.clearStatus v).errInfo = s.errInfo := rfl
@[simp] theorem State.clearStatus_tab (s : State) (v : Word) : (s.clearStatus v).tab = s.tab := rfl
@[simp] theorem State.clearStatus_sk (s : State) (v : Word) : (s.clearStatus v).sk = s.sk := rfl
@[simp] theorem State.clearStatus_mem (s : State) (v : Word) : (s.clearStatus v).mem = s.mem := rfl
@[simp] theorem State.clearStatus_draws (s : State) (v : Word) : (s.clearStatus v).draws = s.draws := rfl
@[simp] theorem State.clearStatus_inputs (s : State) (v : Word) : (s.clearStatus v).inputs = s.inputs := rfl
@[simp] theorem State.clearStatus_readLog (s : State) (v : Word) : (s.clearStatus v).readLog = s.readLog := rfl

/-! ### `State.afterRead` -/

@[simp] theorem State.afterRead_params (s : State) (off : Nat) : (s.afterRead off).params = s.params := rfl
@[simp] theorem State.afterRead_busy (s : State) (off : Nat) : (s.afterRead off).busy = s.busy := rfl
@[simp] theorem State.afterRead_done (s : State) (off : Nat) : (s.afterRead off).done = s.done := rfl
@[simp] theorem State.afterRead_keyed (s : State) (off : Nat) : (s.afterRead off).keyed = s.keyed := rfl
@[simp] theorem State.afterRead_errSticky (s : State) (off : Nat) : (s.afterRead off).errSticky = s.errSticky := rfl
@[simp] theorem State.afterRead_overrun (s : State) (off : Nat) : (s.afterRead off).overrun = s.overrun := rfl
@[simp] theorem State.afterRead_err (s : State) (off : Nat) : (s.afterRead off).err = s.err := rfl
@[simp] theorem State.afterRead_lastCmd (s : State) (off : Nat) : (s.afterRead off).lastCmd = s.lastCmd := rfl
@[simp] theorem State.afterRead_pending (s : State) (off : Nat) : (s.afterRead off).pending = s.pending := rfl
@[simp] theorem State.afterRead_cfg (s : State) (off : Nat) : (s.afterRead off).cfg = s.cfg := rfl
@[simp] theorem State.afterRead_acfg (s : State) (off : Nat) : (s.afterRead off).acfg = s.acfg := rfl
@[simp] theorem State.afterRead_tableLen (s : State) (off : Nat) : (s.afterRead off).tableLen = s.tableLen := rfl
@[simp] theorem State.afterRead_mkey (s : State) (off : Nat) : (s.afterRead off).mkey = s.mkey := rfl
@[simp] theorem State.afterRead_fout (s : State) (off : Nat) : (s.afterRead off).fout = s.fout := rfl
@[simp] theorem State.afterRead_halfL (s : State) (off : Nat) : (s.afterRead off).halfL = s.halfL := rfl
@[simp] theorem State.afterRead_halfR (s : State) (off : Nat) : (s.afterRead off).halfR = s.halfR := rfl
@[simp] theorem State.afterRead_bin (s : State) (off : Nat) : (s.afterRead off).bin = s.bin := rfl
@[simp] theorem State.afterRead_bout (s : State) (off : Nat) : (s.afterRead off).bout = s.bout := rfl
@[simp] theorem State.afterRead_msgLen (s : State) (off : Nat) : (s.afterRead off).msgLen = s.msgLen := rfl
@[simp] theorem State.afterRead_origLen (s : State) (off : Nat) : (s.afterRead off).origLen = s.origLen := rfl
@[simp] theorem State.afterRead_blkCount (s : State) (off : Nat) : (s.afterRead off).blkCount = s.blkCount := rfl
@[simp] theorem State.afterRead_errCmd (s : State) (off : Nat) : (s.afterRead off).errCmd = s.errCmd := rfl
@[simp] theorem State.afterRead_errInfo (s : State) (off : Nat) : (s.afterRead off).errInfo = s.errInfo := rfl
@[simp] theorem State.afterRead_tab (s : State) (off : Nat) : (s.afterRead off).tab = s.tab := rfl
@[simp] theorem State.afterRead_sk (s : State) (off : Nat) : (s.afterRead off).sk = s.sk := rfl
@[simp] theorem State.afterRead_mem (s : State) (off : Nat) : (s.afterRead off).mem = s.mem := rfl
@[simp] theorem State.afterRead_draws (s : State) (off : Nat) : (s.afterRead off).draws = s.draws + 1 := rfl
@[simp] theorem State.afterRead_inputs (s : State) (off : Nat) : (s.afterRead off).inputs = s.inputs := rfl
@[simp] theorem State.afterRead_readLog (s : State) (off : Nat) : (s.afterRead off).readLog = s.readLog ++ [s.busRead off] := rfl

/-! ### `State.latch` -/

@[simp] theorem State.latch_params (s : State) (c : CipherCfg) : (s.latch c).params = s.params := rfl
@[simp] theorem State.latch_busy (s : State) (c : CipherCfg) : (s.latch c).busy = s.busy := rfl
@[simp] theorem State.latch_done (s : State) (c : CipherCfg) : (s.latch c).done = s.done := rfl
@[simp] theorem State.latch_keyed (s : State) (c : CipherCfg) : (s.latch c).keyed = true := rfl
@[simp] theorem State.latch_errSticky (s : State) (c : CipherCfg) : (s.latch c).errSticky = s.errSticky := rfl
@[simp] theorem State.latch_overrun (s : State) (c : CipherCfg) : (s.latch c).overrun = s.overrun := rfl
@[simp] theorem State.latch_err (s : State) (c : CipherCfg) : (s.latch c).err = s.err := rfl
@[simp] theorem State.latch_lastCmd (s : State) (c : CipherCfg) : (s.latch c).lastCmd = s.lastCmd := rfl
@[simp] theorem State.latch_pending (s : State) (c : CipherCfg) : (s.latch c).pending = s.pending := rfl
@[simp] theorem State.latch_cfg (s : State) (c : CipherCfg) : (s.latch c).cfg = s.cfg := rfl
@[simp] theorem State.latch_acfg (s : State) (c : CipherCfg) : (s.latch c).acfg = c := rfl
@[simp] theorem State.latch_tableLen (s : State) (c : CipherCfg) : (s.latch c).tableLen = s.tableLen := rfl
@[simp] theorem State.latch_mkey (s : State) (c : CipherCfg) : (s.latch c).mkey = s.mkey := rfl
@[simp] theorem State.latch_fout (s : State) (c : CipherCfg) : (s.latch c).fout = s.fout := rfl
@[simp] theorem State.latch_halfL (s : State) (c : CipherCfg) : (s.latch c).halfL = s.halfL := rfl
@[simp] theorem State.latch_halfR (s : State) (c : CipherCfg) : (s.latch c).halfR = s.halfR := rfl
@[simp] theorem State.latch_bin (s : State) (c : CipherCfg) : (s.latch c).bin = s.bin := rfl
@[simp] theorem State.latch_bout (s : State) (c : CipherCfg) : (s.latch c).bout = s.bout := rfl
@[simp] theorem State.latch_msgLen (s : State) (c : CipherCfg) : (s.latch c).msgLen = s.msgLen := rfl
@[simp] theorem State.latch_origLen (s : State) (c : CipherCfg) : (s.latch c).origLen = s.origLen := rfl
@[simp] theorem State.latch_blkCount (s : State) (c : CipherCfg) : (s.latch c).blkCount = s.blkCount := rfl
@[simp] theorem State.latch_errCmd (s : State) (c : CipherCfg) : (s.latch c).errCmd = s.errCmd := rfl
@[simp] theorem State.latch_errInfo (s : State) (c : CipherCfg) : (s.latch c).errInfo = s.errInfo := rfl
@[simp] theorem State.latch_tab (s : State) (c : CipherCfg) : (s.latch c).tab = s.tab := rfl
@[simp] theorem State.latch_sk (s : State) (c : CipherCfg) : (s.latch c).sk = derive s.params c.ksel c.rounds.toNat s.tab s.tableLen.toNat s.mkey ++
      List.replicate (s.params.rmax - c.rounds.toNat) 0#32 := rfl
@[simp] theorem State.latch_mem (s : State) (c : CipherCfg) : (s.latch c).mem = s.mem := rfl
@[simp] theorem State.latch_draws (s : State) (c : CipherCfg) : (s.latch c).draws = s.draws := rfl
@[simp] theorem State.latch_inputs (s : State) (c : CipherCfg) : (s.latch c).inputs = s.inputs := rfl
@[simp] theorem State.latch_readLog (s : State) (c : CipherCfg) : (s.latch c).readLog = s.readLog := rfl

/-! ### `State.storePacked` -/

@[simp] theorem State.storePacked_params (s : State) (bs : List Block) : (s.storePacked bs).params = s.params := rfl
@[simp] theorem State.storePacked_busy (s : State) (bs : List Block) : (s.storePacked bs).busy = s.busy := rfl
@[simp] theorem State.storePacked_done (s : State) (bs : List Block) : (s.storePacked bs).done = s.done := rfl
@[simp] theorem State.storePacked_keyed (s : State) (bs : List Block) : (s.storePacked bs).keyed = s.keyed := rfl
@[simp] theorem State.storePacked_errSticky (s : State) (bs : List Block) : (s.storePacked bs).errSticky = s.errSticky := rfl
@[simp] theorem State.storePacked_overrun (s : State) (bs : List Block) : (s.storePacked bs).overrun = s.overrun := rfl
@[simp] theorem State.storePacked_err (s : State) (bs : List Block) : (s.storePacked bs).err = s.err := rfl
@[simp] theorem State.storePacked_lastCmd (s : State) (bs : List Block) : (s.storePacked bs).lastCmd = s.lastCmd := rfl
@[simp] theorem State.storePacked_pending (s : State) (bs : List Block) : (s.storePacked bs).pending = s.pending := rfl
@[simp] theorem State.storePacked_cfg (s : State) (bs : List Block) : (s.storePacked bs).cfg = s.cfg := rfl
@[simp] theorem State.storePacked_acfg (s : State) (bs : List Block) : (s.storePacked bs).acfg = s.acfg := rfl
@[simp] theorem State.storePacked_tableLen (s : State) (bs : List Block) : (s.storePacked bs).tableLen = s.tableLen := rfl
@[simp] theorem State.storePacked_mkey (s : State) (bs : List Block) : (s.storePacked bs).mkey = s.mkey := rfl
@[simp] theorem State.storePacked_fout (s : State) (bs : List Block) : (s.storePacked bs).fout = s.fout := rfl
@[simp] theorem State.storePacked_halfL (s : State) (bs : List Block) : (s.storePacked bs).halfL = s.halfL := rfl
@[simp] theorem State.storePacked_halfR (s : State) (bs : List Block) : (s.storePacked bs).halfR = s.halfR := rfl
@[simp] theorem State.storePacked_bin (s : State) (bs : List Block) : (s.storePacked bs).bin = s.bin := rfl
@[simp] theorem State.storePacked_bout (s : State) (bs : List Block) : (s.storePacked bs).bout = s.bout := rfl
@[simp] theorem State.storePacked_msgLen (s : State) (bs : List Block) : (s.storePacked bs).msgLen = s.msgLen := rfl
@[simp] theorem State.storePacked_origLen (s : State) (bs : List Block) : (s.storePacked bs).origLen = s.msgLen := rfl
@[simp] theorem State.storePacked_blkCount (s : State) (bs : List Block) : (s.storePacked bs).blkCount = BitVec.ofNat 16 bs.length := rfl
@[simp] theorem State.storePacked_errCmd (s : State) (bs : List Block) : (s.storePacked bs).errCmd = s.errCmd := rfl
@[simp] theorem State.storePacked_errInfo (s : State) (bs : List Block) : (s.storePacked bs).errInfo = s.errInfo := rfl
@[simp] theorem State.storePacked_tab (s : State) (bs : List Block) : (s.storePacked bs).tab = s.tab := rfl
@[simp] theorem State.storePacked_sk (s : State) (bs : List Block) : (s.storePacked bs).sk = s.sk := rfl
@[simp] theorem State.storePacked_mem (s : State) (bs : List Block) : (s.storePacked bs).mem = Memory.writeBlkFrom s.mem 0 bs := rfl
@[simp] theorem State.storePacked_draws (s : State) (bs : List Block) : (s.storePacked bs).draws = s.draws := rfl
@[simp] theorem State.storePacked_inputs (s : State) (bs : List Block) : (s.storePacked bs).inputs = s.inputs := rfl
@[simp] theorem State.storePacked_readLog (s : State) (bs : List Block) : (s.storePacked bs).readLog = s.readLog := rfl

/-! ### `State.storeMessage` -/

@[simp] theorem State.storeMessage_params (s : State) (m : List Byte) : (s.storeMessage m).params = s.params := rfl
@[simp] theorem State.storeMessage_busy (s : State) (m : List Byte) : (s.storeMessage m).busy = s.busy := rfl
@[simp] theorem State.storeMessage_done (s : State) (m : List Byte) : (s.storeMessage m).done = s.done := rfl
@[simp] theorem State.storeMessage_keyed (s : State) (m : List Byte) : (s.storeMessage m).keyed = s.keyed := rfl
@[simp] theorem State.storeMessage_errSticky (s : State) (m : List Byte) : (s.storeMessage m).errSticky = s.errSticky := rfl
@[simp] theorem State.storeMessage_overrun (s : State) (m : List Byte) : (s.storeMessage m).overrun = s.overrun := rfl
@[simp] theorem State.storeMessage_err (s : State) (m : List Byte) : (s.storeMessage m).err = s.err := rfl
@[simp] theorem State.storeMessage_lastCmd (s : State) (m : List Byte) : (s.storeMessage m).lastCmd = s.lastCmd := rfl
@[simp] theorem State.storeMessage_pending (s : State) (m : List Byte) : (s.storeMessage m).pending = s.pending := rfl
@[simp] theorem State.storeMessage_cfg (s : State) (m : List Byte) : (s.storeMessage m).cfg = s.cfg := rfl
@[simp] theorem State.storeMessage_acfg (s : State) (m : List Byte) : (s.storeMessage m).acfg = s.acfg := rfl
@[simp] theorem State.storeMessage_tableLen (s : State) (m : List Byte) : (s.storeMessage m).tableLen = s.tableLen := rfl
@[simp] theorem State.storeMessage_mkey (s : State) (m : List Byte) : (s.storeMessage m).mkey = s.mkey := rfl
@[simp] theorem State.storeMessage_fout (s : State) (m : List Byte) : (s.storeMessage m).fout = s.fout := rfl
@[simp] theorem State.storeMessage_halfL (s : State) (m : List Byte) : (s.storeMessage m).halfL = s.halfL := rfl
@[simp] theorem State.storeMessage_halfR (s : State) (m : List Byte) : (s.storeMessage m).halfR = s.halfR := rfl
@[simp] theorem State.storeMessage_bin (s : State) (m : List Byte) : (s.storeMessage m).bin = s.bin := rfl
@[simp] theorem State.storeMessage_bout (s : State) (m : List Byte) : (s.storeMessage m).bout = s.bout := rfl
@[simp] theorem State.storeMessage_msgLen (s : State) (m : List Byte) : (s.storeMessage m).msgLen = s.origLen := rfl
@[simp] theorem State.storeMessage_origLen (s : State) (m : List Byte) : (s.storeMessage m).origLen = s.origLen := rfl
@[simp] theorem State.storeMessage_blkCount (s : State) (m : List Byte) : (s.storeMessage m).blkCount = s.blkCount := rfl
@[simp] theorem State.storeMessage_errCmd (s : State) (m : List Byte) : (s.storeMessage m).errCmd = s.errCmd := rfl
@[simp] theorem State.storeMessage_errInfo (s : State) (m : List Byte) : (s.storeMessage m).errInfo = s.errInfo := rfl
@[simp] theorem State.storeMessage_tab (s : State) (m : List Byte) : (s.storeMessage m).tab = s.tab := rfl
@[simp] theorem State.storeMessage_sk (s : State) (m : List Byte) : (s.storeMessage m).sk = s.sk := rfl
@[simp] theorem State.storeMessage_mem (s : State) (m : List Byte) : (s.storeMessage m).mem = Memory.writeMsgFrom s.mem 0 m := rfl
@[simp] theorem State.storeMessage_draws (s : State) (m : List Byte) : (s.storeMessage m).draws = s.draws := rfl
@[simp] theorem State.storeMessage_inputs (s : State) (m : List Byte) : (s.storeMessage m).inputs = s.inputs := rfl
@[simp] theorem State.storeMessage_readLog (s : State) (m : List Byte) : (s.storeMessage m).readLog = s.readLog := rfl

/-! ### `State.putHalves` -/

@[simp] theorem State.putHalves_params (s : State) (lr : Word × Word) : (s.putHalves lr).params = s.params := rfl
@[simp] theorem State.putHalves_busy (s : State) (lr : Word × Word) : (s.putHalves lr).busy = s.busy := rfl
@[simp] theorem State.putHalves_done (s : State) (lr : Word × Word) : (s.putHalves lr).done = s.done := rfl
@[simp] theorem State.putHalves_keyed (s : State) (lr : Word × Word) : (s.putHalves lr).keyed = s.keyed := rfl
@[simp] theorem State.putHalves_errSticky (s : State) (lr : Word × Word) : (s.putHalves lr).errSticky = s.errSticky := rfl
@[simp] theorem State.putHalves_overrun (s : State) (lr : Word × Word) : (s.putHalves lr).overrun = s.overrun := rfl
@[simp] theorem State.putHalves_err (s : State) (lr : Word × Word) : (s.putHalves lr).err = s.err := rfl
@[simp] theorem State.putHalves_lastCmd (s : State) (lr : Word × Word) : (s.putHalves lr).lastCmd = s.lastCmd := rfl
@[simp] theorem State.putHalves_pending (s : State) (lr : Word × Word) : (s.putHalves lr).pending = s.pending := rfl
@[simp] theorem State.putHalves_cfg (s : State) (lr : Word × Word) : (s.putHalves lr).cfg = s.cfg := rfl
@[simp] theorem State.putHalves_acfg (s : State) (lr : Word × Word) : (s.putHalves lr).acfg = s.acfg := rfl
@[simp] theorem State.putHalves_tableLen (s : State) (lr : Word × Word) : (s.putHalves lr).tableLen = s.tableLen := rfl
@[simp] theorem State.putHalves_mkey (s : State) (lr : Word × Word) : (s.putHalves lr).mkey = s.mkey := rfl
@[simp] theorem State.putHalves_fout (s : State) (lr : Word × Word) : (s.putHalves lr).fout = s.fout := rfl
@[simp] theorem State.putHalves_halfL (s : State) (lr : Word × Word) : (s.putHalves lr).halfL = lr.1 := rfl
@[simp] theorem State.putHalves_halfR (s : State) (lr : Word × Word) : (s.putHalves lr).halfR = lr.2 := rfl
@[simp] theorem State.putHalves_bin (s : State) (lr : Word × Word) : (s.putHalves lr).bin = s.bin := rfl
@[simp] theorem State.putHalves_bout (s : State) (lr : Word × Word) : (s.putHalves lr).bout = s.bout := rfl
@[simp] theorem State.putHalves_msgLen (s : State) (lr : Word × Word) : (s.putHalves lr).msgLen = s.msgLen := rfl
@[simp] theorem State.putHalves_origLen (s : State) (lr : Word × Word) : (s.putHalves lr).origLen = s.origLen := rfl
@[simp] theorem State.putHalves_blkCount (s : State) (lr : Word × Word) : (s.putHalves lr).blkCount = s.blkCount := rfl
@[simp] theorem State.putHalves_errCmd (s : State) (lr : Word × Word) : (s.putHalves lr).errCmd = s.errCmd := rfl
@[simp] theorem State.putHalves_errInfo (s : State) (lr : Word × Word) : (s.putHalves lr).errInfo = s.errInfo := rfl
@[simp] theorem State.putHalves_tab (s : State) (lr : Word × Word) : (s.putHalves lr).tab = s.tab := rfl
@[simp] theorem State.putHalves_sk (s : State) (lr : Word × Word) : (s.putHalves lr).sk = s.sk := rfl
@[simp] theorem State.putHalves_mem (s : State) (lr : Word × Word) : (s.putHalves lr).mem = s.mem := rfl
@[simp] theorem State.putHalves_draws (s : State) (lr : Word × Word) : (s.putHalves lr).draws = s.draws := rfl
@[simp] theorem State.putHalves_inputs (s : State) (lr : Word × Word) : (s.putHalves lr).inputs = s.inputs := rfl
@[simp] theorem State.putHalves_readLog (s : State) (lr : Word × Word) : (s.putHalves lr).readLog = s.readLog := rfl

/-! ### `State.putBlock` -/

@[simp] theorem State.putBlock_params (s : State) (lr : Word × Word) : (s.putBlock lr).params = s.params := rfl
@[simp] theorem State.putBlock_busy (s : State) (lr : Word × Word) : (s.putBlock lr).busy = s.busy := rfl
@[simp] theorem State.putBlock_done (s : State) (lr : Word × Word) : (s.putBlock lr).done = s.done := rfl
@[simp] theorem State.putBlock_keyed (s : State) (lr : Word × Word) : (s.putBlock lr).keyed = s.keyed := rfl
@[simp] theorem State.putBlock_errSticky (s : State) (lr : Word × Word) : (s.putBlock lr).errSticky = s.errSticky := rfl
@[simp] theorem State.putBlock_overrun (s : State) (lr : Word × Word) : (s.putBlock lr).overrun = s.overrun := rfl
@[simp] theorem State.putBlock_err (s : State) (lr : Word × Word) : (s.putBlock lr).err = s.err := rfl
@[simp] theorem State.putBlock_lastCmd (s : State) (lr : Word × Word) : (s.putBlock lr).lastCmd = s.lastCmd := rfl
@[simp] theorem State.putBlock_pending (s : State) (lr : Word × Word) : (s.putBlock lr).pending = s.pending := rfl
@[simp] theorem State.putBlock_cfg (s : State) (lr : Word × Word) : (s.putBlock lr).cfg = s.cfg := rfl
@[simp] theorem State.putBlock_acfg (s : State) (lr : Word × Word) : (s.putBlock lr).acfg = s.acfg := rfl
@[simp] theorem State.putBlock_tableLen (s : State) (lr : Word × Word) : (s.putBlock lr).tableLen = s.tableLen := rfl
@[simp] theorem State.putBlock_mkey (s : State) (lr : Word × Word) : (s.putBlock lr).mkey = s.mkey := rfl
@[simp] theorem State.putBlock_fout (s : State) (lr : Word × Word) : (s.putBlock lr).fout = s.fout := rfl
@[simp] theorem State.putBlock_halfL (s : State) (lr : Word × Word) : (s.putBlock lr).halfL = lr.1 := rfl
@[simp] theorem State.putBlock_halfR (s : State) (lr : Word × Word) : (s.putBlock lr).halfR = lr.2 := rfl
@[simp] theorem State.putBlock_bin (s : State) (lr : Word × Word) : (s.putBlock lr).bin = s.bin := rfl
@[simp] theorem State.putBlock_bout (s : State) (lr : Word × Word) : (s.putBlock lr).bout = joinBlock s.params.width lr.1 lr.2 := rfl
@[simp] theorem State.putBlock_msgLen (s : State) (lr : Word × Word) : (s.putBlock lr).msgLen = s.msgLen := rfl
@[simp] theorem State.putBlock_origLen (s : State) (lr : Word × Word) : (s.putBlock lr).origLen = s.origLen := rfl
@[simp] theorem State.putBlock_blkCount (s : State) (lr : Word × Word) : (s.putBlock lr).blkCount = s.blkCount := rfl
@[simp] theorem State.putBlock_errCmd (s : State) (lr : Word × Word) : (s.putBlock lr).errCmd = s.errCmd := rfl
@[simp] theorem State.putBlock_errInfo (s : State) (lr : Word × Word) : (s.putBlock lr).errInfo = s.errInfo := rfl
@[simp] theorem State.putBlock_tab (s : State) (lr : Word × Word) : (s.putBlock lr).tab = s.tab := rfl
@[simp] theorem State.putBlock_sk (s : State) (lr : Word × Word) : (s.putBlock lr).sk = s.sk := rfl
@[simp] theorem State.putBlock_mem (s : State) (lr : Word × Word) : (s.putBlock lr).mem = s.mem := rfl
@[simp] theorem State.putBlock_draws (s : State) (lr : Word × Word) : (s.putBlock lr).draws = s.draws := rfl
@[simp] theorem State.putBlock_inputs (s : State) (lr : Word × Word) : (s.putBlock lr).inputs = s.inputs := rfl
@[simp] theorem State.putBlock_readLog (s : State) (lr : Word × Word) : (s.putBlock lr).readLog = s.readLog := rfl

/-! ### `State.mapSlots` -/

@[simp] theorem State.mapSlots_params (s : State) (f : Block → Block) : (s.mapSlots f).params = s.params := rfl
@[simp] theorem State.mapSlots_busy (s : State) (f : Block → Block) : (s.mapSlots f).busy = s.busy := rfl
@[simp] theorem State.mapSlots_done (s : State) (f : Block → Block) : (s.mapSlots f).done = s.done := rfl
@[simp] theorem State.mapSlots_keyed (s : State) (f : Block → Block) : (s.mapSlots f).keyed = s.keyed := rfl
@[simp] theorem State.mapSlots_errSticky (s : State) (f : Block → Block) : (s.mapSlots f).errSticky = s.errSticky := rfl
@[simp] theorem State.mapSlots_overrun (s : State) (f : Block → Block) : (s.mapSlots f).overrun = s.overrun := rfl
@[simp] theorem State.mapSlots_err (s : State) (f : Block → Block) : (s.mapSlots f).err = s.err := rfl
@[simp] theorem State.mapSlots_lastCmd (s : State) (f : Block → Block) : (s.mapSlots f).lastCmd = s.lastCmd := rfl
@[simp] theorem State.mapSlots_pending (s : State) (f : Block → Block) : (s.mapSlots f).pending = s.pending := rfl
@[simp] theorem State.mapSlots_cfg (s : State) (f : Block → Block) : (s.mapSlots f).cfg = s.cfg := rfl
@[simp] theorem State.mapSlots_acfg (s : State) (f : Block → Block) : (s.mapSlots f).acfg = s.acfg := rfl
@[simp] theorem State.mapSlots_tableLen (s : State) (f : Block → Block) : (s.mapSlots f).tableLen = s.tableLen := rfl
@[simp] theorem State.mapSlots_mkey (s : State) (f : Block → Block) : (s.mapSlots f).mkey = s.mkey := rfl
@[simp] theorem State.mapSlots_fout (s : State) (f : Block → Block) : (s.mapSlots f).fout = s.fout := rfl
@[simp] theorem State.mapSlots_halfL (s : State) (f : Block → Block) : (s.mapSlots f).halfL = s.halfL := rfl
@[simp] theorem State.mapSlots_halfR (s : State) (f : Block → Block) : (s.mapSlots f).halfR = s.halfR := rfl
@[simp] theorem State.mapSlots_bin (s : State) (f : Block → Block) : (s.mapSlots f).bin = s.bin := rfl
@[simp] theorem State.mapSlots_bout (s : State) (f : Block → Block) : (s.mapSlots f).bout = s.bout := rfl
@[simp] theorem State.mapSlots_msgLen (s : State) (f : Block → Block) : (s.mapSlots f).msgLen = s.msgLen := rfl
@[simp] theorem State.mapSlots_origLen (s : State) (f : Block → Block) : (s.mapSlots f).origLen = s.origLen := rfl
@[simp] theorem State.mapSlots_blkCount (s : State) (f : Block → Block) : (s.mapSlots f).blkCount = s.blkCount := rfl
@[simp] theorem State.mapSlots_errCmd (s : State) (f : Block → Block) : (s.mapSlots f).errCmd = s.errCmd := rfl
@[simp] theorem State.mapSlots_errInfo (s : State) (f : Block → Block) : (s.mapSlots f).errInfo = s.errInfo := rfl
@[simp] theorem State.mapSlots_tab (s : State) (f : Block → Block) : (s.mapSlots f).tab = s.tab := rfl
@[simp] theorem State.mapSlots_sk (s : State) (f : Block → Block) : (s.mapSlots f).sk = s.sk := rfl
@[simp] theorem State.mapSlots_mem (s : State) (f : Block → Block) : (s.mapSlots f).mem = Memory.writeBlkFrom s.mem 0 ((s.slots s.blkCount.toNat).map f) := rfl
@[simp] theorem State.mapSlots_draws (s : State) (f : Block → Block) : (s.mapSlots f).draws = s.draws := rfl
@[simp] theorem State.mapSlots_inputs (s : State) (f : Block → Block) : (s.mapSlots f).inputs = s.inputs := rfl
@[simp] theorem State.mapSlots_readLog (s : State) (f : Block → Block) : (s.mapSlots f).readLog = s.readLog := rfl

end Sys2Proof.Machine
end

