-- ==== Sys2Proof/Laws/Ops.lean ====
section
/-! SUPPORT. What each shared check and the completion can answer, said once. -/

namespace Sys2Proof.Machine

/-- A completion answers a next state: the results applied, or the error record. -/
theorem State.complete_cases {s t : State} {r : CmdResult} (h : s.complete r = .next t) :
    (∃ u, r = .ok u ∧ t = u.succeed) ∨ (∃ c n, r = .err c n ∧ t = s.raiseError c n) := by
  cases r with
  | ok u => exact .inl ⟨u, rfl, (by simpa [State.complete] using h.symm)⟩
  | err c n => exact .inr ⟨c, n, rfl, (by simpa [State.complete] using h.symm)⟩

@[simp] theorem State.complete_ok (s t : State) : s.complete (.ok t) = .next t.succeed := rfl

@[simp] theorem State.complete_err (s : State) (c : ErrCode) (n : Nat) :
    s.complete (.err c n) = .next (s.raiseError c n) := rfl

/-- Whatever its result, a completion answers a next state. -/
theorem State.complete_next (s : State) (r : CmdResult) : ∃ t, s.complete r = .next t := by
  cases r <;> exact ⟨_, rfl⟩

@[simp] theorem State.needKeyed_true {s : State} (r : CmdResult) (h : s.keyed = true) : s.needKeyed r = r := by
  simp [State.needKeyed, h]

@[simp] theorem State.needKeyed_false {s : State} (r : CmdResult) (h : s.keyed = false) :
    s.needKeyed r = .err .notKeyed 0 := by
  simp [State.needKeyed, h]

theorem State.needKeyed_ok {s t : State} {r : CmdResult} (h : s.needKeyed r = .ok t) :
    s.keyed = true ∧ r = .ok t := by
  unfold State.needKeyed at h
  split at h
  · exact ⟨‹_›, h⟩
  · cases h

theorem State.needIndex_ok {s t : State} {idx : BitVec 8} {r : CmdResult} (h : s.needIndex idx r = .ok t) :
    idx.toNat < s.acfg.rounds.toNat ∧ r = .ok t := by
  unfold State.needIndex at h
  split at h
  · exact ⟨‹_›, h⟩
  · cases h

theorem State.needBin_ok {s t : State} {r : CmdResult} (h : s.needBin r = .ok t) :
    wellFormedBlock s.params.width s.bin = true ∧ r = .ok t := by
  unfold State.needBin at h
  split at h
  · exact ⟨‹_›, h⟩
  · cases h

theorem needLength_ok {n limit off : Nat} {r : CmdResult} {t : State} (h : needLength n limit off r = .ok t) :
    n ≤ limit ∧ r = .ok t := by
  unfold needLength at h
  split at h
  · cases h
  · exact ⟨by omega, h⟩

/-- When every element passes the check, the check lets the result through. -/
theorem needAll_of_all {α : Type} {good : α → Bool} {xs : List α} (c : ErrCode) (r : CmdResult)
    (h : ∀ x ∈ xs, good x = true) : needAll good xs c r = r := by
  have : xs.findIdx? (fun x => !good x) = none := by
    rw [List.findIdx?_eq_none_iff]
    intro x hx
    simp [h x hx]
  simp [needAll, this]

/-- The first element that fails is reported by its index. -/
theorem needAll_of_first {α : Type} {good : α → Bool} {xs : List α} (c : ErrCode) (r : CmdResult) (k : Nat)
    (hk : k < xs.length) (hbad : good xs[k] = false)
    (hlt : ∀ j, (hj : j < k) → good (xs[j]'(Nat.lt_trans hj hk)) = true) :
    needAll good xs c r = .err c k := by
  have : xs.findIdx? (fun x => !good x) = some k := by
    rw [List.findIdx?_eq_some_iff_getElem]
    refine ⟨hk, by simp [hbad], ?_⟩
    intro j hj
    simp [hlt j hj]
  simp [needAll, this]

theorem needAll_ok {α : Type} {good : α → Bool} {xs : List α} {c : ErrCode} {r : CmdResult} {t : State}
    (h : needAll good xs c r = .ok t) : (∀ x ∈ xs, good x = true) ∧ r = .ok t := by
  unfold needAll at h
  split at h
  · cases h
  · next hn =>
    rw [List.findIdx?_eq_none_iff] at hn
    exact ⟨fun x hx => by simpa using hn x hx, h⟩

theorem needDecodeLength_ok {p : Params} {count n : Nat} {r : CmdResult} {t : State}
    (h : needDecodeLength p count n r = .ok t) :
    count ≤ p.maxBlocks ∧ n ≤ p.msgBytes ∧ count = p.width.blocksFor n ∧ r = .ok t := by
  unfold needDecodeLength at h
  split at h
  · cases h
  · split at h
    · cases h
    · split at h
      · cases h
      · exact ⟨by omega, by omega, by omega, h⟩

theorem State.needMessage_ok {s t : State} {r : CmdResult} (h : s.needMessage r = .ok t) :
    s.keyed = true ∧ s.msgLen.toNat ≤ s.params.msgBytes ∧
    (∀ b ∈ s.message s.msgLen.toNat, s.acfg.charset.accepts b = true) ∧ r = .ok t := by
  obtain ⟨hk, h⟩ := State.needKeyed_ok h
  obtain ⟨hl, h⟩ := needLength_ok h
  obtain ⟨ha, h⟩ := needAll_ok h
  exact ⟨hk, hl, ha, h⟩

theorem State.needBlocks_ok {s t : State} {r : CmdResult} (h : s.needBlocks r = .ok t) :
    s.keyed = true ∧ s.blkCount.toNat ≤ s.params.maxBlocks ∧ s.origLen.toNat ≤ s.params.msgBytes ∧
    s.blkCount.toNat = s.params.width.blocksFor s.origLen.toNat ∧
    (∀ b ∈ s.slots s.blkCount.toNat, wellFormedBlock s.params.width b = true) ∧ r = .ok t := by
  obtain ⟨hk, h⟩ := State.needKeyed_ok h
  obtain ⟨hc, hn, he, h⟩ := needDecodeLength_ok h
  obtain ⟨ha, h⟩ := needAll_ok h
  exact ⟨hk, hc, hn, he, ha, h⟩

theorem State.needBlockBuffer_ok {s t : State} {r : CmdResult} (h : s.needBlockBuffer r = .ok t) :
    s.keyed = true ∧ s.blkCount.toNat ≤ s.params.maxBlocks ∧
    (∀ b ∈ s.slots s.blkCount.toNat, wellFormedBlock s.params.width b = true) ∧ r = .ok t := by
  obtain ⟨hk, h⟩ := State.needKeyed_ok h
  obtain ⟨hl, h⟩ := needLength_ok h
  obtain ⟨ha, h⟩ := needAll_ok h
  exact ⟨hk, hl, ha, h⟩

theorem initCheck_ok {p : Params} {c : CipherCfg} {t : Nat} {r : CmdResult} {u : State}
    (h : initCheck p c t r = .ok u) :
    c.rounds.toNat ≤ p.rmax ∧ (c.ksel = .table → 1 ≤ t ∧ t ≤ p.tmax) ∧
    (c.ksel = .direct → t ≤ p.tmax ∧ t = c.rounds.toNat) ∧ r = .ok u := by
  unfold initCheck at h
  split at h
  · cases h
  split at h
  · cases h
  split at h
  · cases h
  split at h
  · cases h
  refine ⟨by omega, fun hk => ?_, fun hk => ?_, h⟩
  · simp_all
    omega
  · simp_all

/-- A command is the completion of its result. -/
theorem exec_complete (i : Instr) (s : State) : ∃ r, exec i s = s.complete r := by
  cases i <;>
    (simp only [exec, execNop, execInit, execPack, execUnpack, execFeval, execSplit, execJoin, execRoundFwd,
      execRoundInv, execEncBlock, execDecBlock, execEcbEnc, execEcbDec, execEncMsg, execDecMsg]
     exact ⟨_, rfl⟩)

/-- Every command answers a next state. -/
theorem exec_next (i : Instr) (s : State) : ∃ t, exec i s = .next t := by
  obtain ⟨r, hr⟩ := exec_complete i s
  rw [hr]
  exact State.complete_next s r

end Sys2Proof.Machine
end

