-- ==== Sys2Proof/Laws/Exec.lean ====
section
/-! SUPPORT. What each command can do, said once: it fails with an error code and writes the error record, or it
succeeds, and then its checks passed and its writes are these. -/

namespace Sys2Proof.Machine

/-- The condition under which a command of `s` succeeds with the writes that give `u` (before completion). -/
def Effect (i : Instr) (s u : State) : Prop :=
  match i with
  | .nop => u = s
  | .init => ∃ c, parseCfg s.cfg = some c ∧ c.rounds.toNat ≤ s.params.rmax ∧
      (c.ksel = .table → 1 ≤ s.tableLen.toNat ∧ s.tableLen.toNat ≤ s.params.tmax) ∧
      (c.ksel = .direct → s.tableLen.toNat ≤ s.params.tmax ∧ s.tableLen.toNat = c.rounds.toNat) ∧ u = s.latch c
  | .pack => s.keyed = true ∧ s.msgLen.toNat ≤ s.params.msgBytes ∧
      (∀ b ∈ s.message s.msgLen.toNat, s.acfg.charset.accepts b = true) ∧ u = s.storePacked s.packed
  | .unpack => s.keyed = true ∧ s.blkCount.toNat ≤ s.params.maxBlocks ∧ s.origLen.toNat ≤ s.params.msgBytes ∧
      s.blkCount.toNat = s.params.width.blocksFor s.origLen.toNat ∧
      (∀ b ∈ s.slots s.blkCount.toNat, wellFormedBlock s.params.width b = true) ∧
      u = s.storeMessage (s.unpacked (s.slots s.blkCount.toNat))
  | .feval idx => s.keyed = true ∧ idx.toNat < s.acfg.rounds.toNat ∧
      u = { s with fout := roundF s.acfg.fsel s.halfR (s.subkey idx.toNat) }
  | .split => wellFormedBlock s.params.width s.bin = true ∧ u = s.putHalves (splitBlock s.params.width s.bin)
  | .join => u = { s with bout := joinBlock s.params.width s.halfL s.halfR }
  | .roundFwd idx => s.keyed = true ∧ idx.toNat < s.acfg.rounds.toNat ∧
      u = s.putHalves (fwdRound s.acfg.fsel (s.subkey idx.toNat) (s.halfL, s.halfR))
  | .roundInv idx => s.keyed = true ∧ idx.toNat < s.acfg.rounds.toNat ∧
      u = s.putHalves (invRound s.acfg.fsel (s.subkey idx.toNat) (s.halfL, s.halfR))
  | .encBlock => s.keyed = true ∧ wellFormedBlock s.params.width s.bin = true ∧
      u = s.putBlock (encryptHalves s.params.width s.acfg.fsel s.subkeys s.bin)
  | .decBlock => s.keyed = true ∧ wellFormedBlock s.params.width s.bin = true ∧
      u = s.putBlock (decryptHalves s.params.width s.acfg.fsel s.subkeys s.bin)
  | .ecbEnc => s.keyed = true ∧ s.blkCount.toNat ≤ s.params.maxBlocks ∧
      (∀ b ∈ s.slots s.blkCount.toNat, wellFormedBlock s.params.width b = true) ∧ u = s.mapSlots s.enc
  | .ecbDec => s.keyed = true ∧ s.blkCount.toNat ≤ s.params.maxBlocks ∧
      (∀ b ∈ s.slots s.blkCount.toNat, wellFormedBlock s.params.width b = true) ∧ u = s.mapSlots s.dec
  | .encMsg => s.keyed = true ∧ s.msgLen.toNat ≤ s.params.msgBytes ∧
      (∀ b ∈ s.message s.msgLen.toNat, s.acfg.charset.accepts b = true) ∧ u = s.storePacked (s.packed.map s.enc)
  | .decMsg => s.keyed = true ∧ s.blkCount.toNat ≤ s.params.maxBlocks ∧ s.origLen.toNat ≤ s.params.msgBytes ∧
      s.blkCount.toNat = s.params.width.blocksFor s.origLen.toNat ∧
      (∀ b ∈ s.slots s.blkCount.toNat, wellFormedBlock s.params.width b = true) ∧
      u = (s.mapSlots s.dec).storeMessage (s.unpacked ((s.slots s.blkCount.toNat).map s.dec))

/-! ### An error code is never the success code -/

/-- A result that carries an error carries one of the codes 1 to 8. -/
def CmdResult.Honest : CmdResult → Prop
  | .ok _ => True
  | .err c _ => c ≠ .ok

theorem CmdResult.ok_honest (u : State) : (CmdResult.ok u).Honest := True.intro

theorem State.needKeyed_honest {s : State} {r : CmdResult} (h : r.Honest) : (s.needKeyed r).Honest := by
  unfold State.needKeyed
  split
  · exact h
  · simp [CmdResult.Honest]

theorem State.needIndex_honest {s : State} {idx : BitVec 8} {r : CmdResult} (h : r.Honest) :
    (s.needIndex idx r).Honest := by
  unfold State.needIndex
  split
  · exact h
  · simp [CmdResult.Honest]

theorem State.needBin_honest {s : State} {r : CmdResult} (h : r.Honest) : (s.needBin r).Honest := by
  unfold State.needBin
  split
  · exact h
  · simp [CmdResult.Honest]

theorem needLength_honest {n limit off : Nat} {r : CmdResult} (h : r.Honest) :
    (needLength n limit off r).Honest := by
  unfold needLength
  split
  · simp [CmdResult.Honest]
  · exact h

theorem needAll_honest {α : Type} {good : α → Bool} {xs : List α} {c : ErrCode} {r : CmdResult} (hc : c ≠ .ok)
    (h : r.Honest) : (needAll good xs c r).Honest := by
  unfold needAll
  split
  · exact hc
  · exact h

theorem needDecodeLength_honest {p : Params} {count n : Nat} {r : CmdResult} (h : r.Honest) :
    (needDecodeLength p count n r).Honest := by
  unfold needDecodeLength
  repeat' split
  all_goals first | exact h | simp [CmdResult.Honest]

theorem initCheck_honest {p : Params} {c : CipherCfg} {t : Nat} {r : CmdResult} (h : r.Honest) :
    (initCheck p c t r).Honest := by
  unfold initCheck
  repeat' split
  all_goals first | exact h | simp [CmdResult.Honest]

theorem State.needMessage_honest {s : State} {r : CmdResult} (h : r.Honest) : (s.needMessage r).Honest :=
  State.needKeyed_honest (needLength_honest (needAll_honest (by simp) h))

theorem State.needBlocks_honest {s : State} {r : CmdResult} (h : r.Honest) : (s.needBlocks r).Honest :=
  State.needKeyed_honest (needDecodeLength_honest (needAll_honest (by simp) h))

theorem State.needBlockBuffer_honest {s : State} {r : CmdResult} (h : r.Honest) : (s.needBlockBuffer r).Honest :=
  State.needKeyed_honest (needLength_honest (needAll_honest (by simp) h))

/-! ### The inversion -/

/-- The completion of an honest result: an error with its code, or the effect. -/
theorem State.complete_honest {s t : State} {r : CmdResult} {P : State → Prop} (hr : r.Honest)
    (hP : ∀ u, r = .ok u → P u) (h : s.complete r = .next t) :
    (∃ c n, c ≠ .ok ∧ t = s.raiseError c n) ∨ (∃ u, P u ∧ t = u.succeed) := by
  rcases State.complete_cases h with ⟨u, rfl, rfl⟩ | ⟨c, n, rfl, rfl⟩
  · exact .inr ⟨u, hP u rfl, rfl⟩
  · exact .inl ⟨c, n, hr, rfl⟩

/-- Everything a command can do: it fails with a code other than OK and writes only the error record, or it succeeds
with its effect. -/
theorem exec_cases {i : Instr} {s t : State} (h : exec i s = .next t) :
    (∃ c n, c ≠ .ok ∧ t = s.raiseError c n) ∨ (∃ u, Effect i s u ∧ t = u.succeed) := by
  cases i with
  | nop => exact State.complete_honest (r := .ok s) (CmdResult.ok_honest _) (fun u hu => (CmdResult.ok.inj hu).symm) h
  | init =>
    refine State.complete_honest ?_ ?_ h
    · split
      · simp [CmdResult.Honest]
      · exact initCheck_honest (CmdResult.ok_honest _)
    · intro u hu
      split at hu
      · cases hu
      · next c hc =>
        obtain ⟨h1, h2, h3, h4⟩ := initCheck_ok hu
        exact ⟨c, hc, h1, h2, h3, (CmdResult.ok.inj h4).symm⟩
  | pack =>
    refine State.complete_honest (State.needMessage_honest (CmdResult.ok_honest _)) (fun u hu => ?_) h
    obtain ⟨h1, h2, h3, h4⟩ := State.needMessage_ok hu
    exact ⟨h1, h2, h3, (CmdResult.ok.inj h4).symm⟩
  | unpack =>
    refine State.complete_honest (State.needBlocks_honest (CmdResult.ok_honest _)) (fun u hu => ?_) h
    obtain ⟨h1, h2, h3, h4, h5, h6⟩ := State.needBlocks_ok hu
    exact ⟨h1, h2, h3, h4, h5, (CmdResult.ok.inj h6).symm⟩
  | feval idx =>
    refine State.complete_honest (State.needKeyed_honest (State.needIndex_honest (CmdResult.ok_honest _))) (fun u hu => ?_) h
    obtain ⟨h1, hu⟩ := State.needKeyed_ok hu
    obtain ⟨h2, hu⟩ := State.needIndex_ok hu
    exact ⟨h1, h2, (CmdResult.ok.inj hu).symm⟩
  | split =>
    refine State.complete_honest (State.needBin_honest (CmdResult.ok_honest _)) (fun u hu => ?_) h
    obtain ⟨h1, hu⟩ := State.needBin_ok hu
    exact ⟨h1, (CmdResult.ok.inj hu).symm⟩
  | join => exact State.complete_honest (r := .ok _) (CmdResult.ok_honest _) (fun u hu => (CmdResult.ok.inj hu).symm) h
  | roundFwd idx =>
    refine State.complete_honest (State.needKeyed_honest (State.needIndex_honest (CmdResult.ok_honest _))) (fun u hu => ?_) h
    obtain ⟨h1, hu⟩ := State.needKeyed_ok hu
    obtain ⟨h2, hu⟩ := State.needIndex_ok hu
    exact ⟨h1, h2, (CmdResult.ok.inj hu).symm⟩
  | roundInv idx =>
    refine State.complete_honest (State.needKeyed_honest (State.needIndex_honest (CmdResult.ok_honest _))) (fun u hu => ?_) h
    obtain ⟨h1, hu⟩ := State.needKeyed_ok hu
    obtain ⟨h2, hu⟩ := State.needIndex_ok hu
    exact ⟨h1, h2, (CmdResult.ok.inj hu).symm⟩
  | encBlock =>
    refine State.complete_honest (State.needKeyed_honest (State.needBin_honest (CmdResult.ok_honest _))) (fun u hu => ?_) h
    obtain ⟨h1, hu⟩ := State.needKeyed_ok hu
    obtain ⟨h2, hu⟩ := State.needBin_ok hu
    exact ⟨h1, h2, (CmdResult.ok.inj hu).symm⟩
  | decBlock =>
    refine State.complete_honest (State.needKeyed_honest (State.needBin_honest (CmdResult.ok_honest _))) (fun u hu => ?_) h
    obtain ⟨h1, hu⟩ := State.needKeyed_ok hu
    obtain ⟨h2, hu⟩ := State.needBin_ok hu
    exact ⟨h1, h2, (CmdResult.ok.inj hu).symm⟩
  | ecbEnc =>
    refine State.complete_honest (State.needBlockBuffer_honest (CmdResult.ok_honest _)) (fun u hu => ?_) h
    obtain ⟨h1, h2, h3, h4⟩ := State.needBlockBuffer_ok hu
    exact ⟨h1, h2, h3, (CmdResult.ok.inj h4).symm⟩
  | ecbDec =>
    refine State.complete_honest (State.needBlockBuffer_honest (CmdResult.ok_honest _)) (fun u hu => ?_) h
    obtain ⟨h1, h2, h3, h4⟩ := State.needBlockBuffer_ok hu
    exact ⟨h1, h2, h3, (CmdResult.ok.inj h4).symm⟩
  | encMsg =>
    refine State.complete_honest (State.needMessage_honest (CmdResult.ok_honest _)) (fun u hu => ?_) h
    obtain ⟨h1, h2, h3, h4⟩ := State.needMessage_ok hu
    exact ⟨h1, h2, h3, (CmdResult.ok.inj h4).symm⟩
  | decMsg =>
    refine State.complete_honest (State.needBlocks_honest (CmdResult.ok_honest _)) (fun u hu => ?_) h
    obtain ⟨h1, h2, h3, h4, h5, h6⟩ := State.needBlocks_ok hu
    exact ⟨h1, h2, h3, h4, h5, (CmdResult.ok.inj h6).symm⟩

/-- What no effect touches: the build, the error record, the words of the last command, the staging configuration, BIN,
and the model's own fields. -/
theorem Effect.frame {i : Instr} {s u : State} (h : Effect i s u) :
    u.params = s.params ∧ u.busy = s.busy ∧ u.errSticky = s.errSticky ∧ u.overrun = s.overrun ∧
    u.errCmd = s.errCmd ∧ u.errInfo = s.errInfo ∧ u.lastCmd = s.lastCmd ∧ u.pending = s.pending ∧ u.cfg = s.cfg ∧
    u.tableLen = s.tableLen ∧ u.tab = s.tab ∧ u.mkey = s.mkey ∧ u.bin = s.bin ∧ u.inputs = s.inputs ∧
    u.readLog = s.readLog ∧ u.draws = s.draws := by
  cases i <;> simp only [Effect] at h
  case init =>
    obtain ⟨c, _, _, _, _, rfl⟩ := h
    simp
  all_goals
    obtain ⟨_, _, _, _, _, rfl⟩ := h
    simp

end Sys2Proof.Machine
end

