-- ==== Sys2Proof/Laws/KeySchedule.lean ====
section
/-! SUPPORT. What the key schedule answers: always as many subkeys as rounds, each H bits wide. -/

namespace Sys2Proof.Machine

/-- "Its result has exactly r entries" (spec/42_key_schedule.md R102). -/
@[simp] theorem derive_length (p : Params) (k : KeyPolicy) (r : Nat) (tab : List Word) (t : Nat) (mkey : Word) :
    (derive p k r tab t mkey).length = r := by
  cases k <;> simp [derive, deriveTable, deriveArith, deriveDirect]

/-- An entry of a list of H-bit values is an H-bit value, and so is the 0 beyond its end. -/
theorem getD_isHalf {w : BlockWidth} {xs : List Word} (h : xs.all w.isHalf = true) (i : Nat) :
    w.isHalf (xs.getD i 0#32) = true := by
  rw [List.getD_eq_getElem?_getD]
  cases hx : xs[i]? with
  | none => exact isHalf_zero _
  | some v => exact List.all_eq_true.1 h v (List.mem_of_getElem? hx)

/-- Subkeys derived from an H-bit table are H bits wide (spec/42_key_schedule.md R102). -/
theorem derive_isHalf (p : Params) (k : KeyPolicy) (r : Nat) {tab : List Word} (t : Nat) (mkey : Word)
    (h : tab.all p.width.isHalf = true) : (derive p k r tab t mkey).all p.width.isHalf = true := by
  rw [List.all_eq_true]
  intro x hx
  cases k <;> simp only [derive, deriveTable, deriveArith, deriveDirect, List.mem_map] at hx <;>
    obtain ⟨y, _, rfl⟩ := hx
  · exact getD_isHalf h _
  · exact truncH_isHalf _ _
  · exact getD_isHalf h _

end Sys2Proof.Machine
end

