-- ==== Sys2Proof/Laws/Memory.lean ====
section
/-! SUPPORT. The laws of the buffer memory: a read after a write, what a write leaves alone, and that every operation
keeps the canonical form. -/

namespace Sys2Proof.Machine

/-! ### One byte -/

theorem Memory.read?_write (m : List Host.Cell) (a x : Nat) (v : Byte) :
    Memory.read? (Memory.write m a v) x = if x = a then some v else Memory.read? m x := by
  induction m with
  | nil => simp [Memory.write, Memory.read?]
  | cons c m ih =>
    obtain ⟨a', b⟩ := c
    simp only [Memory.write]
    split
    · simp [Memory.read?]
    · split
      · subst a'
        simp only [Memory.read?]
        split <;> simp_all
      · simp only [Memory.read?, ih]
        split <;> split <;> simp_all

@[simp] theorem Memory.read?_write_same (m : List Host.Cell) (a : Nat) (v : Byte) :
    Memory.read? (Memory.write m a v) a = some v := by simp [Memory.read?_write]

theorem Memory.read?_write_other (m : List Host.Cell) {a x : Nat} (v : Byte) (h : x ≠ a) :
    Memory.read? (Memory.write m a v) x = Memory.read? m x := by simp [Memory.read?_write, h]

/-! ### The canonical form -/

/-- Every address of a list in canonical form is above its first one. -/
theorem Memory.wf_cons (c : Host.Cell) (m : List Host.Cell) :
    Memory.wf (c :: m) = true ↔ (∀ d ∈ m, c.1 < d.1) ∧ Memory.wf m = true := by
  induction m generalizing c with
  | nil => simp [Memory.wf]
  | cons d m ih =>
    have hd := ih d
    simp only [Memory.wf, Bool.and_eq_true, decide_eq_true_eq, List.mem_cons, forall_eq_or_imp]
    constructor
    · rintro ⟨h, hm⟩
      exact ⟨⟨h, fun e he => Nat.lt_trans h ((hd.1 hm).1 e he)⟩, hm⟩
    · rintro ⟨⟨h, _⟩, hm⟩
      exact ⟨h, hm⟩

theorem Memory.mem_write {m : List Host.Cell} {a : Nat} {v : Byte} {c : Host.Cell}
    (h : c ∈ Memory.write m a v) : c = (a, v) ∨ c ∈ m := by
  induction m with
  | nil => simpa [Memory.write] using h
  | cons d m ih =>
    simp only [Memory.write] at h
    split at h
    · simpa using h
    · split at h
      · simp only [List.mem_cons] at h ⊢
        tauto
      · simp only [List.mem_cons] at h ⊢
        rcases h with h | h
        · exact Or.inr (Or.inl h)
        · exact (ih h).imp_right Or.inr

theorem Memory.wf_write (m : List Host.Cell) (a : Nat) (v : Byte) (h : Memory.wf m = true) :
    Memory.wf (Memory.write m a v) = true := by
  induction m with
  | nil => rfl
  | cons d m ih =>
    obtain ⟨a', b⟩ := d
    have hm := (Memory.wf_cons _ _).1 h
    simp only [Memory.write]
    split
    · next hlt =>
      refine (Memory.wf_cons _ _).2 ⟨?_, h⟩
      intro e he
      rcases List.mem_cons.1 he with rfl | he
      · exact hlt
      · exact Nat.lt_trans hlt (hm.1 e he)
    · split
      · next _ heq =>
        subst heq
        exact (Memory.wf_cons _ _).2 hm
      · next hlt hne =>
        refine (Memory.wf_cons _ _).2 ⟨?_, ih hm.2⟩
        intro e he
        rcases Memory.mem_write he with rfl | he
        · show a' < a
          omega
        · exact hm.1 e he

theorem Memory.read?_none {m : List Host.Cell} {x : Nat} (h : ∀ d ∈ m, x < d.1) : Memory.read? m x = none := by
  induction m with
  | nil => rfl
  | cons d m ih =>
    have h1 := h d (by simp)
    simp only [Memory.read?]
    rw [if_neg (by omega)]
    exact ih fun e he => h e (by simp [he])

/-- Two memories in canonical form that read the same everywhere are the same list. -/
theorem Memory.eq_of_read? {m n : List Host.Cell} (hm : Memory.wf m = true) (hn : Memory.wf n = true)
    (h : ∀ x, Memory.read? m x = Memory.read? n x) : m = n := by
  induction m generalizing n with
  | nil =>
    cases n with
    | nil => rfl
    | cons d n => simpa [Memory.read?] using h d.1
  | cons c m ih =>
    cases n with
    | nil => simpa [Memory.read?] using h c.1
    | cons d n =>
      have hc := (Memory.wf_cons _ _).1 hm
      have hd := (Memory.wf_cons _ _).1 hn
      have hle : ¬ c.1 < d.1 := by
        intro hlt
        have hx := h c.1
        have h0 : Memory.read? (d :: n) c.1 = none :=
          Memory.read?_none fun e he => by
            rcases List.mem_cons.1 he with rfl | he
            · exact hlt
            · exact Nat.lt_trans hlt (hd.1 e he)
        rw [h0] at hx
        simp [Memory.read?] at hx
      have hge : ¬ d.1 < c.1 := by
        intro hlt
        have hx := h d.1
        have h0 : Memory.read? (c :: m) d.1 = none :=
          Memory.read?_none fun e he => by
            rcases List.mem_cons.1 he with rfl | he
            · exact hlt
            · exact Nat.lt_trans hlt (hc.1 e he)
        rw [h0] at hx
        simp [Memory.read?] at hx
      obtain ⟨a, v⟩ := c
      obtain ⟨b, w⟩ := d
      have hab : a = b := by
        simp only at hle hge
        omega
      subst hab
      have hv := h a
      simp only [Memory.read?, if_true, Option.some.injEq] at hv
      subst hv
      congr 1
      refine ih hc.2 hd.2 fun x => ?_
      have hx := h x
      simp only [Memory.read?] at hx
      by_cases hxa : x = a
      · subst hxa
        rw [Memory.read?_none hc.1, Memory.read?_none hd.1]
      · simpa [hxa] using hx

/-! ### Words, slots and runs of entries -/

/-- A slice of a slice. -/
theorem extractLsb'_extractLsb'_of_le {w s n t k : Nat} (b : BitVec w) (h : t + k ≤ n) :
    (b.extractLsb' s n).extractLsb' t k = b.extractLsb' (s + t) k := by
  apply BitVec.eq_of_getLsbD_eq
  intro i hi
  simp only [BitVec.getLsbD_extractLsb', hi, decide_true, Bool.true_and, Nat.add_assoc]
  have : t + i < n := by omega
  simp [this]

theorem Memory.read?_writeWord (m : List Host.Cell) (a x : Nat) (v : Word) :
    Memory.read? (Memory.writeWord m a v) x =
      if a ≤ x ∧ x < a + 4 then some (v.extractLsb' (8 * (x - a)) 8) else Memory.read? m x := by
  simp only [Memory.writeWord, Memory.read?_write]
  by_cases h : a ≤ x ∧ x < a + 4
  · rw [if_pos h]
    obtain ⟨t, rfl⟩ := Nat.exists_eq_add_of_le h.1
    have ht : t < 4 := by omega
    interval_cases t <;> simp
  · rw [if_neg h]
    rw [if_neg (by omega), if_neg (by omega), if_neg (by omega), if_neg (by omega)]

theorem Memory.read?_writeSlot (m : List Host.Cell) (j x : Nat) (b : Block) :
    Memory.read? (Memory.writeSlot m j b) x =
      if blkAddr j ≤ x ∧ x < blkAddr j + 8 then some (b.extractLsb' (8 * (x - blkAddr j)) 8)
      else Memory.read? m x := by
  simp only [Memory.writeSlot, Memory.read?_writeWord]
  by_cases h : blkAddr j ≤ x ∧ x < blkAddr j + 8
  · rw [if_pos h]
    obtain ⟨t, rfl⟩ := Nat.exists_eq_add_of_le h.1
    have ht : t < 8 := by omega
    interval_cases t <;> simp [extractLsb'_extractLsb'_of_le]
  · rw [if_neg h, if_neg (by omega), if_neg (by omega)]

/-- A slot's bytes lie outside the bytes of the other slots. -/
theorem blkAddr_disjoint {i j x : Nat} (h : i ≠ j) (hx : blkAddr i ≤ x ∧ x < blkAddr i + 8) :
    ¬(blkAddr j ≤ x ∧ x < blkAddr j + 8) := by
  simp only [blkAddr] at *
  omega

/-- What a run of slots leaves alone. -/
theorem Memory.read?_writeBlkFrom_other (bs : List Block) (m : List Host.Cell) (j x : Nat)
    (h : ∀ i < bs.length, ¬(blkAddr (j + i) ≤ x ∧ x < blkAddr (j + i) + 8)) :
    Memory.read? (Memory.writeBlkFrom m j bs) x = Memory.read? m x := by
  induction bs generalizing m j with
  | nil => rfl
  | cons b bs ih =>
    simp only [Memory.writeBlkFrom]
    rw [ih, Memory.read?_writeSlot, if_neg]
    · simpa using h 0 (by simp)
    · intro i hi
      have := h (i + 1) (by simpa using hi)
      rwa [Nat.add_assoc, Nat.add_comm 1 i]

/-- What a run of slots stores. -/
theorem Memory.read?_writeBlkFrom (bs : List Block) (m : List Host.Cell) (j i t : Nat) (hi : i < bs.length)
    (ht : t < 8) :
    Memory.read? (Memory.writeBlkFrom m j bs) (blkAddr (j + i) + t) = some (bs[i].extractLsb' (8 * t) 8) := by
  induction bs generalizing m j i with
  | nil => simp at hi
  | cons b bs ih =>
    simp only [Memory.writeBlkFrom]
    cases i with
    | zero =>
      rw [Memory.read?_writeBlkFrom_other, Memory.read?_writeSlot, Nat.add_zero, if_pos ⟨by omega, by omega⟩]
      · simp
      · intro i _
        exact blkAddr_disjoint (i := j + 0) (by omega) ⟨by omega, by omega⟩
    | succ i =>
      have := ih (Memory.writeSlot m j b) (j + 1) i (by simpa using hi)
      rw [show j + (i + 1) = j + 1 + i by omega]
      simpa using this

/-- What a run of message bytes leaves alone. -/
theorem Memory.read?_writeMsgFrom_other (bs : List Byte) (m : List Host.Cell) (k x : Nat)
    (h : ∀ i < bs.length, x ≠ msgAddr (k + i)) :
    Memory.read? (Memory.writeMsgFrom m k bs) x = Memory.read? m x := by
  induction bs generalizing m k with
  | nil => rfl
  | cons b bs ih =>
    simp only [Memory.writeMsgFrom]
    rw [ih, Memory.read?_write_other]
    · simpa using h 0 (by simp)
    · intro i hi
      have := h (i + 1) (by simpa using hi)
      rwa [Nat.add_assoc, Nat.add_comm 1 i]

/-- What a run of message bytes stores. -/
theorem Memory.read?_writeMsgFrom (bs : List Byte) (m : List Host.Cell) (k i : Nat) (hi : i < bs.length) :
    Memory.read? (Memory.writeMsgFrom m k bs) (msgAddr (k + i)) = some bs[i] := by
  induction bs generalizing m k i with
  | nil => simp at hi
  | cons b bs ih =>
    simp only [Memory.writeMsgFrom]
    cases i with
    | zero =>
      rw [Memory.read?_writeMsgFrom_other]
      · simp
      · intro i _
        simp only [msgAddr]
        omega
    | succ i =>
      have := ih (Memory.write m (msgAddr k) b) (k + 1) i (by simpa using hi)
      rw [show k + (i + 1) = k + 1 + i by omega]
      simpa using this

/-! ### Every operation keeps the canonical form -/

theorem Memory.wf_writeWord (m : List Host.Cell) (a : Nat) (v : Word) (h : Memory.wf m = true) :
    Memory.wf (Memory.writeWord m a v) = true :=
  Memory.wf_write _ _ _ (Memory.wf_write _ _ _ (Memory.wf_write _ _ _ (Memory.wf_write _ _ _ h)))

theorem Memory.wf_writeSlot (m : List Host.Cell) (j : Nat) (b : Block) (h : Memory.wf m = true) :
    Memory.wf (Memory.writeSlot m j b) = true :=
  Memory.wf_writeWord _ _ _ (Memory.wf_writeWord _ _ _ h)

theorem Memory.wf_writeBlkFrom (bs : List Block) (m : List Host.Cell) (j : Nat) (h : Memory.wf m = true) :
    Memory.wf (Memory.writeBlkFrom m j bs) = true := by
  induction bs generalizing m j with
  | nil => exact h
  | cons b bs ih => exact ih _ _ (Memory.wf_writeSlot _ _ _ h)

theorem Memory.wf_writeMsgFrom (bs : List Byte) (m : List Host.Cell) (k : Nat) (h : Memory.wf m = true) :
    Memory.wf (Memory.writeMsgFrom m k bs) = true := by
  induction bs generalizing m k with
  | nil => exact h
  | cons b bs ih => exact ih _ _ (Memory.wf_write _ _ _ h)

/-! ### Every operation keeps a property of the listed addresses -/

theorem Memory.all_write {q : Nat → Bool} (m : List Host.Cell) (a : Nat) (v : Byte)
    (h : m.all (fun c => q c.1) = true) (ha : q a = true) :
    (Memory.write m a v).all (fun c => q c.1) = true := by
  rw [List.all_eq_true] at *
  intro c hc
  rcases Memory.mem_write hc with rfl | hc
  · exact ha
  · exact h c hc

theorem Memory.all_writeWord {q : Nat → Bool} (m : List Host.Cell) (a : Nat) (v : Word)
    (h : m.all (fun c => q c.1) = true) (ha : ∀ t < 4, q (a + t) = true) :
    (Memory.writeWord m a v).all (fun c => q c.1) = true :=
  Memory.all_write _ _ _ (Memory.all_write _ _ _ (Memory.all_write _ _ _ (Memory.all_write _ _ _ h
    (ha 0 (by omega))) (ha 1 (by omega))) (ha 2 (by omega))) (ha 3 (by omega))

theorem Memory.all_writeBlkFrom {q : Nat → Bool} (bs : List Block) (m : List Host.Cell) (j : Nat)
    (h : m.all (fun c => q c.1) = true) (ha : ∀ i < bs.length, ∀ t < 8, q (blkAddr (j + i) + t) = true) :
    (Memory.writeBlkFrom m j bs).all (fun c => q c.1) = true := by
  induction bs generalizing m j with
  | nil => exact h
  | cons b bs ih =>
    refine ih _ _ (Memory.all_writeWord _ _ _ (Memory.all_writeWord _ _ _ h ?_) ?_) ?_
    · intro t ht
      exact ha 0 (by simp) t (by omega)
    · intro t ht
      have := ha 0 (by simp) (4 + t) (by omega)
      rwa [← Nat.add_assoc] at this
    · intro i hi t ht
      have := ha (i + 1) (by simpa using hi) t ht
      rwa [show j + (i + 1) = j + 1 + i by omega] at this

theorem Memory.all_writeMsgFrom {q : Nat → Bool} (bs : List Byte) (m : List Host.Cell) (k : Nat)
    (h : m.all (fun c => q c.1) = true) (ha : ∀ i < bs.length, q (msgAddr (k + i)) = true) :
    (Memory.writeMsgFrom m k bs).all (fun c => q c.1) = true := by
  induction bs generalizing m k with
  | nil => exact h
  | cons b bs ih =>
    refine ih _ _ (Memory.all_write _ _ _ h (ha 0 (by simp))) ?_
    intro i hi
    have := ha (i + 1) (by simpa using hi)
    rwa [show k + (i + 1) = k + 1 + i by omega] at this

/-! ### Reading entries back -/

/-- A state whose memory lists the byte at `a` reads that byte there, whatever the draws. -/
theorem State.peek_of_read? {s : State} {a : Nat} {b : Byte} (h : Memory.read? s.mem a = some b) : s.peek a = b := by
  simp [State.peek, h]

/-- A block is its eight bytes. -/
theorem Block.of_bytes (b : Block) :
    ((b.extractLsb' 56 8 ++ b.extractLsb' 48 8 ++ b.extractLsb' 40 8 ++ b.extractLsb' 32 8 : Word) ++
      (b.extractLsb' 24 8 ++ b.extractLsb' 16 8 ++ b.extractLsb' 8 8 ++ b.extractLsb' 0 8 : Word) : Block) = b := by
  apply BitVec.eq_of_getLsbD_eq
  intro i hi
  rw [BitVec.getLsbD_append, BitVec.getLsbD_append, BitVec.getLsbD_append, BitVec.getLsbD_append,
    BitVec.getLsbD_append, BitVec.getLsbD_append, BitVec.getLsbD_append]
  interval_cases i <;> simp

/-- A slot whose eight bytes are listed reads the block they are the bytes of. -/
theorem State.slot_of_read? {s : State} {j : Nat} {b : Block}
    (h : ∀ t < 8, Memory.read? s.mem (blkAddr j + t) = some (b.extractLsb' (8 * t) 8)) : s.slot j = b := by
  have p := fun t ht => State.peek_of_read? (h t ht)
  have p0 := p 0 (by omega)
  have p1 := p 1 (by omega)
  have p2 := p 2 (by omega)
  have p3 := p 3 (by omega)
  have p4 := p 4 (by omega)
  have p5 := p 5 (by omega)
  have p6 := p 6 (by omega)
  have p7 := p 7 (by omega)
  rw [Nat.add_zero] at p0
  simp only [State.slot, State.peekWord, Nat.add_assoc, Nat.reduceAdd, p0, p1, p2, p3, p4, p5, p6, p7]
  exact Block.of_bytes b

end Sys2Proof.Machine
end

