-- ==== Sys2Proof/Laws/PerInstr.lean ====
section
/-! SUPPORT. What holds of every command's word, proved command by command: it lies in the command's row of
spec/opcode_table.json. -/

namespace Sys2Proof.Laws

/-- The match and the mask of a command's row of spec/opcode_table.json. -/
def row : Instr → Word × Word
  | .nop => (0x00000000#32, 0xFFFFFFFF#32)
  | .init => (0x00000001#32, 0xFFFFFFFF#32)
  | .pack => (0x00000008#32, 0xFFFFFFFF#32)
  | .unpack => (0x00000009#32, 0xFFFFFFFF#32)
  | .feval _ => (0x00000010#32, 0xFFFF00FF#32)
  | .split => (0x00000020#32, 0xFFFFFFFF#32)
  | .join => (0x00000021#32, 0xFFFFFFFF#32)
  | .roundFwd _ => (0x00000022#32, 0xFFFF00FF#32)
  | .roundInv _ => (0x00000023#32, 0xFFFF00FF#32)
  | .encBlock => (0x00000024#32, 0xFFFFFFFF#32)
  | .decBlock => (0x00000025#32, 0xFFFFFFFF#32)
  | .ecbEnc => (0x00000030#32, 0xFFFFFFFF#32)
  | .ecbDec => (0x00000031#32, 0xFFFFFFFF#32)
  | .encMsg => (0x00000032#32, 0xFFFFFFFF#32)
  | .decMsg => (0x00000033#32, 0xFFFFFFFF#32)

/-- The word of `i` has the fixed bits of its row, and RSVD = 0. -/
def RowMatch.Statement (i : Instr) : Prop :=
  encode i &&& (row i).2 = (row i).1 ∧ (encode i).extractLsb' 16 16 = 0#16

/-- A word with any index keeps the OP that it is given, and has RSVD = 0. -/
theorem commandWord_row (idx op : BitVec 8) :
    commandWord idx op &&& 0xFFFF00FF#32 = op.setWidth 32 ∧ (commandWord idx op).extractLsb' 16 16 = 0#16 := by
  constructor
  · apply BitVec.eq_of_getLsbD_eq
    intro i hi
    simp only [commandWord, BitVec.getLsbD_and, BitVec.getLsbD_append, BitVec.getLsbD_setWidth]
    interval_cases i <;> simp
  · apply BitVec.eq_of_getLsbD_eq
    intro i hi
    simp only [commandWord, BitVec.getLsbD_extractLsb', BitVec.getLsbD_append]
    interval_cases i <;> simp

theorem RowMatch.nop : RowMatch.Statement .nop := by
  constructor <;> decide

theorem RowMatch.init : RowMatch.Statement .init := by
  constructor <;> decide

theorem RowMatch.pack : RowMatch.Statement .pack := by
  constructor <;> decide

theorem RowMatch.unpack : RowMatch.Statement .unpack := by
  constructor <;> decide

theorem RowMatch.feval (idx : BitVec 8) : RowMatch.Statement (.feval idx) :=
  commandWord_row idx 0x10#8

theorem RowMatch.split : RowMatch.Statement .split := by
  constructor <;> decide

theorem RowMatch.join : RowMatch.Statement .join := by
  constructor <;> decide

theorem RowMatch.roundFwd (idx : BitVec 8) : RowMatch.Statement (.roundFwd idx) :=
  commandWord_row idx 0x22#8

theorem RowMatch.roundInv (idx : BitVec 8) : RowMatch.Statement (.roundInv idx) :=
  commandWord_row idx 0x23#8

theorem RowMatch.encBlock : RowMatch.Statement .encBlock := by
  constructor <;> decide

theorem RowMatch.decBlock : RowMatch.Statement .decBlock := by
  constructor <;> decide

theorem RowMatch.ecbEnc : RowMatch.Statement .ecbEnc := by
  constructor <;> decide

theorem RowMatch.ecbDec : RowMatch.Statement .ecbDec := by
  constructor <;> decide

theorem RowMatch.encMsg : RowMatch.Statement .encMsg := by
  constructor <;> decide

theorem RowMatch.decMsg : RowMatch.Statement .decMsg := by
  constructor <;> decide

end Sys2Proof.Laws
end

