-- ==== Sys2Proof/Laws/Serializer.lean ====
section
/-! SUPPORT. The serializer's parts: how many blocks and padding bytes a message takes, what a group of bytes makes,
and where a byte of a run of blocks stands. -/

namespace Sys2Proof.Machine

/-- The blocks of n bytes hold them with less than one block to spare, and all but the last are full
(spec/41_bitpacker.md R91). -/
theorem BlockWidth.blocksFor_bounds (w : BlockWidth) (n : Nat) :
    n ≤ w.blocksFor n * w.bytes ∧ w.blocksFor n * w.bytes - n < w.bytes ∧ (w.blocksFor n - 1) * w.bytes ≤ n := by
  cases w <;> simp only [BlockWidth.blocksFor, BlockWidth.bytes] <;> omega

theorem BlockWidth.bytes_pos (w : BlockWidth) : 0 < w.bytes := by cases w <;> decide

theorem padMessage_length (w : BlockWidth) (pad : PadPolicy) (fill : Byte) (m : List Byte) :
    (padMessage w pad fill m).length = w.blocksFor m.length * w.bytes := by
  obtain ⟨h1, _, h3⟩ := BlockWidth.blocksFor_bounds w m.length
  cases pad <;> simp [padMessage] <;> omega

@[simp] theorem byteGroups_length (size count : Nat) (s : List Byte) : (byteGroups size count s).length = count := by
  induction count generalizing s with
  | zero => rfl
  | succ c ih => simp [byteGroups, ih]

theorem byteGroups_getElem? (size : Nat) {count j : Nat} (s : List Byte) (hj : j < count) :
    (byteGroups size count s)[j]? = some ((s.drop (j * size)).take size) := by
  induction count generalizing s j with
  | zero => omega
  | succ c ih =>
    cases j with
    | zero => simp [byteGroups]
    | succ j =>
      simp only [byteGroups, List.getElem?_cons_succ]
      rw [ih _ (by omega), List.drop_drop]
      congr 3
      rw [Nat.add_mul]
      omega

/-- The groups of a sequence of whole groups are the sequence. -/
theorem byteGroups_flatten {size count : Nat} {s : List Byte} (h : s.length = count * size) :
    (byteGroups size count s).flatten = s := by
  induction count generalizing s with
  | zero =>
    have : s = [] := List.eq_nil_of_length_eq_zero (by simpa using h)
    simp [byteGroups, this]
  | succ c ih =>
    simp only [byteGroups, List.flatten_cons]
    rw [ih (by simp [h, Nat.add_mul])]
    simp

@[simp] theorem packMessage_length (w : BlockWidth) (pad : PadPolicy) (fill : Byte) (m : List Byte) :
    (packMessage w pad fill m).length = w.blocksFor m.length := by
  simp [packMessage]

/-- Block j is the block of byte group j of the padded message. -/
theorem packMessage_getElem? (w : BlockWidth) (pad : PadPolicy) (fill : Byte) (m : List Byte) {j : Nat}
    (hj : j < w.blocksFor m.length) :
    (packMessage w pad fill m)[j]? =
      some (groupBlock (((padMessage w pad fill m).drop (j * w.bytes)).take w.bytes)) := by
  simp [packMessage, byteGroups_getElem? _ _ hj]

/-- The block of a whole group is well-formed, and its bytes are the group's, the first most significant
(spec/20_memory.md R53). -/
theorem groupBlock_bytes {w : BlockWidth} {bs : List Byte} (h : bs.length = w.bytes) :
    (groupBlock bs).toNat < 2 ^ w.bits ∧
    ∀ t < w.bytes, (groupBlock bs).extractLsb' (w.bits - 8 - 8 * t) 8 = bs.getD t 0#8 := by
  cases w with
  | w8 =>
    match bs, h with
    | [x], _ =>
      constructor
      · simp [groupBlock, BlockWidth.bits]
        omega
      · intro t ht
        simp only [BlockWidth.bytes] at ht
        interval_cases t
        apply BitVec.eq_of_getLsbD_eq
        intro i hi
        simp [groupBlock, BlockWidth.bits, hi]
        omega
  | w64 =>
    match bs, h with
    | [a, b, c, d, e, f, g, x], _ =>
      constructor
      · simpa [BlockWidth.bits] using (groupBlock [a, b, c, d, e, f, g, x]).isLt
      · intro t ht
        simp only [BlockWidth.bytes] at ht
        interval_cases t <;>
          (apply BitVec.eq_of_getLsbD_eq
           intro i hi
           simp [groupBlock, BlockWidth.bits]
           interval_cases i <;> simp)

/-- The bytes of a block, as a list, have the block's length. -/
@[simp] theorem blockBytes_length (w : BlockWidth) (b : Block) : (blockBytes w b).length = w.bytes := by
  simp [blockBytes]

theorem flatMap_blockBytes_length (w : BlockWidth) (bs : List Block) :
    (bs.flatMap (blockBytes w)).length = bs.length * w.bytes := by
  induction bs with
  | nil => simp
  | cons b bs ih =>
    simp [ih, Nat.add_mul]
    omega

/-- Byte q of a run of blocks is byte q mod B of block q / B (spec/41_bitpacker.md R93). -/
theorem flatMap_blockBytes_getElem? (w : BlockWidth) (bs : List Block) {q : Nat} (h : q < bs.length * w.bytes) :
    (bs.flatMap (blockBytes w))[q]? =
      some ((bs.getD (q / w.bytes) 0#64).extractLsb' (w.bits - 8 - 8 * (q % w.bytes)) 8) := by
  induction bs generalizing q with
  | nil => simp at h
  | cons b bs ih =>
    have hp := BlockWidth.bytes_pos w
    rw [List.flatMap_cons, List.getElem?_append]
    split
    · next hq =>
      rw [blockBytes_length] at hq
      rw [Nat.div_eq_of_lt hq, Nat.mod_eq_of_lt hq]
      simp [blockBytes, hq]
    · next hq =>
      rw [blockBytes_length] at hq ⊢
      simp only [List.length_cons, Nat.add_mul] at h
      rw [ih (by omega)]
      obtain ⟨q, rfl⟩ := Nat.exists_eq_add_of_le (show w.bytes ≤ q by omega)
      simp [hp]

end Sys2Proof.Machine
end

