-- ==== Sys2Proof/Laws/Step.lean ====
section
/-! SUPPORT. What the engine's turn and a move from outside can do, said once, and that a run that has ended stays
ended. -/

namespace Sys2Proof.Machine

/-- Everything the engine's turn can do: nothing while BUSY = 0; else the command's effect and its completion, or the
error record. -/
theorem State.engineTurn_cases {s t : State} (h : s.engineTurn = .next t) :
    (s.busy = false ∧ t = s) ∨
    (s.busy = true ∧ ∃ c n, c ≠ .ok ∧ t = s.raiseError c n) ∨
    (s.busy = true ∧ ∃ i u, decode s.fetch = .ok i ∧ Effect i s u ∧ t = u.succeed) := by
  unfold State.engineTurn at h
  split at h
  · next hb =>
    split at h
    · next i hi =>
      rcases exec_cases h with ⟨c, n, hc, rfl⟩ | ⟨u, hu, rfl⟩
      · exact .inr (.inl ⟨hb, c, n, hc, rfl⟩)
      · exact .inr (.inr ⟨hb, i, u, hi, hu, rfl⟩)
    · exact .inr (.inl ⟨hb, .illegalCommand, _, by simp, (Host.Outcome.next.inj h).symm⟩)
  · next hb => exact .inl ⟨by simpa using hb, (Host.Outcome.next.inj h).symm⟩

/-- The engine's turn leaves the schedule alone and leaves nothing pending. -/
theorem State.engineTurn_inputs_busy {s t : State} (h : s.engineTurn = .next t) :
    t.inputs = s.inputs ∧ t.busy = false := by
  rcases State.engineTurn_cases h with ⟨hb, rfl⟩ | ⟨-, c, n, -, rfl⟩ | ⟨-, i, u, -, hu, rfl⟩
  · exact ⟨rfl, hb⟩
  · simp
  · simp [hu.frame]

/-- What is left after the run of a host program has ended (R87) is the engine's turn or a hardware reset, which leave it
ended. -/
theorem State.ended_step {s t : State} (he : s.ended = true) (h : step s = .next t) : t.ended = true := by
  simp only [State.ended, Bool.and_eq_true, Bool.not_eq_true'] at he ⊢
  obtain ⟨hi, hb⟩ := he
  unfold step at h
  split at h
  · split at h
    · obtain ⟨h1, h2⟩ := State.engineTurn_inputs_busy h
      exact ⟨by rw [h1, hi], h2⟩
    · next rest hs =>
      obtain ⟨h1, h2⟩ := State.engineTurn_inputs_busy h
      simp only [hs, List.any_cons, Bool.or_eq_false_iff] at hi
      exact ⟨by rw [h1]; exact hi.2, h2⟩
    · next m rest hs =>
      simp only [hs, List.any_cons, Bool.or_eq_false_iff] at hi
      cases m with
      | read off bytes => simp [Input.isHostAccess] at hi
      | write off bytes v => simp [Input.isHostAccess] at hi
      | hardReset =>
        obtain rfl := Host.Outcome.next.inj h
        exact ⟨hi.2, rfl⟩
  · cases h

end Sys2Proof.Machine
end

