-- ==== Sys2Proof/Tests/Slice0.lean ====
section
/-! SUPPORT. The model's own tests: the checks on what it is given, the decoding of words written out from
spec/30_encoding.md R65 to R68, one step or two of each command against spec/95_test_vectors.md, and for every statement
with hypotheses a state and operands that meet them. -/

namespace Sys2Proof.Tests

open Sys2Proof Sys2Proof.Machine Host

/-! ### The checks of WellFormed -/

theorem test_params_default8 : Params.default8.wf = true := by decide
theorem test_params_default64 : Params.default64.wf = true := by decide
theorem test_params_no_rounds : { Params.default8 with rmax := 0 }.wf = false := by decide
theorem test_params_rmax_too_big : { Params.default8 with rmax := 256 }.wf = false := by decide
theorem test_params_no_table : { Params.default64 with tmax := 0 }.wf = false := by decide
theorem test_params_tmax_too_big : { Params.default8 with tmax := 256 }.wf = false := by decide
theorem test_params_no_message : { Params.default8 with msgBytes := 0 }.wf = false := by decide
theorem test_params_message_too_big : { Params.default8 with msgBytes := 4097 }.wf = false := by decide
theorem test_params_even_constant : { Params.default8 with ksConst := 0x9E3779B8#32 }.wf = false := by decide
theorem test_params_image_too_long : { Params.default8 with tmax := 3 }.wf = false := by decide
theorem test_params_image_too_wide : { Params.default8 with tableInit := [0x10#32] }.wf = false := by decide

/-- A width other than 8 or 64 is rejected (spec/00_scope.md R7). -/
theorem test_width_check :
    BlockWidth.ofBits? 8 = some .w8 ∧ BlockWidth.ofBits? 64 = some .w64 ∧ BlockWidth.ofBits? 16 = none ∧
    BlockWidth.ofBits? 7 = none := by decide

/-- A step of an ill-formed build is refused. -/
theorem test_step_rejects_build :
    step { State.reset with params := { Params.default8 with rmax := 0 } } = .refused .buildRejected := by rfl

/-- V-D8 to V-D12: words that the word check refuses. -/
theorem test_illegal_words :
    [0x00000100#32, 0x00010022#32, 0x00000002#32, 0x000000FF#32, 0x00000124#32].all (fun w => !legalWord w) = true := by
  decide

/-! ### Decoding: each word is written out bit by bit, RSVD IDX OP, from R65 to R68 -/

theorem test_decode_nop : decode 0b0000000000000000_00000000_00000000#32 = .ok .nop := by decide
theorem test_decode_init : decode 0b0000000000000000_00000000_00000001#32 = .ok .init := by decide
theorem test_decode_pack : decode 0b0000000000000000_00000000_00001000#32 = .ok .pack := by decide
theorem test_decode_unpack : decode 0b0000000000000000_00000000_00001001#32 = .ok .unpack := by decide
theorem test_decode_feval : decode 0b0000000000000000_11111111_00010000#32 = .ok (.feval 255#8) := by decide
theorem test_decode_split : decode 0b0000000000000000_00000000_00100000#32 = .ok .split := by decide
theorem test_decode_join : decode 0b0000000000000000_00000000_00100001#32 = .ok .join := by decide
theorem test_decode_roundFwd : decode 0b0000000000000000_00000010_00100010#32 = .ok (.roundFwd 2#8) := by decide
theorem test_decode_roundInv : decode 0b0000000000000000_00000011_00100011#32 = .ok (.roundInv 3#8) := by decide
theorem test_decode_encBlock : decode 0b0000000000000000_00000000_00100100#32 = .ok .encBlock := by decide
theorem test_decode_decBlock : decode 0b0000000000000000_00000000_00100101#32 = .ok .decBlock := by decide
theorem test_decode_ecbEnc : decode 0b0000000000000000_00000000_00110000#32 = .ok .ecbEnc := by decide
theorem test_decode_ecbDec : decode 0b0000000000000000_00000000_00110001#32 = .ok .ecbDec := by decide
theorem test_decode_encMsg : decode 0b0000000000000000_00000000_00110010#32 = .ok .encMsg := by decide
theorem test_decode_decMsg : decode 0b0000000000000000_00000000_00110011#32 = .ok .decMsg := by decide

theorem test_decode_idx_in_N : decode 0x00000124#32 = .error .indexNotZero := by decide
theorem test_decode_rsvd : decode 0x00010022#32 = .error .reservedNotZero := by decide
theorem test_decode_unlisted : decode 0x000000FF#32 = .error .unlistedOp := by decide

/-- An opcode-table word reaches the decoder as it stands. -/
theorem test_table_word : decodeTableWord 32 0x00000222 = some (.roundFwd 2#8) := by decide

/-! ### States for the tests -/

/-- The active configuration with ROUNDS 4, FILL 0x20 and the given selectors. -/
def cfgOf (f : RoundFn) (k : KeyPolicy) (pad : PadPolicy) (cs : Charset) : CipherCfg :=
  { rounds := 4#8, fsel := f, ksel := k, pad := pad, charset := cs, fill := 0x20#8 }

/-- "W=8 default instance" of spec/95_test_vectors.md, with the function `f`. -/
def keyed8 (f : RoundFn) : State :=
  { State.reset with
    keyed := true, acfg := cfgOf f .table .fillerTail .bytes
    sk := [0xE#32, 0x4#32, 0xD#32, 0x1#32] ++ List.replicate 12 0#32 }

/-- "W=64 §8 instance" of spec/95_test_vectors.md, with XOR and the padding `pad`. -/
def keyed64 (pad : PadPolicy) : State :=
  { State.resetOf Params.default64 with
    keyed := true, acfg := cfgOf .xor .arith pad .bytes, mkey := 0xA3B15C97#32
    sk := [0xA3B15C97#32, 0x3D86252E#32, 0x9FDFAFE5#32, 0x791731BC#32] ++ List.replicate 12 0#32 }

/-- `s` with a message in MSG, and its length in MSG_LEN. -/
def withMessage (s : State) (m : List Byte) : State :=
  { s with mem := Memory.writeMsgFrom s.mem 0 m, msgLen := BitVec.ofNat 16 m.length }

/-- `s` with blocks in BLK, their number in BLK_COUNT, and ORIG_LEN. -/
def withBlocks (s : State) (bs : List Block) (n : Nat) : State :=
  { s with mem := Memory.writeBlkFrom s.mem 0 bs, blkCount := BitVec.ofNat 16 bs.length
           origLen := BitVec.ofNat 16 n }

/-- `s` with a command word pending. -/
def issued (s : State) (w : Word) : State := s.issue w

/-- What `f` sees in the next state, none where there is none. -/
def onNext {α : Type} (o : Outcome State Fault Refusal) (f : State → α) : Option α :=
  match o with
  | .next t => some (f t)
  | _ => none

/-- "Hi!" in ASCII. -/
def hi : List Byte := [0x48#8, 0x69#8, 0x21#8]

/-- "Crypto!!" in ASCII. -/
def crypto : List Byte := [0x43#8, 0x72#8, 0x79#8, 0x70#8, 0x74#8, 0x6F#8, 0x21#8, 0x21#8]

/-! ### One step of each command, from spec/95_test_vectors.md -/

/-- V-L6: from reset, NOP leaves STATUS = 2. -/
theorem test_nop : onNext (exec .nop State.reset) (State.status) = some 0x00000002#32 := by decide

/-- V-K1: INIT of the reset configuration. -/
theorem test_init_table :
    onNext (exec .init State.reset) (fun t => (t.sk.take 5, t.acfg.toWord)) =
      some ([0xE#32, 0x4#32, 0xD#32, 0x1#32, 0#32], 0x00200004#32) := by decide

/-- V-K6: the 32-bit product wraps. -/
theorem test_init_arith :
    onNext (exec .init { State.resetOf Params.default64 with cfg := 0x00200404#32, mkey := 0xA3B15C97#32 })
      (fun t => t.sk.take 5) = some [0xA3B15C97#32, 0x3D86252E#32, 0x9FDFAFE5#32, 0x791731BC#32, 0#32] := by decide

/-- V-S1: filler bytes at the tail. -/
theorem test_pack_filler :
    onNext (exec .pack (withMessage (keyed64 .fillerTail) hi)) (fun t => (t.slot 0, t.blkCount, t.origLen)) =
      some (0x4869212020202020#64, 1#16, 3#16) := by decide

/-- V-S2: zero bytes at the head. -/
theorem test_pack_zero_left :
    onNext (exec .pack (withMessage (keyed64 .zeroLeftMessage) hi)) (fun t => t.slot 0) =
      some 0x0000000000486921#64 := by decide

/-- The example of spec/41_bitpacker.md R100, its second block's message bytes and MSG_LEN. -/
theorem test_unpack_zero_left_final :
    onNext (exec .unpack (withBlocks (keyed64 .zeroLeftFinal) [0x4142434445464748#64, 0x000000000000494A#64] 10))
      (fun t => (t.msgByte 0, t.msgByte 7, t.msgByte 8, t.msgByte 9, t.msgLen)) =
      some (0x41#8, 0x48#8, 0x49#8, 0x4A#8, 10#16) := by decide

/-- V-X17: a block count that does not fit the length. -/
theorem test_unpack_length :
    onNext (exec .unpack (withBlocks (keyed64 .fillerTail) [0#64, 0#64] 3)) (fun t => (t.err, t.errInfo)) =
      some (.lengthRange, 0x0044#16) := by decide

/-- V-F10: FEVAL 0 with AND. -/
theorem test_feval_and :
    onNext (exec (.feval 0#8) { keyed8 .and with halfR := 3#32 }) State.fout = some 2#32 := by decide

/-- V-X14: FEVAL 255. -/
theorem test_feval_range :
    onNext (exec (.feval 255#8) (keyed8 .xor)) (fun t => (t.err, t.errInfo)) = some (.indexRange, 0x00FF#16) := by decide

/-- The example of spec/44_block_cipher.md R126. -/
theorem test_split :
    onNext (exec .split { State.reset with bin := 0x43#64 }) (fun t => (t.halfL, t.halfR)) = some (4#32, 3#32) := by
  decide

/-- V-X2: a BIN that is not well-formed. -/
theorem test_split_wide :
    onNext (exec .split { State.reset with bin := 0x143#64 }) State.status = some 0x0000010A#32 := by decide

/-- The example of spec/44_block_cipher.md R127. -/
theorem test_join :
    onNext (exec .join { State.reset with halfL := 0xA#32, halfR := 0x5#32 }) State.bout = some 0xA5#64 := by decide

/-- V-RND3: both halves change at once. -/
theorem test_roundFwd :
    onNext (exec (.roundFwd 2#8) { keyed8 .and with halfL := 6#32, halfR := 7#32 }) (fun t => (t.halfL, t.halfR)) =
      some (7#32, 3#32) := by decide

/-- V-RND6: ROUND_FWD 4. -/
theorem test_roundFwd_range :
    onNext (exec (.roundFwd 4#8) (keyed8 .xor)) (fun t => (t.err, t.errInfo)) = some (.indexRange, 4#16) := by decide

/-- V-RND4: the inverse round with OR. -/
theorem test_roundInv :
    onNext (exec (.roundInv 1#8) { keyed8 .or with halfL := 0xB#32, halfR := 0xC#32 }) (fun t => (t.halfL, t.halfR)) =
      some (3#32, 0xB#32) := by decide

/-- V-B2: ENC_BLOCK with AND, and no terminal swap. -/
theorem test_encBlock :
    onNext (exec .encBlock { keyed8 .and with bin := 0x43#64 }) (fun t => (t.bout, t.halfL, t.halfR)) =
      some (0x36#64, 3#32, 6#32) := by decide

/-- V-P2: NOT_KEYED comes before the width check. -/
theorem test_encBlock_priority :
    onNext (exec .encBlock { State.reset with bin := 0x143#64 }) State.err = some .notKeyed := by decide

/-- V-B6: DEC_BLOCK of the W=64 ciphertext. -/
theorem test_decBlock :
    onNext (exec .decBlock { keyed64 .fillerTail with bin := 0xD636ABEA72649A9F#64 }) State.bout =
      some 0x43727970746F2121#64 := by decide

/-- V-E1: two equal blocks. -/
theorem test_ecbEnc :
    onNext (exec .ecbEnc (withBlocks (keyed8 .xor) [0x43#64, 0x43#64] 0)) (fun t => (t.slot 0, t.slot 1)) =
      some (0xA5#64, 0xA5#64) := by decide

/-- V-X3: the least ill-formed slot is reported. -/
theorem test_ecbEnc_width :
    onNext (exec .ecbEnc (withBlocks (keyed8 .xor) [0x41#64, 0x100#64, 0x200#64] 0)) (fun t => (t.err, t.errInfo)) =
      some (.invalidBlockWidth, 1#16) := by decide

/-- V-E2: ECB_DEC of V-E1. -/
theorem test_ecbDec :
    onNext (exec .ecbDec (withBlocks (keyed8 .xor) [0xA5#64, 0xA5#64] 0)) (fun t => (t.slot 0, t.slot 1)) =
      some (0x43#64, 0x43#64) := by decide

/-- V-M1: ENC_MSG of "Crypto!!". -/
theorem test_encMsg :
    onNext (exec .encMsg (withMessage (keyed64 .fillerTail) crypto)) (fun t => (t.slot 0, t.blkCount, t.origLen)) =
      some (0xD636ABEA72649A9F#64, 1#16, 8#16) := by decide

/-- DEC_MSG of V-M1 leaves the plaintext block and the message. -/
theorem test_decMsg :
    onNext (exec .decMsg (withBlocks (keyed64 .fillerTail) [0xD636ABEA72649A9F#64] 8))
      (fun t => (t.slot 0, t.msgByte 0, t.msgByte 7, t.msgLen)) =
      some (0x43727970746F2121#64, 0x43#8, 0x21#8, 8#16) := by decide

/-- V-P3: the length check comes before the width check. -/
theorem test_decMsg_priority :
    onNext (exec .decMsg (withBlocks (keyed8 .xor) [0x100#64] 2)) (fun t => (t.err, t.errInfo)) =
      some (.lengthRange, 0x0044#16) := by decide

/-! ### The lifecycle -/

/-- V-L3, V-L4: BUSY alone at issue; the engine's step then completes with NOT_KEYED. -/
theorem test_step_completes :
    (issued State.reset 0x24#32).status = 0x00000001#32 ∧
    onNext (step (issued State.reset 0x24#32)) State.status = some 0x0000050A#32 := by decide

/-- V-X8: an illegal word completes with its OP. -/
theorem test_step_illegal :
    onNext (step (issued State.reset 0x00010022#32)) (fun t => (t.status, t.errInfo)) =
      some (0x0000040A#32, 0x22#16) := by decide

/-- V-L7: a soft reset discards the pending INIT. -/
theorem test_soft_reset :
    onNext (State.hostMove (issued State.reset 1#32) (.write 0x0008#16 4 1#32)) (fun t => (t.status, t.lastCmd)) =
      some (0#32, 0#32) := by decide

/-- P4: a write while BUSY is ignored and sets OVERRUN. -/
theorem test_overrun :
    onNext (State.hostMove (issued State.reset 1#32) (.write 0x0014#16 4 0x00200104#32)) (fun t => (t.status, t.cfg)) =
      some (0x00000011#32, 0x00200004#32) := by decide

/-- V-L1: what the host reads of the default W=8 build right after reset. -/
theorem test_reset_reads :
    [0x0000, 0x0004, 0x000C, 0x0014, 0x001C, 0x0400, 0x040C, 0x0410].map (State.busRead State.reset) =
      [0x46450108#32, 0x01001010#32, 0#32, 0x00200004#32, 4#32, 0xE#32, 1#32, 0#32] := by decide

/-- R87: turns of the engine and a hardware reset may be left when a run has ended; an access, or BUSY = 1, may not. -/
theorem test_ended :
    [[], [.engineTurn, .engineTurn], [.host .hardReset], [rd .status], [.engineTurn, wr .cmd 0#32]].map
      (fun ins => ({ State.reset with inputs := ins } : State).ended) = [true, true, true, false, false] ∧
    ({ State.reset with busy := true } : State).ended = false := by decide

/-- R54: the word at the lower offset is bits [31:0]. -/
theorem test_read_bout :
    [0x0038, 0x003C].map (State.busRead { State.reset with bout := 0x0123456789ABCDEF#64 }) =
      [0x89ABCDEF#32, 0x01234567#32] := by decide

/-- The next step of `withFetchWord` runs the word, as the first command after reset. -/
theorem test_withFetchWord :
    onNext (step (State.reset.withFetchWord 32 0x00000001)) State.status = some 0x00000006#32 := by decide

/-! ### States and operands that meet the statements' hypotheses -/

theorem witness_inv_reset : State.reset.Inv := by constructor <;> decide
theorem witness_inv_reset64 : (State.resetOf Params.default64).Inv := by constructor <;> decide
theorem witness_inv_keyed8 : { keyed8 .and with bin := 0x43#64, halfL := 0xF#32, halfR := 3#32 }.Inv := by
  constructor <;> decide
theorem witness_inv_keyed64 : { keyed64 .fillerTail with bin := 0x43727970746F2121#64, halfL := 0xFFFFFFFF#32 }.Inv := by
  constructor <;> decide

/-- EveryWordIsOneCommandOrIllegal, each clause. -/
theorem witness_words : legalWord 0x0000FF23#32 = true ∧ legalWord 0xFFFFFFFF#32 = false := by decide

/-- IllegalWordCompletesWithIllegalCommand: a word for each ground, and a state for each clause. -/
theorem witness_illegal :
    (0x00010022#32 : Word).extractLsb' 16 16 ≠ 0#16 ∧
    (0x00000002#32 : Word).extractLsb' 0 8 ∉ opcodesN ++ opcodesI ∧
    ((0x00000124#32 : Word).extractLsb' 0 8 ∈ opcodesN ∧ (0x00000124#32 : Word).extractLsb' 8 8 ≠ 0#8) ∧
    State.reset.busy = false ∧
    ((issued State.reset 0x124#32).params.wf = true ∧ (issued State.reset 0x124#32).inputs = [] ∧
      (issued State.reset 0x124#32).busy = true ∧ (issued State.reset 0x124#32).pending = 0x124#32) := by decide

/-- IllegalWordCompletesWithIllegalCommand, PendingCommandCompletesInOneStep: the engine's turn scheduled. -/
theorem witness_scheduled :
    { issued State.reset 0x124#32 with inputs := [.engineTurn, .host .hardReset] }.params.wf = true ∧
    { issued State.reset 0x124#32 with inputs := [.engineTurn, .host .hardReset] }.busy = true ∧
    { issued State.reset 0x124#32 with inputs := [.engineTurn, .host .hardReset] }.pending = 0x124#32 ∧
    { issued State.reset 0x124#32 with inputs := [.engineTurn, .host .hardReset] }.inputs =
      .engineTurn :: [.host .hardReset] := by decide

/-- StepRunsTheDecodedCommand and PendingCommandCompletesInOneStep, both schedules. -/
theorem witness_pending :
    (issued State.reset 0x0000FF10#32).params.wf = true ∧ (issued State.reset 0x0000FF10#32).busy = true ∧
    decode (issued State.reset 0x0000FF10#32).pending = .ok (.feval 255#8) ∧
    (issued State.reset 0x0000FF10#32).inputs = [] ∧
    { issued State.reset 0#32 with inputs := [.engineTurn, .host .hardReset] }.inputs =
      .engineTurn :: [.host .hardReset] := by decide

/-- StepPerformsTheScheduledHostMove. -/
theorem witness_hostMove :
    { State.reset with inputs := [wr .cmd 1#32, .engineTurn] }.params.wf = true ∧
    { State.reset with inputs := [wr .cmd 1#32, .engineTurn] }.inputs =
      .host (.write 0x0010#16 4 1#32) :: [.engineTurn] := by decide

/-- IdleEngineKeepsAllState, both schedules. -/
theorem witness_idle :
    State.reset.params.wf = true ∧ State.reset.busy = false ∧ State.reset.inputs = [] ∧
    { State.reset with inputs := [.engineTurn] }.inputs = .engineTurn :: [] := by decide

/-- StepRefusesOnlyAccessesOutsideTheInterface: a refused step, read and write, by alignment and by width. -/
theorem witness_refused :
    step { State.reset with inputs := [.host (.read 0x0002#16 4)] } = .refused .accessOutsideInterface ∧
    step { State.reset with inputs := [.host (.write 0xFFFC#16 2 0#32)] } = .refused .accessOutsideInterface ∧
    State.reset.params.wf = true := ⟨by rfl, by rfl, by decide⟩

/-- AccessOutsideTheInterfaceIsRefused, each ground at a boundary. -/
theorem witness_access :
    ((3 : Nat) ≠ 4 ∨ (0x0000#16).toNat % 4 ≠ 0) ∧ ((4 : Nat) ≠ 4 ∨ (0xFFFF#16).toNat % 4 ≠ 0) := by decide

/-- CmdWriteIssuesTheCommand, StatusWriteClearsOnlyItsW1CBits: an idle state. -/
theorem witness_not_busy : State.reset.busy = false ∧ (keyed8 .or).busy = false := by decide

/-- WriteWhileBusyOnlySetsOverrun: a busy state, and offsets of each clause. -/
theorem witness_busy :
    (issued State.reset 1#32).busy = true ∧ (0xFFFC#16).toNat % 4 = 0 ∧ 0xFFFC#16 ≠ 0x0008#16 ∧
    (0x000C#16).toNat % 4 = 0 ∧ 0x000C#16 ≠ 0x0008#16 ∧ (0x0008#16).toNat % 4 = 0 := by decide

/-- HalfRegistersStoreHBits: both widths, the first and the last table entry. -/
theorem witness_half :
    State.reset.Inv ∧ State.reset.busy = false ∧ (State.resetOf Params.default64).Inv ∧
    (State.resetOf Params.default64).busy = false ∧ 0 < State.reset.params.tmax ∧ 15 < State.reset.params.tmax ∧
    (0 : Nat) ≠ 15 :=
  ⟨witness_inv_reset, by decide, witness_inv_reset64, by decide, by decide, by decide, by decide⟩

/-- IdleWriteStoresItsRegister: the first and the last entry of each buffer. -/
theorem witness_idleWrite :
    State.reset.params.wf = true ∧ State.reset.busy = false ∧ 0 < State.reset.params.msgBytes ∧
    255 < State.reset.params.msgBytes ∧ 255 < State.reset.params.maxBlocks ∧ 0 < 2 ∧ 1 < 2 ∧
    31 < (State.resetOf Params.default64).params.maxBlocks := by decide

/-- ReadOnlyRegistersIgnoreWrites: both kinds of offset, at their ends. -/
theorem witness_readOnly :
    State.reset.params.wf = true ∧ State.reset.busy = false ∧
    0x0000 ∈ [0x0000, 0x0004, 0x0018, 0x0024, 0x0038, 0x003C, 0x004C, 0x0050] ∧
    0x0050 ∈ [0x0000, 0x0004, 0x0018, 0x0024, 0x0038, 0x003C, 0x004C, 0x0050] ∧
    (15 < State.reset.params.rmax ∧ 0x083C = 0x0800 + 4 * 15) := by decide

/-- UnmappedOffsetsReadZeroAndIgnoreWrites: both ends of each of the five ranges of the default W=8 build. -/
theorem witness_unmapped :
    State.reset.params.wf = true ∧
    [0x0054#16, 0x03FC#16].all (fun o => o.toNat % 4 = 0 ∧ 0x0054 ≤ o.toNat ∧ o.toNat ≤ 0x03FC) = true ∧
    [0x0440#16, 0x07FC#16].all (fun o => o.toNat % 4 = 0 ∧ 0x0400 + 4 * State.reset.params.tmax ≤ o.toNat ∧
      o.toNat < 0x0800) = true ∧
    [0x0840#16, 0x3FFC#16].all (fun o => o.toNat % 4 = 0 ∧ 0x0800 + 4 * State.reset.params.rmax ≤ o.toNat ∧
      o.toNat ≤ 0x3FFC) = true ∧
    [0x4400#16, 0x7FFC#16].all (fun o => o.toNat % 4 = 0 ∧ 0x4000 + 4 * State.reset.params.msgBytes ≤ o.toNat ∧
      o.toNat < 0x8000) = true ∧
    [0x8800#16, 0xFFFC#16].all (fun o => o.toNat % 4 = 0 ∧ 0x8000 + 8 * State.reset.params.maxBlocks ≤ o.toNat) =
      true := by decide

/-- AddressMapIsExact: locations that exist, at the ends of their arrays, and mapped offsets. -/
theorem witness_map :
    Params.default8.wf = true ∧
    [Loc.id, .errInfo, .tab 15, .sk 15, .msg 255, .blkLo 0, .blkHi 255].all (Loc.exists Params.default8) = true ∧
    [0x0000, 0x0050, 0x043C, 0x083C, 0x43FC, 0x87FC].all
      (fun o => o % 4 = 0 ∧ locate Params.default8 o ≠ .unmapped) = true := by decide

/-- IdAndParamReadTheBuild: both widths. -/
theorem witness_build :
    State.reset.params.wf = true ∧ State.reset.params.width = .w8 ∧
    (State.resetOf Params.default64).params.wf = true ∧ (State.resetOf Params.default64).params.width = .w64 := by decide

/-- ResetStateHasTheStatedValues, ResetMeetsTheInvariant: legal builds, the last entries of TAB and SK. -/
theorem witness_reset :
    Params.default8.wf = true ∧ Params.default64.wf = true ∧ 15 < Params.default8.tmax ∧ 15 < Params.default8.rmax ∧
    { Params.default8 with rmax := 255, tmax := 255, msgBytes := 4096 }.wf = true := by decide

/-- FailedCommandWritesOnlyTheErrorRecord. -/
theorem witness_failed : ∃ t, exec .encBlock State.reset = .next t ∧ t.err ≠ .ok := ⟨_, rfl, by decide⟩

/-- SuccessKeepsTheErrorRecord. -/
theorem witness_success : ∃ t, exec .join (keyed8 .or) = .next t ∧ t.err = .ok := ⟨_, rfl, rfl⟩

/-- StickyBitsStayUntilClearedOrReset: both bits set, a step that keeps them, and one that clears them. -/
theorem witness_sticky :
    (∃ t, step { issued State.reset 0#32 with errSticky := true, overrun := true } = .next t ∧ t.errSticky = true ∧
      t.overrun = true) ∧
    (∃ t, step { State.reset with errSticky := true, overrun := true, inputs := [wr .status 0x18#32] } = .next t ∧
      t.errSticky = false ∧ t.overrun = false) := ⟨⟨_, rfl, rfl, rfl⟩, ⟨_, rfl, rfl, rfl⟩⟩

/-- CommandsThatNeedAnInstance. -/
theorem witness_unkeyed : State.reset.keyed = false := by decide

/-- EngineNeverWritesStagingOrBin: an engine step, by default and scheduled. -/
theorem witness_engine :
    (∃ t, step (issued State.reset 1#32) = .next t ∧ t.keyed = true) ∧
    (∀ m rest, (issued State.reset 1#32).inputs ≠ .host m :: rest) ∧
    (∀ m rest, { issued State.reset 1#32 with inputs := [.engineTurn] }.inputs ≠ .host m :: rest) := by
  refine ⟨⟨_, rfl, rfl⟩, ?_, ?_⟩ <;> intro m rest h <;> cases h

/-- OnlyInitAndResetChangeTheInstance: a step for each clause. -/
theorem witness_instance :
    (∃ t, step (keyed8 .and) = .next t) ∧
    (∃ t, step (issued State.reset 1#32) = .next t ∧ t.acfg ≠ State.reset.acfg) ∧
    (∃ t, step { keyed8 .and with inputs := [.host .hardReset] } = .next t ∧ t.keyed = false) ∧
    (∃ t, step { keyed8 .and with inputs := [wr .ctrl 1#32] } = .next t ∧ t.keyed = false) :=
  ⟨⟨_, rfl⟩, ⟨_, rfl, by decide⟩, ⟨_, rfl, rfl⟩, ⟨_, rfl, rfl⟩⟩

/-- StagingIsReadOnlyByInit, FlagsAreReadByNoCommand: a command that succeeds and one that fails. -/
theorem witness_exec :
    Instr.encBlock ≠ .init ∧ (∃ t, exec .encBlock { keyed8 .xor with bin := 0x43#64 } = .next t ∧ t.bout = 0xA5#64) ∧
    (∃ t, exec .encBlock { keyed8 .xor with bin := 0x143#64 } = .next t ∧ t.err = .invalidBlockWidth) :=
  ⟨by decide, ⟨_, rfl, by decide⟩, ⟨_, rfl, rfl⟩⟩

/-- NopOnlyCompletes: words with OP 0x00 that are no NOP, by each field. -/
theorem witness_not_nop :
    (0x00000100#32 ≠ 0#32 ∧ (0x00000100#32 : Word).extractLsb' 0 8 = 0#8) ∧
    (0x80000000#32 ≠ 0#32 ∧ (0x80000000#32 : Word).extractLsb' 0 8 = 0#8) := by decide

/-- InitReportsTheFirstFailingCheck: a configuration word and a table length for each clause (spec/95_test_vectors.md
V-X4, V-X5, V-X10, V-X11, V-X12, V-P1), with P_RMAX = P_TMAX = 16. -/
theorem witness_initChecks :
    (0x00200300#32 : Word).extractLsb' 8 2 = 3#2 ∧ (0x00200C00#32 : Word).extractLsb' 10 2 = 3#2 ∧
    (0x00203000#32 : Word).extractLsb' 12 2 = 3#2 ∧
    (State.reset.params.rmax < ((0x00200011#32 : Word).extractLsb' 0 8).toNat ∧
      ((0x00200011#32 : Word).extractLsb' 8 2).toNat ≠ 3 ∧ ((0x00200011#32 : Word).extractLsb' 10 2).toNat ≠ 3 ∧
      ((0x00200011#32 : Word).extractLsb' 12 2).toNat ≠ 3) ∧
    (((0x00200010#32 : Word).extractLsb' 0 8).toNat ≤ State.reset.params.rmax ∧
      ((0x00200010#32 : Word).extractLsb' 10 2).toNat = 0 ∧ (State.resetOf Params.default64).tableLen.toNat = 0 ∧
      State.reset.params.tmax < (17#8).toNat) ∧
    (((0x00200803#32 : Word).extractLsb' 10 2).toNat = 2 ∧ State.reset.params.tmax < (17#8).toNat ∧
      State.reset.tableLen.toNat ≤ State.reset.params.tmax ∧
      State.reset.tableLen.toNat ≠ ((0x00200803#32 : Word).extractLsb' 0 8).toNat) := by decide

/-- A state that INIT accepts, with the given CFG and TABLE_LEN. -/
def staged (c : Word) (t : Nat) : State := { State.reset with cfg := c, tableLen := BitVec.ofNat 8 t }

theorem witness_inv_table : (staged 0x00200010#32 1).Inv := by constructor <;> decide
theorem witness_inv_arith : (staged 0x00206510#32 0).Inv := by constructor <;> decide
theorem witness_inv_direct : (staged 0x00200A10#32 16).Inv := by constructor <;> decide

/-- InitLatchesTheInstance: each policy, with ROUNDS at P_RMAX. -/
theorem witness_initLatches :
    [(0x00200010#32, 1), (0x00206510#32, 0), (0x00200A10#32, 16)].all (fun x =>
      ((x.1 : Word).extractLsb' 8 2).toNat ≠ 3 ∧ (x.1.extractLsb' 10 2).toNat ≠ 3 ∧
      (x.1.extractLsb' 12 2).toNat ≠ 3 ∧ (x.1.extractLsb' 0 8).toNat ≤ (staged x.1 x.2).params.rmax ∧
      ((x.1.extractLsb' 10 2).toNat = 0 → 1 ≤ x.2 ∧ x.2 ≤ (staged x.1 x.2).params.tmax) ∧
      ((x.1.extractLsb' 10 2).toNat = 2 → x.2 ≤ (staged x.1 x.2).params.tmax ∧
        x.2 = (x.1.extractLsb' 0 8).toNat)) = true := by decide

/-- PackPlacesEveryByte: the first and the last byte of a message of two blocks. -/
theorem witness_packPlaces :
    0 < BlockWidth.w64.blocksFor 10 ∧ 1 < BlockWidth.w64.blocksFor 10 ∧ 0 < BlockWidth.w64.bytes ∧
    7 < BlockWidth.w64.bytes := by decide

/-- A message whose second byte is not ASCII, under ASCII7 (V-X6). -/
def notAscii : State :=
  withMessage { keyed8 .xor with acfg := cfgOf .xor .table .fillerTail .ascii7 } [0x43#8, 0xC3#8]

/-- PackFollowsItsRule, EncMsgFollowsItsRule: each clause; MSG_LEN at 0, within and just above P_MSG_BYTES. -/
theorem witness_pack :
    State.reset.params.wf = true ∧ State.reset.keyed = false ∧ (keyed8 .xor).keyed = true ∧
    (keyed8 .xor).params.msgBytes < (257#16).toNat ∧ (256#16).toNat ≤ (keyed8 .xor).params.msgBytes ∧
    (notAscii.keyed = true ∧ notAscii.msgLen.toNat ≤ notAscii.params.msgBytes ∧ 1 < notAscii.msgLen.toNat ∧
      notAscii.acfg.charset = .ascii7 ∧ 0x80 ≤ (notAscii.msgByte 1).toNat ∧
      ∀ j < 1, (notAscii.msgByte j).toNat < 0x80) ∧
    ((keyed8 .xor).msgLen.toNat = 0 ∧ (keyed8 .xor).acfg.charset = .bytes) ∧
    (withMessage (keyed64 .zeroLeftFinal) hi).msgLen.toNat = 3 := by decide

/-- UnpackFollowsItsRule, DecMsgFollowsItsRule: each clause, and each padding policy with a message that is padded. -/
theorem witness_unpack :
    State.reset.params.wf = true ∧ State.reset.keyed = false ∧ (keyed8 .xor).keyed = true ∧
    (keyed8 .xor).params.maxBlocks < (257#16).toNat ∧
    ((0#16).toNat ≤ (keyed8 .xor).params.maxBlocks ∧ (keyed8 .xor).params.msgBytes < (257#16).toNat) ∧
    ((1#16).toNat ≤ (keyed8 .xor).params.maxBlocks ∧ (2#16).toNat ≤ (keyed8 .xor).params.msgBytes ∧
      (1#16).toNat ≠ BlockWidth.w8.blocksFor (2#16).toNat) ∧
    ((256#16).toNat ≤ (keyed8 .xor).params.msgBytes ∧ (256#16).toNat = BlockWidth.w8.blocksFor (256#16).toNat) ∧
    (1 < (withBlocks (keyed8 .xor) [0x41#64, 0x100#64] 2).blkCount.toNat ∧
      2 ^ BlockWidth.w8.bits ≤ ((withBlocks (keyed8 .xor) [0x41#64, 0x100#64] 2).slot 1).toNat ∧
      ∀ i < 1, ((withBlocks (keyed8 .xor) [0x41#64, 0x100#64] 2).slot i).toNat < 2 ^ BlockWidth.w8.bits) := by decide

/-- A decode that succeeds under the padding `pad`: ten bytes in two blocks. -/
def padded (pad : PadPolicy) : State := withBlocks (keyed64 pad) [1#64, 2#64] 10

/-- UnpackFollowsItsRule, DecMsgFollowsItsRule: the success clause, under each padding policy. -/
theorem witness_unpack_pads (pad : PadPolicy) :
    (padded pad).keyed = true ∧ (padded pad).origLen.toNat ≤ (padded pad).params.msgBytes ∧
    (padded pad).blkCount.toNat = BlockWidth.w64.blocksFor (padded pad).origLen.toNat ∧
    (padded pad).slots 2 = [1#64, 2#64] := by
  cases pad <;> decide

/-- RoundFunctionIsBitwise: H-bit operands of both widths. -/
theorem witness_half_values :
    BlockWidth.w8.isHalf 0xF#32 = true ∧ BlockWidth.w8.isHalf 0#32 = true ∧
    BlockWidth.w64.isHalf 0xFFFFFFFF#32 = true := by decide

/-- FevalFollowsItsRule, RoundCommandsFollowTheirRules: each clause, the index at ROUNDS and just below. -/
theorem witness_index :
    State.reset.keyed = false ∧ (keyed8 .xor).keyed = true ∧ (keyed8 .xor).acfg.rounds.toNat ≤ (4#8).toNat ∧
    (3#8).toNat < (keyed8 .xor).acfg.rounds.toNat := by decide

/-- SplitFollowsItsRule, EncBlockIteratesTheForwardRounds, DecBlockIteratesTheInverseRounds: BIN at 2^P_W and just
below, without and with an instance. -/
theorem witness_bin :
    2 ^ State.reset.params.width.bits ≤ (0x100#64).toNat ∧ (0xFF#64).toNat < 2 ^ State.reset.params.width.bits ∧
    State.reset.keyed = false ∧ (keyed8 .xor).keyed = true := by decide

theorem witness_inv_bin : { keyed8 .xor with bin := 0xFF#64 }.Inv ∧ { keyed8 .xor with bin := 0x100#64 }.Inv := by
  constructor <;> constructor <;> decide

/-- JoinFollowsItsRule, BlockCommandsAreTheirRoundSequences, BlockMapsAreTheBlockCommands. -/
theorem witness_block :
    { keyed8 .xor with bin := 0xFF#64 }.Inv ∧ { keyed8 .xor with bin := 0xFF#64 }.keyed = true ∧
    { keyed8 .xor with bin := 0xFF#64 }.bin.toNat < 2 ^ { keyed8 .xor with bin := 0xFF#64 }.params.width.bits :=
  ⟨witness_inv_bin.1, by decide, by decide⟩

/-- SplitAndJoinUndoEachOther, DecryptUndoesEncrypt: the largest values of each width. -/
theorem witness_values :
    (0xFF#64).toNat < 2 ^ BlockWidth.w8.bits ∧ (0xF#32).toNat < 2 ^ BlockWidth.w8.half ∧
    (0xFFFFFFFFFFFFFFFF#64).toNat < 2 ^ BlockWidth.w64.bits ∧ (0xFFFFFFFF#32).toNat < 2 ^ BlockWidth.w64.half ∧
    ∀ k ∈ [0xE#32, 0x4#32, 0xD#32, 0xF#32], k.toNat < 2 ^ BlockWidth.w8.half :=
  ⟨by decide, by decide, by decide, by decide, by simp [BlockWidth.half]⟩

/-- EcbCommandsFollowTheirRules: each clause; BLK_COUNT just above P_MAX_BLOCKS, and within. -/
theorem witness_ecb :
    State.reset.params.wf = true ∧ State.reset.keyed = false ∧ (keyed8 .xor).keyed = true ∧
    (keyed8 .xor).params.maxBlocks < (257#16).toNat ∧ (256#16).toNat ≤ (keyed8 .xor).params.maxBlocks ∧
    ((withBlocks (keyed8 .xor) [0x41#64, 0x100#64] 0).keyed = true ∧
      (withBlocks (keyed8 .xor) [0x41#64, 0x100#64] 0).blkCount.toNat = 2 ∧
      2 ^ BlockWidth.w8.bits ≤ ((withBlocks (keyed8 .xor) [0x41#64, 0x100#64] 0).slot 1).toNat ∧
      ∀ i < 1, ((withBlocks (keyed8 .xor) [0x41#64, 0x100#64] 0).slot i).toNat < 2 ^ BlockWidth.w8.bits) ∧
    (∀ j < 2, ((withBlocks (keyed8 .xor) [0x43#64, 0xFF#64] 0).slot j).toNat < 2 ^ BlockWidth.w8.bits) := by decide

/-- MessageCommandsAreTheirPairs, EncMsgThenDecMsgRestoresTheMessage: a padded message under an instance. -/
theorem witness_inv_message : (withMessage (keyed64 .zeroLeftMessage) hi).Inv := by constructor <;> decide

theorem witness_encMsg :
    (∃ t, exec .encMsg (withMessage (keyed64 .zeroLeftMessage) hi) = .next t ∧ t.err = .ok) ∧
    (withMessage (keyed64 .zeroLeftMessage) hi).keyed = true ∧
    (withMessage (keyed64 .zeroLeftMessage) hi).msgLen.toNat ≤ (keyed64 .zeroLeftMessage).params.msgBytes ∧
    (withMessage (keyed64 .zeroLeftMessage) hi).acfg.charset = .bytes := ⟨⟨_, rfl, rfl⟩, by decide, by decide, by decide⟩

theorem witness_inv_blocks : (withBlocks (keyed8 .xor) [0xA5#64, 0xA5#64] 2).Inv := by constructor <;> decide

/-- MessageCommandsAreTheirPairs, EqualBlocksExactlyEqualCiphertexts: blocks under an instance. -/
theorem witness_blocks :
    onNext (exec .decMsg (withBlocks (keyed8 .xor) [0xA5#64, 0xA5#64] 2)) State.err = some .ok ∧
    onNext (exec .ecbEnc (withBlocks (keyed8 .xor) [0xA5#64, 0xA5#64] 2)) State.err = some .ok ∧
    0 < (withBlocks (keyed8 .xor) [0xA5#64, 0xA5#64] 2).blkCount.toNat ∧
    1 < (withBlocks (keyed8 .xor) [0xA5#64, 0xA5#64] 2).blkCount.toNat := by decide

/-- EveryStepKeepsTheInvariant: an engine step from a state that meets the invariant. -/
theorem witness_inv_step : (issued State.reset 1#32).Inv ∧ ∃ t, step (issued State.reset 1#32) = .next t :=
  ⟨by constructor <;> decide, _, rfl⟩

/-- ReadsReturnWhatTheLocationsHold: the ends of each array, and bytes that have been written. -/
theorem witness_reads :
    (withMessage (keyed64 .zeroLeftMessage) hi).Inv ∧ (withBlocks (keyed8 .xor) [0xA5#64, 0xA5#64] 2).Inv ∧
    (0 < (keyed8 .xor).params.tmax ∧ 15 < (keyed8 .xor).params.tmax ∧ 0 < (keyed8 .xor).params.rmax ∧
      15 < (keyed8 .xor).params.rmax ∧ 255 < (keyed8 .xor).params.msgBytes ∧
      255 < (keyed8 .xor).params.maxBlocks) ∧
    (Memory.read? (withMessage (keyed64 .zeroLeftMessage) hi).mem (msgAddr 0)).isSome = true ∧
    (Memory.read? (withBlocks (keyed8 .xor) [0xA5#64, 0xA5#64] 2).mem (blkAddr 1 + 0)).isSome = true ∧
    (Memory.read? (withBlocks (keyed8 .xor) [0xA5#64, 0xA5#64] 2).mem (blkAddr 1 + 7)).isSome = true :=
  ⟨witness_inv_message, witness_inv_blocks, by decide, by decide, by decide, by decide⟩

end Sys2Proof.Tests
end

/-! The register file: what a step is, that every step keeps the invariant, and what the host reads and writes. -/

namespace Sys2Proof.Machine

/-! ### What a step is -/

/-- A step of a legal build is the engine's turn where the schedule lists no host move next, or the listed move. -/
theorem step_cases {s t : State} (h : step s = .next t) :
    ((∀ m rest, s.inputs ≠ .host m :: rest) ∧ State.engineTurn { s with inputs := s.inputs.tail } = .next t) ∨
    (∃ m rest, s.inputs = .host m :: rest ∧ State.hostMove { s with inputs := rest } m = .next t) := by
  unfold step at h
  split at h
  · split at h
    · next hs =>
      have hself : { s with inputs := s.inputs.tail } = s := by rw [hs, List.tail_nil, ← hs]
      exact .inl ⟨by simp [hs], by rwa [hself]⟩
    · next rest hs => exact .inl ⟨by simp [hs], by rwa [hs]⟩
    · next m rest hs => exact .inr ⟨m, rest, hs, h⟩
  · cases h

/-- A move from outside that has a next state is a read, an aligned 32-bit write or the hardware reset. -/
theorem State.hostMove_cases {s t : State} {m : HostMove} (h : s.hostMove m = .next t) :
    (∃ off bytes, m = .read off bytes ∧ t = s.afterRead off.toNat) ∨
    (∃ off v, m = .write off 4 v ∧ t = s.busWrite off.toNat v) ∨
    (m = .hardReset ∧ t = s.toReset) := by
  cases m with
  | read off bytes =>
    simp only [State.hostMove] at h
    split at h
    · exact .inl ⟨off, bytes, rfl, (Host.Outcome.next.inj h).symm⟩
    · cases h
  | write off bytes v =>
    simp only [State.hostMove] at h
    split at h
    · next hl =>
      obtain ⟨rfl, -⟩ := (accessLegal_iff _ _).1 hl
      exact .inr (.inl ⟨off, v, rfl, (Host.Outcome.next.inj h).symm⟩)
    · cases h
  | hardReset => exact .inr (.inr ⟨rfl, (Host.Outcome.next.inj h).symm⟩)

/-! ### The buffers' bytes -/

theorem bufferByte_iff (p : Params) (a : Nat) :
    bufferByte p a = true ↔
      (0x4000 ≤ a ∧ a < 0x4000 + 4 * p.msgBytes ∧ a % 4 = 0) ∨ (0x8000 ≤ a ∧ a < 0x8000 + 8 * p.maxBlocks) := by
  simp [bufferByte, and_assoc]

theorem bufferByte_msgAddr {p : Params} {k : Nat} (h : k < p.msgBytes) : bufferByte p (msgAddr k) = true := by
  rw [bufferByte_iff, msgAddr]
  omega

theorem bufferByte_blkAddr {p : Params} {j t : Nat} (h : j < p.maxBlocks) (ht : t < 8) :
    bufferByte p (blkAddr j + t) = true := by
  rw [bufferByte_iff, blkAddr]
  omega

/-- Unpacking the blocks that n bytes take gives n bytes (spec/41_bitpacker.md R93). -/
theorem unpackBlocks_length {w : BlockWidth} (pad : PadPolicy) {n : Nat} {blocks : List Block}
    (h : blocks.length = w.blocksFor n) : (unpackBlocks w pad n blocks).length = n := by
  obtain ⟨hfit, -, hfull⟩ := BlockWidth.blocksFor_bounds w n
  have hbytes := flatMap_blockBytes_length w blocks
  rw [h] at hbytes
  cases pad <;> simp only [unpackBlocks, List.length_take, List.length_drop, List.length_append, hbytes, h] <;> omega

/-! ### Reset and completion meet the invariant -/

theorem State.resetOf_inv {p : Params} (hp : p.wf = true) : (State.resetOf p).Inv := by
  obtain ⟨-, -, -, -, hlen, hhalf⟩ := (Params.wf_iff p).1 hp
  have hz := isHalf_zero p.width
  exact
    { build := hp
      notBusyAndDone := rfl
      pendingIsLast := nofun
      cfgBits := (by decide : (0x00200004#32 : Word) &&& cfgMask = 0x00200004#32)
      mkeyHalf := hz
      foutHalf := hz
      halfLHalf := hz
      halfRHalf := hz
      boutWf := (wellFormedBlock_iff _ _).2 (Nat.two_pow_pos _)
      tabLength := by simp [State.resetOf]; omega
      tabHalf := by simp [State.resetOf, List.all_append, hhalf, hz]
      skLength := by simp [State.resetOf]
      skHalf := by simp [State.resetOf, hz]
      roundsFit := Nat.zero_le _
      skTail := by simp [State.resetOf]
      unkeyedCfg := fun _ => rfl
      memWf := rfl
      memInBuffers := rfl }

namespace State.Inv

/-- Reset gives an invariant state, whatever the schedule, the read log and the count of draws. -/
theorem toReset {s : State} (h : s.Inv) : s.toReset.Inv := { State.resetOf_inv h.build with }

theorem withInputs {s : State} (h : s.Inv) (ins : List Input) : State.Inv { s with inputs := ins } := { h with }

theorem afterRead {s : State} (h : s.Inv) (off : Nat) : (s.afterRead off).Inv := { h with }

theorem succeed {s : State} (h : s.Inv) : s.succeed.Inv := { h with notBusyAndDone := rfl, pendingIsLast := nofun }

theorem raiseError {s : State} (h : s.Inv) (c : ErrCode) (n : Nat) : (s.raiseError c n).Inv :=
  { h with notBusyAndDone := rfl, pendingIsLast := nofun }

theorem issue {s : State} (h : s.Inv) (w : Word) : (s.issue w).Inv :=
  { h with notBusyAndDone := rfl, pendingIsLast := fun _ => rfl }

/-! ### The results of the commands meet the invariant -/

theorem subkey_isHalf {s : State} (h : s.Inv) (i : Nat) : s.params.width.isHalf (s.subkey i) = true :=
  getD_isHalf h.skHalf i

theorem subkeys_isHalf {s : State} (h : s.Inv) : ∀ k ∈ s.subkeys, s.params.width.isHalf k = true :=
  fun k hk => List.all_eq_true.1 h.skHalf k (List.mem_of_mem_take hk)

theorem putHalves {s : State} (h : s.Inv) {lr : Word × Word} (hlr : HalfPair s.params.width lr) :
    (s.putHalves lr).Inv := { h with halfLHalf := hlr.1, halfRHalf := hlr.2 }

theorem putBlock {s : State} (h : s.Inv) {lr : Word × Word} (hlr : HalfPair s.params.width lr) :
    (s.putBlock lr).Inv :=
  { h with halfLHalf := hlr.1, halfRHalf := hlr.2, boutWf := joinBlock_wellFormed hlr.1 hlr.2 }

/-- Writing no more blocks than there are slots keeps the buffers' form. -/
theorem writeBlocks {s : State} (h : s.Inv) {bs : List Block} (hbs : bs.length ≤ s.params.maxBlocks) :
    State.Inv { s with mem := Memory.writeBlkFrom s.mem 0 bs } :=
  { h with
    memWf := Memory.wf_writeBlkFrom _ _ _ h.memWf
    memInBuffers := Memory.all_writeBlkFrom _ _ _ h.memInBuffers
      fun i hi _ ht => bufferByte_blkAddr ((Nat.zero_add i).symm ▸ hi.trans_le hbs) ht }

/-- Writing no more message bytes than there are entries keeps the buffers' form. -/
theorem storeMessage {s : State} (h : s.Inv) {m : List Byte} (hm : m.length ≤ s.params.msgBytes) :
    (s.storeMessage m).Inv :=
  { h with
    memWf := Memory.wf_writeMsgFrom _ _ _ h.memWf
    memInBuffers := Memory.all_writeMsgFrom _ _ _ h.memInBuffers 
      fun i hi => bufferByte_msgAddr ((Nat.zero_add i).symm ▸ hi.trans_le hm) }

theorem storePacked {s : State} (h : s.Inv) {bs : List Block} (hbs : bs.length ≤ s.params.maxBlocks) :
    (s.storePacked bs).Inv := { h.writeBlocks hbs with }

theorem mapSlots {s : State} (h : s.Inv) (f : Block → Block) (hn : s.blkCount.toNat ≤ s.params.maxBlocks) :
    (s.mapSlots f).Inv := h.writeBlocks (by simpa [State.slots] using hn)

/-- INIT fills SK with H-bit subkeys, and with 0 beyond ROUNDS (spec/42_key_schedule.md R108). -/
theorem latch {s : State} (h : s.Inv) {c : CipherCfg} (hr : c.rounds.toNat ≤ s.params.rmax) : (s.latch c).Inv :=
  { h with
    skLength := by simp; omega
    skHalf := by
      simp [List.all_append, derive_isHalf _ _ _ _ _ h.tabHalf, isHalf_zero]
    roundsFit := hr
    skTail := by simp
    unkeyedCfg := nofun }

/-- A message that fits packs into no more blocks than there are slots. -/
theorem packed_length_le {s : State} (hn : s.msgLen.toNat ≤ s.params.msgBytes) :
    s.packed.length ≤ s.params.maxBlocks := by
  simpa [State.packed, State.message] using Params.blocksFor_le_maxBlocks hn

/-- Blocks whose number agrees with ORIG_LEN unpack to a message that fits. -/
theorem unpacked_length_le {s : State} {bs : List Block} (hn : s.origLen.toNat ≤ s.params.msgBytes)
    (hbs : bs.length = s.params.width.blocksFor s.origLen.toNat) : (s.unpacked bs).length ≤ s.params.msgBytes :=
  (unpackBlocks_length s.acfg.pad hbs).trans_le hn

/-- What a command writes when it succeeds keeps the invariant. -/
theorem effect {i : Instr} {s u : State} (h : s.Inv) (he : Effect i s u) : u.Inv := by
  cases i with
  | nop =>
    obtain rfl : u = s := he
    exact h
  | init =>
    obtain ⟨c, -, hr, -, -, rfl⟩ := he
    exact h.latch hr
  | pack =>
    obtain ⟨-, hn, -, rfl⟩ := he
    exact h.storePacked (packed_length_le hn)
  | unpack =>
    obtain ⟨-, -, hn, hc, -, rfl⟩ := he
    exact h.storeMessage (unpacked_length_le hn (by simpa [State.slots] using hc))
  | feval idx =>
    obtain ⟨-, -, rfl⟩ := he
    exact { h with foutHalf := roundF_isHalf _ h.halfRHalf (h.subkey_isHalf _) }
  | split =>
    obtain ⟨-, rfl⟩ := he
    exact h.putHalves (splitBlock_isHalf _ _)
  | join =>
    obtain rfl : u = _ := he
    exact { h with boutWf := joinBlock_wellFormed h.halfLHalf h.halfRHalf }
  | roundFwd idx =>
    obtain ⟨-, -, rfl⟩ := he
    exact h.putHalves (fwdRound_isHalf _ (h.subkey_isHalf _) ⟨h.halfLHalf, h.halfRHalf⟩)
  | roundInv idx =>
    obtain ⟨-, -, rfl⟩ := he
    exact h.putHalves (invRound_isHalf _ (h.subkey_isHalf _) ⟨h.halfLHalf, h.halfRHalf⟩)
  | encBlock =>
    obtain ⟨-, -, rfl⟩ := he
    exact h.putBlock (fwdRounds_isHalf _ _ h.subkeys_isHalf (splitBlock_isHalf _ _))
  | decBlock =>
    obtain ⟨-, -, rfl⟩ := he
    exact h.putBlock (invRounds_isHalf _ _ h.subkeys_isHalf (splitBlock_isHalf _ _))
  | ecbEnc =>
    obtain ⟨-, hn, -, rfl⟩ := he
    exact h.mapSlots _ hn
  | ecbDec =>
    obtain ⟨-, hn, -, rfl⟩ := he
    exact h.mapSlots _ hn
  | encMsg =>
    obtain ⟨-, hn, -, rfl⟩ := he
    exact h.storePacked (by simpa using packed_length_le hn)
  | decMsg =>
    obtain ⟨-, hb, hn, hc, -, rfl⟩ := he
    exact (h.mapSlots _ hb).storeMessage (unpacked_length_le hn (by simpa [State.slots] using hc))

theorem engineTurn {s t : State} (h : s.Inv) (ht : s.engineTurn = .next t) : t.Inv := by
  rcases State.engineTurn_cases ht with ⟨-, rfl⟩ | ⟨-, c, n, -, rfl⟩ | ⟨-, i, u, -, hu, rfl⟩
  · exact h
  · exact h.raiseError c n
  · exact (h.effect hu).succeed

/-! ### The host's moves keep the invariant -/

theorem writeCtrl {s : State} (h : s.Inv) (v : Word) : (s.writeCtrl v).Inv := by
  unfold State.writeCtrl
  split
  · exact h.toReset
  · exact h

/-- A word written to a slot that exists keeps the buffers' form. -/
theorem writeBlkWord {s : State} (h : s.Inv) {j o : Nat} (v : Word) (hj : j < s.params.maxBlocks) (ho : o ≤ 4) :
    State.Inv { s with mem := Memory.writeWord s.mem (blkAddr j + o) v } :=
  { h with
    memWf := Memory.wf_writeWord _ _ _ h.memWf
    memInBuffers := Memory.all_writeWord _ _ _ h.memInBuffers fun t ht => by
      rw [Nat.add_assoc]
      exact bufferByte_blkAddr hj (by omega) }

/-- A write accepted while idle keeps the invariant: H-bit locations truncate, CFG masks, and the array entries that the
address map names exist. -/
theorem writeLoc {s : State} (h : s.Inv) (off : Nat) (v : Word) : (s.writeLoc v (locate s.params off)).Inv := by
  have hb := locate_bounds s.params off
  cases hl : locate s.params off with
  | id | param | acfg | fout | boutLo | boutHi | errCmd | errInfo | unmapped => exact h
  | sk i => exact h
  | ctrl => exact h.writeCtrl v
  | status | tableLen | binLo | binHi | msgLen | origLen | blkCount => exact { h with }
  | cmd => exact h.issue v
  | cfg => exact { h with cfgBits := by simp [State.writeLoc, BitVec.and_assoc] }
  | mkey => exact { h with mkeyHalf := truncH_isHalf _ v }
  | halfL => exact { h with halfLHalf := truncH_isHalf _ v }
  | halfR => exact { h with halfRHalf := truncH_isHalf _ v }
  | tab j =>
    exact { h with
      tabLength := (List.length_set ..).trans h.tabLength
      tabHalf := by
        rw [List.all_eq_true]
        intro x hx
        rcases List.mem_or_eq_of_mem_set hx with hx | rfl
        · exact List.all_eq_true.1 h.tabHalf x hx
        · exact truncH_isHalf _ v }
  | msg k =>
    obtain ⟨-, -, hk, -, -⟩ := hb k
    exact { h with
      memWf := Memory.wf_write _ _ _ h.memWf
      memInBuffers := Memory.all_write _ _ _ h.memInBuffers (bufferByte_msgAddr (hk hl)) }
  | blkLo j =>
    obtain ⟨-, -, -, hj, -⟩ := hb j
    exact h.writeBlkWord (o := 0) v (hj hl) (by omega)
  | blkHi j =>
    obtain ⟨-, -, -, -, hj⟩ := hb j
    exact h.writeBlkWord (o := 4) v (hj hl) (by omega)

theorem busWrite {s : State} (h : s.Inv) (off : Nat) (v : Word) : (s.busWrite off v).Inv := by
  rcases State.busWrite_cases s off v with ⟨-, hw⟩ | ⟨-, -, hw⟩ | ⟨-, -, hw⟩ <;> rw [hw]
  · exact h.writeCtrl v
  · exact { h with }
  · exact h.writeLoc off v

theorem hostMove {s t : State} {m : HostMove} (h : s.Inv) (ht : s.hostMove m = .next t) : t.Inv := by
  rcases State.hostMove_cases ht with ⟨off, -, -, rfl⟩ | ⟨off, v, -, rfl⟩ | ⟨-, rfl⟩
  · exact h.afterRead off.toNat
  · exact h.busWrite off.toNat v
  · exact h.toReset

end State.Inv

/-- Settles O59: a step is the engine's turn or a host move, and each keeps the invariant. -/
theorem everyStepKeepsTheInvariant : Obligations.EveryStepKeepsTheInvariant := by
  intro s t h hst
  rcases step_cases hst with ⟨-, ht⟩ | ⟨m, rest, -, ht⟩
  · exact (h.withInputs _).engineTurn ht
  · exact (h.withInputs rest).hostMove ht

end Sys2Proof.Machine

/-! What the engine and the host's moves leave of the error record, the staging registers and of ACFG, SK and KEYED,
and that no command reads the flags. -/

namespace Sys2Proof.Machine

/-! ### Success and the error record -/

/-- Settles O26: an error completes with a code other than OK, and no effect touches the error record. -/
theorem successKeepsTheErrorRecord : Obligations.SuccessKeepsTheErrorRecord := by
  intro i s t h hok
  rcases exec_cases h with ⟨c, n, hc, rfl⟩ | ⟨u, hu, rfl⟩
  · exact absurd hok hc
  · obtain ⟨-, -, hsticky, hoverrun, hcmd, hinfo, hlast, -⟩ := hu.frame
    exact ⟨hsticky, hoverrun, hcmd, hinfo, rfl, rfl, hlast⟩

/-! ### The staging registers -/

/-- The engine's turn leaves the staging configuration, BIN and the build as they are (spec/10_state.md R20). -/
theorem State.engineTurn_staging {s t : State} (h : s.engineTurn = .next t) :
    t.cfg = s.cfg ∧ t.tableLen = s.tableLen ∧ t.tab = s.tab ∧ t.mkey = s.mkey ∧ t.bin = s.bin ∧
    t.params = s.params := by
  rcases State.engineTurn_cases h with ⟨-, rfl⟩ | ⟨-, c, n, -, rfl⟩ | ⟨-, i, u, -, hu, rfl⟩
  · simp
  · simp
  · simp [hu.frame]

/-- Settles O29: a step that is no host move is the engine's turn. -/
theorem engineNeverWritesStagingOrBin : Obligations.EngineNeverWritesStagingOrBin := by
  intro s t h hengine
  rcases step_cases h with ⟨-, ht⟩ | ⟨m, rest, hs, -⟩
  · simpa using State.engineTurn_staging ht
  · exact absurd hs (hengine m rest)

/-! ### ACFG, SK and KEYED -/

/-- `t` holds the ACFG, SK and KEYED that `s` holds. -/
abbrev SameInstance (s t : State) : Prop := t.acfg = s.acfg ∧ t.sk = s.sk ∧ t.keyed = s.keyed

/-- INIT alone writes ACFG, SK and KEYED (spec/42_key_schedule.md R109). -/
theorem Effect.sameInstance {i : Instr} {s u : State} (h : Effect i s u) (hi : i ≠ .init) : SameInstance s u := by
  cases i
  case init => exact absurd rfl hi
  all_goals
    obtain ⟨_, _, _, _, _, rfl⟩ := h
    exact ⟨rfl, rfl, rfl⟩

theorem State.engineTurn_sameInstance {s t : State} (h : s.engineTurn = .next t) :
    SameInstance s t ∨ (s.busy = true ∧ decode s.pending = .ok .init) := by
  rcases State.engineTurn_cases h with ⟨-, rfl⟩ | ⟨-, c, n, -, rfl⟩ | ⟨hb, i, u, hi, hu, rfl⟩
  · exact .inl ⟨rfl, rfl, rfl⟩
  · exact .inl ⟨rfl, rfl, rfl⟩
  · by_cases hinit : i = .init
    · exact .inr ⟨hb, hinit ▸ hi⟩
    · exact .inl (hu.sameInstance hinit)

/-- No write but one to CTRL reaches ACFG, SK or KEYED (spec/10_state.md R46). -/
theorem State.writeLoc_sameInstance (s : State) (v : Word) {l : Loc} (hl : l ≠ .ctrl) : SameInstance s (s.writeLoc v l) := by
  cases l with
  | ctrl => exact absurd rfl hl
  | _ => exact ⟨rfl, rfl, rfl⟩

theorem State.busWrite_sameInstance (s : State) (off : Nat) (v : Word) :
    SameInstance s (s.busWrite off v) ∨ (off = 0x0008 ∧ v.getLsbD 0 = true) := by
  rcases State.busWrite_cases s off v with ⟨hoff, hw⟩ | ⟨-, -, hw⟩ | ⟨hoff, -, hw⟩ <;> rw [hw]
  · by_cases hv : v.getLsbD 0 = true
    · exact .inr ⟨hoff, hv⟩
    · exact .inl (by rw [State.writeCtrl, if_neg hv]; exact ⟨rfl, rfl, rfl⟩)
  · exact .inl ⟨rfl, rfl, rfl⟩
  · exact .inl (s.writeLoc_sameInstance v fun hc => hoff ((locate_eq_ctrl _ _).1 hc))

/-- Settles O30: the engine writes ACFG, SK and KEYED by INIT, the host by a reset. -/
theorem onlyInitAndResetChangeTheInstance : Obligations.OnlyInitAndResetChangeTheInstance := by
  intro s t h
  rcases step_cases h with ⟨hengine, ht⟩ | ⟨m, rest, hs, ht⟩
  · exact (State.engineTurn_sameInstance ht).imp_right fun ⟨hb, hi⟩ => .inl ⟨hb, hi, hengine⟩
  · rcases State.hostMove_cases ht with ⟨off, bytes, rfl, rfl⟩ | ⟨off, v, rfl, rfl⟩ | ⟨rfl, rfl⟩
    · exact .inl ⟨rfl, rfl, rfl⟩
    · refine (State.busWrite_sameInstance _ _ _).imp_right fun ⟨hoff, hv⟩ => .inr (.inr ⟨v, rest, ?_, hv⟩)
      rw [hs, BitVec.eq_of_toNat_eq (y := 0x0008#16) hoff]
    · exact .inr (.inr (.inl ⟨rest, hs⟩))

/-- Settles O6: `step` of a legal build reads the entry and performs it. -/
theorem stepPerformsTheScheduledHostMove : Obligations.StepPerformsTheScheduledHostMove := by
  intro s m rest hp hs
  simp [step, hp, hs]

/-! ### The result of a command, and what it does not read

Each command is the completion of a result. A field that the checks and the results do not read can be replaced before
the command or after it. -/

/-- The result that a command completes with. -/
def commandResult (i : Instr) (s : State) : CmdResult :=
  match i with
  | .nop => .ok s
  | .init => match parseCfg s.cfg with
    | none => .err .invalidConfig 0x0014
    | some c => initCheck s.params c s.tableLen.toNat (.ok (s.latch c))
  | .pack => s.needMessage (.ok (s.storePacked s.packed))
  | .unpack => s.needBlocks (.ok (s.storeMessage (s.unpacked (s.slots s.blkCount.toNat))))
  | .feval idx => s.needKeyed <| s.needIndex idx <|
      .ok { s with fout := roundF s.acfg.fsel s.halfR (s.subkey idx.toNat) }
  | .split => s.needBin (.ok (s.putHalves (splitBlock s.params.width s.bin)))
  | .join => .ok { s with bout := joinBlock s.params.width s.halfL s.halfR }
  | .roundFwd idx => s.needKeyed <| s.needIndex idx <|
      .ok (s.putHalves (fwdRound s.acfg.fsel (s.subkey idx.toNat) (s.halfL, s.halfR)))
  | .roundInv idx => s.needKeyed <| s.needIndex idx <|
      .ok (s.putHalves (invRound s.acfg.fsel (s.subkey idx.toNat) (s.halfL, s.halfR)))
  | .encBlock => s.needKeyed <| s.needBin <|
      .ok (s.putBlock (encryptHalves s.params.width s.acfg.fsel s.subkeys s.bin))
  | .decBlock => s.needKeyed <| s.needBin <|
      .ok (s.putBlock (decryptHalves s.params.width s.acfg.fsel s.subkeys s.bin))
  | .ecbEnc => s.needBlockBuffer (.ok (s.mapSlots s.enc))
  | .ecbDec => s.needBlockBuffer (.ok (s.mapSlots s.dec))
  | .encMsg => s.needMessage (.ok (s.storePacked (s.packed.map s.enc)))
  | .decMsg => s.needBlocks
      (.ok ((s.mapSlots s.dec).storeMessage (s.unpacked ((s.slots s.blkCount.toNat).map s.dec))))

/-- A command is the completion of its result (spec/40_command_lifecycle.md R82). -/
theorem exec_eq_complete (i : Instr) (s : State) : exec i s = s.complete (commandResult i s) := by
  cases i <;> rfl

theorem commandResult_honest (i : Instr) (s : State) : (commandResult i s).Honest := by
  cases i with
  | nop | join => exact CmdResult.ok_honest _
  | init =>
    simp only [commandResult]
    split
    · simp [CmdResult.Honest]
    · exact initCheck_honest (CmdResult.ok_honest _)
  | pack | encMsg => exact State.needMessage_honest (CmdResult.ok_honest _)
  | unpack | decMsg => exact State.needBlocks_honest (CmdResult.ok_honest _)
  | feval idx | roundFwd idx | roundInv idx =>
    exact State.needKeyed_honest (State.needIndex_honest (CmdResult.ok_honest _))
  | split => exact State.needBin_honest (CmdResult.ok_honest _)
  | encBlock | decBlock => exact State.needKeyed_honest (State.needBin_honest (CmdResult.ok_honest _))
  | ecbEnc | ecbDec => exact State.needBlockBuffer_honest (CmdResult.ok_honest _)

/-- The result with `f` applied to the state that holds the command's writes. -/
def CmdResult.map (f : State → State) : CmdResult → CmdResult
  | .ok u => .ok (f u)
  | .err c n => .err c n

section Checks

variable (f : State → State) (r : CmdResult)

theorem State.needKeyed_map (s : State) : s.needKeyed (r.map f) = (s.needKeyed r).map f := by
  unfold State.needKeyed
  split <;> rfl

theorem State.needIndex_map (s : State) (idx : BitVec 8) : s.needIndex idx (r.map f) = (s.needIndex idx r).map f := by
  unfold State.needIndex
  split <;> rfl

theorem State.needBin_map (s : State) : s.needBin (r.map f) = (s.needBin r).map f := by
  unfold State.needBin
  split <;> rfl

theorem needLength_map (n limit off : Nat) : needLength n limit off (r.map f) = (needLength n limit off r).map f := by
  unfold needLength
  split <;> rfl

theorem needAll_map {α : Type} (good : α → Bool) (xs : List α) (c : ErrCode) :
    needAll good xs c (r.map f) = (needAll good xs c r).map f := by
  unfold needAll
  split <;> rfl

theorem needDecodeLength_map (p : Params) (count n : Nat) :
    needDecodeLength p count n (r.map f) = (needDecodeLength p count n r).map f := by
  unfold needDecodeLength
  repeat' split
  all_goals rfl

theorem initCheck_map (p : Params) (c : CipherCfg) (t : Nat) :
    initCheck p c t (r.map f) = (initCheck p c t r).map f := by
  unfold initCheck
  repeat' split
  all_goals rfl

theorem State.needMessage_map (s : State) : s.needMessage (r.map f) = (s.needMessage r).map f := by
  simp only [State.needMessage, needAll_map, needLength_map, State.needKeyed_map]

theorem State.needBlocks_map (s : State) : s.needBlocks (r.map f) = (s.needBlocks r).map f := by
  simp only [State.needBlocks, State.needSlots, needAll_map, needDecodeLength_map, State.needKeyed_map]

theorem State.needBlockBuffer_map (s : State) : s.needBlockBuffer (r.map f) = (s.needBlockBuffer r).map f := by
  simp only [State.needBlockBuffer, State.needSlots, needAll_map, needLength_map, State.needKeyed_map]

end Checks

/-- The state with other values of DONE, ERR_STICKY, OVERRUN and ERR. -/
def State.withFlags (s : State) (d st ov : Bool) (e : ErrCode) : State :=
  { s with done := d, errSticky := st, overrun := ov, err := e }

/-- The four flags pass through every command's checks and writes unread. -/
theorem commandResult_withFlags (i : Instr) (s : State) (d st ov : Bool) (e : ErrCode) :
    commandResult i (s.withFlags d st ov e) = (commandResult i s).map fun u => u.withFlags d st ov e := by
  cases i with
  | nop | join => rfl
  | init =>
    cases hc : parseCfg s.cfg with
    | none => simp only [commandResult, State.withFlags, hc, CmdResult.map]
    | some c =>
      simp only [commandResult, State.withFlags, hc, ← initCheck_map]
      rfl
  | pack | encMsg =>
    simp only [commandResult, ← State.needMessage_map]
    rfl
  | unpack | decMsg =>
    simp only [commandResult, ← State.needBlocks_map]
    rfl
  | feval idx | roundFwd idx | roundInv idx =>
    simp only [commandResult, ← State.needKeyed_map, ← State.needIndex_map]
    rfl
  | split =>
    simp only [commandResult, ← State.needBin_map]
    rfl
  | encBlock | decBlock =>
    simp only [commandResult, ← State.needKeyed_map, ← State.needBin_map]
    rfl
  | ecbEnc | ecbDec =>
    simp only [commandResult, ← State.needBlockBuffer_map]
    rfl

/-- Settles O32: with the flags replaced the command has the same result, and completion sets DONE and ERR itself,
ERR_STICKY after an error, and never OVERRUN. -/
theorem flagsAreReadByNoCommand : Obligations.FlagsAreReadByNoCommand := by
  intro i s t d st ov e h
  have hhonest := commandResult_honest i s
  have hflags := commandResult_withFlags i s d st ov e
  rw [exec_eq_complete] at h
  show exec i (s.withFlags d st ov e) = _
  rw [exec_eq_complete, hflags]
  rcases State.complete_cases h with ⟨u, hu, rfl⟩ | ⟨c, n, hc, rfl⟩
  · simp [hu, CmdResult.map, State.succeed, State.withFlags]
  · rw [hc] at hhonest
    have hne : c ≠ .ok := hhonest
    simp [hc, CmdResult.map, State.raiseError, State.withFlags, hne]

end Sys2Proof.Machine

/-! The registers and buffers as the host sees them: what a read returns, what a write stores while idle, and that
nothing else changes. -/

namespace Sys2Proof.Machine

/-! ### An access by its location -/

theorem State.busRead_at {s : State} {off : Nat} {l : Loc} (hl : locate s.params off = l) :
    s.busRead off = s.readLoc l := by
  rw [State.busRead, hl]

theorem State.busWrite_idle {s : State} {off : Nat} {v : Word} {l : Loc} (hb : s.busy = false)
    (hl : locate s.params off = l) : s.busWrite off v = s.writeLoc v l := by
  unfold State.busWrite
  rw [hl]
  split
  · next hc => rw [hc]; rfl
  · simp [hb]

/-- No host write changes the build (spec/10_state.md R25, R26). -/
theorem State.busWrite_params (s : State) (off : Nat) (v : Word) : (s.busWrite off v).params = s.params := by
  have hctrl : (s.writeCtrl v).params = s.params := by
    unfold State.writeCtrl
    split <;> rfl
  rcases State.busWrite_cases s off v with ⟨-, hw⟩ | ⟨-, -, hw⟩ | ⟨-, -, hw⟩ <;> rw [hw]
  · exact hctrl
  · cases locate s.params off with
    | ctrl => exact hctrl
    | _ => rfl

/-- The read that follows an accepted write of its offset finds the location as the write left it. -/
theorem State.busRead_busWrite_idle {s : State} {off : Nat} {v : Word} {l : Loc} (hb : s.busy = false)
    (hl : locate s.params off = l) : (s.busWrite off v).busRead off = (s.writeLoc v l).readLoc l := by
  rw [State.busRead, State.busWrite_params, hl, State.busWrite_idle hb hl]

/-- The location of word `h` of BLK[j]: 0 is the low word, 1 the high one (spec/20_memory.md R54). -/
def Loc.blkWord (j h : Nat) : Loc := if h = 0 then .blkLo j else .blkHi j

theorem locate_blkWord {p : Params} (hp : p.wf = true) {j h : Nat} (hj : j < p.maxBlocks) (hh : h < 2) :
    locate p (0x8000 + 8 * j + 4 * h) = .blkWord j h := by
  interval_cases h
  · exact locate_blkLo hp hj
  · rw [show 0x8000 + 8 * j + 4 * 1 = 0x8004 + 8 * j by omega]
    exact locate_blkHi hp hj

theorem State.readLoc_blkWord (s : State) (j : Nat) {h : Nat} (hh : h < 2) :
    s.readLoc (.blkWord j h) = s.peekWord (blkAddr j + 4 * h) := by
  interval_cases h <;> rfl

theorem State.writeLoc_blkWord (s : State) (v : Word) (j : Nat) {h : Nat} (hh : h < 2) :
    s.writeLoc v (.blkWord j h) = { s with mem := Memory.writeWord s.mem (blkAddr j + 4 * h) v } := by
  interval_cases h <;> rfl

/-! ### The bytes of a word and of a slot -/

/-- A word is its four bytes. -/
theorem Word.of_bytes (v : Word) :
    v.extractLsb' 24 8 ++ v.extractLsb' 16 8 ++ v.extractLsb' 8 8 ++ v.extractLsb' 0 8 = v := by
  iterate 3 rw [BitVec.extractLsb'_append_extractLsb'_eq_extractLsb' (by omega)]
  exact BitVec.extractLsb'_eq_self

/-- Four listed bytes read as the word they are the bytes of. -/
theorem State.peekWord_of_read? {s : State} {a : Nat} {v : Word}
    (h : ∀ t < 4, Memory.read? s.mem (a + t) = some (v.extractLsb' (8 * t) 8)) : s.peekWord a = v := by
  have hpeek := fun t ht => State.peek_of_read? (h t ht)
  rw [State.peekWord, hpeek 3 (by omega), hpeek 2 (by omega), hpeek 1 (by omega)]
  exact (congrArg _ (hpeek 0 (by omega))).trans (Word.of_bytes v)

/-- Byte t of a word is the byte at its offset plus t (log 4). -/
theorem State.peekWord_byte (s : State) (a : Nat) {t : Nat} (ht : t < 4) :
    (s.peekWord a).extractLsb' (8 * t) 8 = s.peek (a + t) := by
  rw [State.peekWord]
  interval_cases t
  · exact BitVec.extractLsb'_append_eq_right
  · rw [BitVec.extractLsb'_append_eq_of_le (by omega)]
    exact BitVec.extractLsb'_append_eq_right
  · iterate 2 rw [BitVec.extractLsb'_append_eq_of_le (by omega)]
    exact BitVec.extractLsb'_append_eq_right
  · iterate 3 rw [BitVec.extractLsb'_append_eq_of_le (by omega)]
    exact BitVec.extractLsb'_eq_self

/-- Byte t of a slot is the byte at its offset plus t (log 4). -/
theorem State.slot_byte (s : State) (j : Nat) {t : Nat} (ht : t < 8) :
    (s.slot j).extractLsb' (8 * t) 8 = s.peek (blkAddr j + t) := by
  rw [State.slot]
  by_cases hlow : t < 4
  · rw [BitVec.extractLsb'_append_eq_of_add_le (by omega), State.peekWord_byte s _ hlow]
  · rw [BitVec.extractLsb'_append_eq_of_le (by omega), show 8 * t - 32 = 8 * (t - 4) by omega,
      State.peekWord_byte s _ (by omega), Nat.add_assoc, Nat.add_sub_cancel' (by omega)]

/-! ### STATUS, ID and PARAM -/

/-- Settles O20: clearing a bit where the mask bit is 1. -/
theorem statusWriteClearsOnlyItsW1CBits : Obligations.StatusWriteClearsOnlyItsW1CBits := by
  intro s v hb
  rw [State.busWrite_idle hb (l := .status) rfl]
  show s.clearStatus v = _
  unfold State.clearStatus
  cases v.getLsbD 3 <;> cases v.getLsbD 4 <;> simp

/-- The five flag bits of STATUS (spec/10_state.md R28). -/
theorem State.status_flags (s : State) :
    s.status.getLsbD 0 = s.busy ∧ s.status.getLsbD 1 = s.done ∧ s.status.getLsbD 2 = s.keyed ∧
    s.status.getLsbD 3 = s.errSticky ∧ s.status.getLsbD 4 = s.overrun := by
  refine ⟨?_, ?_, ?_, ?_, ?_⟩
  all_goals
    rw [State.status]
    repeat rw [BitVec.getLsbD_append]
    simp

theorem State.status_err (s : State) : s.status.extractLsb' 8 4 = s.err.code := by
  rw [State.status]
  iterate 6 rw [BitVec.extractLsb'_append_eq_of_le (by omega)]
  rw [BitVec.extractLsb'_append_eq_right]

/-- The bits of STATUS that no flag has (spec/10_state.md R28). -/
theorem State.status_zeros (s : State) : s.status.extractLsb' 5 3 = 0#3 ∧ s.status.extractLsb' 12 20 = 0#20 := by
  rw [State.status]
  constructor
  · iterate 5 rw [BitVec.extractLsb'_append_eq_of_le (by omega)]
    rw [BitVec.extractLsb'_append_eq_right]
  · iterate 7 rw [BitVec.extractLsb'_append_eq_of_le (by omega)]
    rw [BitVec.extractLsb'_eq_self]

/-- Settles O19, from the fields of `State.status`. -/
theorem statusShowsTheFlags : Obligations.StatusShowsTheFlags := by
  intro s
  obtain ⟨hbusy, hdone, hkeyed, hsticky, hoverrun⟩ := s.status_flags
  obtain ⟨hlow, htop⟩ := s.status_zeros
  have hread : s.busRead 0x000C = s.status := State.busRead_at (l := .status) rfl
  rw [hread, State.status_err]
  exact ⟨hbusy, hdone, hkeyed, hsticky, hoverrun, hlow, htop, by cases s.err <;> rfl⟩

/-- The fields of PARAM (spec/10_state.md R26). -/
theorem paramWord_fields (p : Params) :
    (paramWord p).extractLsb' 0 8 = BitVec.ofNat 8 p.rmax ∧ (paramWord p).extractLsb' 8 8 = BitVec.ofNat 8 p.tmax ∧
    (paramWord p).extractLsb' 16 13 = BitVec.ofNat 13 p.msgBytes ∧ (paramWord p).extractLsb' 29 3 = 0#3 := by
  rw [paramWord]
  refine ⟨?rmax, ?tmax, ?msgBytes, ?top⟩
  case rmax => rw [BitVec.extractLsb'_append_eq_right]
  case tmax =>
    rw [BitVec.extractLsb'_append_eq_of_le (by omega), BitVec.extractLsb'_append_eq_right]
  case msgBytes =>
    iterate 2 rw [BitVec.extractLsb'_append_eq_of_le (by omega)]
    rw [BitVec.extractLsb'_append_eq_right]
  case top =>
    iterate 3 rw [BitVec.extractLsb'_append_eq_of_le (by omega)]
    rw [BitVec.extractLsb'_eq_self]

/-- Settles O21: ID and PARAM are words of the build, and no write changes the build. -/
theorem idAndParamReadTheBuild : Obligations.IdAndParamReadTheBuild := by
  intro s hp
  have hid (u : State) : u.busRead 0x0000 = idWord u.params := State.busRead_at (l := .id) rfl
  have hparam (u : State) : u.busRead 0x0004 = paramWord u.params := State.busRead_at (l := .param) rfl
  obtain ⟨hr, ht, hm, -⟩ := (Params.wf_iff _).1 hp
  obtain ⟨hrmax, htmax, hmsg, htop⟩ := paramWord_fields s.params
  rw [hid, hparam, hrmax, htmax, hmsg, htop]
  refine ⟨fun hw => ?_, fun hw => ?_, Nat.mod_eq_of_lt (by omega), Nat.mod_eq_of_lt (by omega),
    Nat.mod_eq_of_lt (by omega), rfl, ?_, fun v => ⟨?_, ?_, fun hb => ⟨?_, ?_⟩⟩⟩
  · rw [idWord, hw]; rfl
  · rw [idWord, hw]; rfl
  · rintro (hd | hd) <;> rw [hd] <;> rfl
  · rw [hid, State.busWrite_params]
  · rw [hparam, State.busWrite_params]
  · exact State.busWrite_idle hb (l := .id) rfl
  · exact State.busWrite_idle hb (l := .param) rfl

/-- Settles O16: each offset is the one of a read-only location. -/
theorem readOnlyRegistersIgnoreWrites : Obligations.ReadOnlyRegistersIgnoreWrites := by
  intro s off v hp hb hoff
  rcases hoff with hreg | ⟨i, hi, rfl⟩
  · simp only [List.mem_cons, List.not_mem_nil, or_false] at hreg
    rcases hreg with rfl | rfl | rfl | rfl | rfl | rfl | rfl | rfl <;>
      exact (State.busWrite_idle hb rfl).trans rfl
  · exact State.busWrite_idle hb (locate_sk hp hi)

/-! ### What a write stores -/

/-- A location that stores trunc_H of the word is read back as the word modulo 2^H (spec/10_state.md R22). -/
theorem State.busRead_busWrite_half {s : State} {off : Nat} {v : Word} {l : Loc} (hb : s.busy = false)
    (hl : locate s.params off = l) (hstored : (s.writeLoc v l).readLoc l = truncH s.params.width v) :
    ((s.busWrite off v).busRead off).toNat = v.toNat % 2 ^ s.params.width.half := by
  rw [State.busRead_busWrite_idle hb hl, hstored, truncH_toNat]

/-- Settles O14: each of the four kinds of location stores trunc_H of the word. -/
theorem halfRegistersStoreHBits : Obligations.HalfRegistersStoreHBits := by
  intro s v h hb
  refine ⟨⟨State.busRead_busWrite_half hb (l := .halfL) rfl rfl, ?halfL⟩,
    ⟨State.busRead_busWrite_half hb (l := .halfR) rfl rfl, ?halfR⟩,
    ⟨State.busRead_busWrite_half hb (l := .mkey) rfl rfl, ?mkey⟩,
    fun j hj => ⟨State.busRead_busWrite_half hb (locate_tab hj) ?tabEntry, ?tabFrame⟩⟩
  case halfL => rw [State.busWrite_idle hb (l := .halfL) rfl]; rfl
  case halfR => rw [State.busWrite_idle hb (l := .halfR) rfl]; rfl
  case mkey => rw [State.busWrite_idle hb (l := .mkey) rfl]; rfl
  case tabEntry =>
    have hlen : j < s.tab.length := h.tabLength ▸ hj
    simp [State.readLoc, State.writeLoc, hlen]
  case tabFrame =>
    rw [State.busWrite_idle hb (locate_tab hj)]
    refine ⟨rfl, fun k hk => ?_⟩
    simp [State.writeLoc, List.getElem?_set_ne hk.symm]

/-- Settles O15: an accepted write is `writeLoc` at the location of the offset, and so is the read after it. -/
theorem idleWriteStoresItsRegister : Obligations.IdleWriteStoresItsRegister := by
  intro s v hp hb
  have hwrite {off : Nat} {l : Loc} := State.busWrite_idle (off := off) (v := v) (l := l) hb
  have hread {off : Nat} {l : Loc} := State.busRead_busWrite_idle (off := off) (v := v) (l := l) hb
  refine ⟨⟨hwrite (l := .cfg) rfl, hread (l := .cfg) rfl⟩, ⟨hwrite (l := .tableLen) rfl, hread (l := .tableLen) rfl⟩,
    ⟨hwrite (l := .binLo) rfl, (hread (l := .binLo) rfl).trans ?binLo⟩,
    ⟨hwrite (l := .binHi) rfl, (hread (l := .binHi) rfl).trans ?binHi⟩,
    ⟨hwrite (l := .msgLen) rfl, hread (l := .msgLen) rfl⟩, ⟨hwrite (l := .origLen) rfl, hread (l := .origLen) rfl⟩,
    ⟨hwrite (l := .blkCount) rfl, hread (l := .blkCount) rfl⟩, fun k hk => ?msg, fun j hj h hh => ?blk⟩
  case binLo => exact BitVec.extractLsb'_append_eq_right
  case binHi => exact (BitVec.extractLsb'_append_eq_of_le (by omega)).trans BitVec.extractLsb'_eq_self
  case msg =>
    have hloc := locate_msg hp hk
    have hbyte : (s.writeLoc v (.msg k)).msgByte k = v.extractLsb' 0 8 :=
      State.peek_of_read? (Memory.read?_write_same ..)
    refine ⟨_, rfl, ?_, (hread hloc).trans ?_, fun a ha => ?_⟩
    · rw [hwrite hloc]
      rfl
    · exact congrArg (·.setWidth 32) hbyte
    · rw [hwrite hloc]
      exact Memory.read?_write_other _ _ ha
  case blk =>
    have hloc := locate_blkWord hp hj hh
    have hstored := s.writeLoc_blkWord v j hh
    refine ⟨_, rfl, ?_, (hread hloc).trans ?_, fun a ha => ?_⟩
    · rw [hwrite hloc, hstored]
    · rw [State.readLoc_blkWord _ j hh, hstored]
      refine State.peekWord_of_read? fun t ht => ?_
      rw [Memory.read?_writeWord, if_pos (by omega), Nat.add_sub_cancel_left]
    · rw [hwrite hloc, hstored, Memory.read?_writeWord, if_neg ha]

/-! ### What a read returns -/

/-- The fields of ACFG as the host reads them (spec/10_state.md R30, R31). -/
theorem CipherCfg.toWord_fields (c : CipherCfg) :
    c.toWord.extractLsb' 0 8 = c.rounds ∧ c.toWord.extractLsb' 8 2 = c.fsel.code ∧
    c.toWord.extractLsb' 10 2 = c.ksel.code ∧ c.toWord.extractLsb' 12 2 = c.pad.code ∧
    c.toWord.extractLsb' 14 1 = c.charset.code ∧ c.toWord.extractLsb' 16 8 = c.fill := by
  rw [CipherCfg.toWord]
  refine ⟨?rounds, ?fsel, ?ksel, ?pad, ?charset, ?fill⟩
  case rounds => rw [BitVec.extractLsb'_append_eq_right]
  case fsel =>
    rw [BitVec.extractLsb'_append_eq_of_le (by omega), BitVec.extractLsb'_append_eq_right]
  case ksel =>
    iterate 2 rw [BitVec.extractLsb'_append_eq_of_le (by omega)]
    rw [BitVec.extractLsb'_append_eq_right]
  case pad =>
    iterate 3 rw [BitVec.extractLsb'_append_eq_of_le (by omega)]
    rw [BitVec.extractLsb'_append_eq_right]
  case charset =>
    iterate 4 rw [BitVec.extractLsb'_append_eq_of_le (by omega)]
    rw [BitVec.extractLsb'_append_eq_right]
  case fill =>
    iterate 6 rw [BitVec.extractLsb'_append_eq_of_le (by omega)]
    rw [BitVec.extractLsb'_append_eq_right]

/-- The RAZ/WI bits of ACFG (spec/10_state.md R30, R31). -/
theorem CipherCfg.toWord_zeros (c : CipherCfg) :
    c.toWord.getLsbD 15 = false ∧ c.toWord.extractLsb' 24 8 = 0#8 := by
  rw [CipherCfg.toWord]
  constructor
  · iterate 6 rw [BitVec.getLsbD_append]
    simp
  · iterate 7 rw [BitVec.extractLsb'_append_eq_of_le (by omega)]
    rw [BitVec.extractLsb'_eq_self]

/-- An entry of an array of H-bit values, and the bound that it meets. -/
theorem getElem?_eq_getD_of_isHalf {w : BlockWidth} {xs : List Word} (h : xs.all w.isHalf = true) {i : Nat}
    (hi : i < xs.length) : xs[i]? = some (xs.getD i 0#32) ∧ (xs.getD i 0#32).toNat < 2 ^ w.half :=
  ⟨by simp [hi], (isHalf_iff _ _).1 (getD_isHalf h i)⟩

/-- A byte zero-extended to a bus word. -/
theorem Byte.setWidth_fields (b : Byte) :
    (b.setWidth 32).extractLsb' 8 24 = 0#24 ∧ (b.setWidth 32).extractLsb' 0 8 = b := by
  constructor <;> rw [BitVec.extractLsb'_setWidth_of_le (by omega)]
  · ext i hi
    simp
  · exact BitVec.extractLsb'_eq_self

/-- Settles O60: each read is `readLoc` at the location of the offset, and the invariant bounds what H-bit locations
hold. -/
theorem readsReturnWhatTheLocationsHold : Obligations.ReadsReturnWhatTheLocationsHold := by
  intro s h
  have hacfg : s.busRead 0x0018 = s.acfg.toWord := State.busRead_at (l := .acfg) rfl
  obtain ⟨hrounds, hfsel, hksel, hpad, hcharset, hfill⟩ := s.acfg.toWord_fields
  obtain ⟨hbit15, htop⟩ := s.acfg.toWord_zeros
  refine ⟨⟨rfl, rfl, rfl⟩, ?acfg, ⟨?tableLen, rfl, rfl, rfl, rfl⟩, ?half, ⟨?bin, ?bout⟩, ⟨?msgLen, ?origLen, ?blkCount⟩,
    ⟨rfl, ?errInfo⟩, fun j hj => ?tab, fun i hi => ?sk, fun k hk => ?msg, fun j hj => ?blk⟩
  case acfg =>
    rw [hacfg, hrounds, hfsel, hksel, hpad, hcharset, hfill, hbit15, htop]
    refine ⟨rfl, ?_, ?_, ?_, ?_, rfl, rfl, rfl⟩
    · cases s.acfg.fsel <;> rfl
    · cases s.acfg.ksel <;> rfl
    · cases s.acfg.pad <;> rfl
    · cases s.acfg.charset <;> rfl
  case tableLen | msgLen | origLen | blkCount | errInfo => exact BitVec.toNat_setWidth_of_le (by omega)
  case half =>
    intro off hoff
    simp only [List.mem_cons, List.not_mem_nil, or_false] at hoff
    rcases hoff with rfl | rfl | rfl | rfl
    · exact (isHalf_iff _ _).1 h.mkeyHalf
    · exact (isHalf_iff _ _).1 h.foutHalf
    · exact (isHalf_iff _ _).1 h.halfLHalf
    · exact (isHalf_iff _ _).1 h.halfRHalf
  case bin | bout => exact BitVec.extractLsb'_append_extractLsb'
  case tab =>
    rw [State.busRead_at (locate_tab hj)]
    exact getElem?_eq_getD_of_isHalf h.tabHalf (h.tabLength ▸ hj)
  case sk =>
    rw [State.busRead_at (locate_sk h.build hi)]
    exact getElem?_eq_getD_of_isHalf h.skHalf (h.skLength ▸ hi)
  case msg =>
    rw [State.busRead_at (locate_msg h.build hk)]
    obtain ⟨hzero, hbyte⟩ := Byte.setWidth_fields (s.msgByte k)
    exact ⟨hzero, fun b hb => hbyte.trans (State.peek_of_read? hb)⟩
  case blk =>
    rw [State.busRead_at (locate_blkLo h.build hj), State.busRead_at (locate_blkHi h.build hj)]
    refine ⟨rfl, fun t ht b hb => ?_⟩
    rw [State.slot_byte s j ht]
    exact State.peek_of_read? hb

end Sys2Proof.Machine

/-! The memory map's edges: which accesses the interface has, which offsets are mapped, and what an access to an
unmapped offset does. -/

namespace Sys2Proof.Machine

/-! ### The accesses of the interface -/

/-- An aligned 32-bit read changes nothing but the model's own fields (spec/20_memory.md R51). -/
theorem State.hostMove_read (s : State) {off : BitVec 16} (h : off.toNat % 4 = 0) :
    s.hostMove (.read off 4) = .next (s.afterRead off.toNat) :=
  if_pos ((accessLegal_iff _ _).2 ⟨rfl, h⟩)

theorem State.hostMove_write (s : State) {off : BitVec 16} (v : Word) (h : off.toNat % 4 = 0) :
    s.hostMove (.write off 4 v) = .next (s.busWrite off.toNat v) :=
  if_pos ((accessLegal_iff _ _).2 ⟨rfl, h⟩)

theorem accessLegal_eq_false_iff (off : BitVec 16) (bytes : Nat) :
    accessLegal off bytes = false ↔ bytes ≠ 4 ∨ off.toNat % 4 ≠ 0 := by
  rw [← Bool.not_eq_true, accessLegal_iff, not_and_or]

theorem State.hostMove_of_legalInput (s : State) {m : HostMove} (h : legalInput (.host m) = true) :
    ∃ t, s.hostMove m = .next t := by
  cases m with
  | read off bytes => exact ⟨_, if_pos h⟩
  | write off bytes v => exact ⟨_, if_pos h⟩
  | hardReset => exact ⟨_, rfl⟩

/-- A move that the interface does not have is refused (spec/20_memory.md R50). -/
theorem State.hostMove_of_not_legalInput (s : State) {m : HostMove} (h : legalInput (.host m) = false) :
    s.hostMove m = .refused .accessOutsideInterface := by
  cases m with
  | read off bytes => exact if_neg (Bool.not_eq_true _ ▸ h)
  | write off bytes v => exact if_neg (Bool.not_eq_true _ ▸ h)
  | hardReset => exact absurd h (by simp [legalInput])

/-- The entries of the schedule that the interface does not have: reads and writes, by width or by alignment. -/
theorem legalInput_eq_false_iff (i : Input) :
    legalInput i = false ↔ ∃ (off : BitVec 16) (bytes : Nat), (bytes ≠ 4 ∨ off.toNat % 4 ≠ 0) ∧
      (i = .host (.read off bytes) ∨ ∃ v, i = .host (.write off bytes v)) := by
  constructor
  · intro h
    match i with
    | .engineTurn => cases h
    | .host (.read off bytes) => exact ⟨off, bytes, (accessLegal_eq_false_iff _ _).1 h, .inl rfl⟩
    | .host (.write off bytes v) => exact ⟨off, bytes, (accessLegal_eq_false_iff _ _).1 h, .inr ⟨v, rfl⟩⟩
    | .host .hardReset => cases h
  · rintro ⟨off, bytes, h, rfl | ⟨v, rfl⟩⟩ <;> exact (accessLegal_eq_false_iff _ _).2 h

/-- Settles O13, by `State.hostMove_read`. -/
theorem readsHaveNoSideEffect : Obligations.ReadsHaveNoSideEffect :=
  fun s _ h => s.hostMove_read h

/-- Settles O10: neither access is legal. -/
theorem accessOutsideTheInterfaceIsRefused : Obligations.AccessOutsideTheInterfaceIsRefused := by
  intro s off bytes v h
  have hillegal : accessLegal off bytes = false := (accessLegal_eq_false_iff _ _).2 h
  exact ⟨s.hostMove_of_not_legalInput hillegal, s.hostMove_of_not_legalInput hillegal⟩

/-! ### When a step is refused -/

/-- The engine's turn always has a next state: whatever word is pending, it completes. -/
theorem State.engineTurn_next (s : State) : ∃ t, s.engineTurn = .next t := by
  unfold State.engineTurn
  split
  · split
    · exact exec_next _ s
    · exact s.complete_next _
  · exact ⟨s, rfl⟩

/-- A step of a legal build has a next state unless an access outside the interface is scheduled next. -/
theorem step_next {s : State} (hp : s.params.wf = true) (h : ∀ i rest, s.inputs = i :: rest → legalInput i = true) :
    ∃ t, step s = .next t := by
  rw [step, if_pos hp]
  split
  · exact s.engineTurn_next
  · exact State.engineTurn_next _
  · next m rest hs => exact State.hostMove_of_legalInput _ (h _ _ hs)

theorem step_refused {s : State} (hp : s.params.wf = true) {i : Input} {rest : List Input} (hs : s.inputs = i :: rest)
    (h : legalInput i = false) : step s = .refused .accessOutsideInterface := by
  cases i with
  | engineTurn => cases h
  | host m => exact (stepPerformsTheScheduledHostMove s m rest hp hs).trans (State.hostMove_of_not_legalInput _ h)

/-- A step of a legal build is refused exactly where the next entry of the schedule is one the interface does not have
(spec/20_memory.md R50). -/
theorem step_refused_iff {s : State} (hp : s.params.wf = true) :
    (∃ r, step s = .refused r) ↔ ∃ i rest, s.inputs = i :: rest ∧ legalInput i = false := by
  constructor
  · rintro ⟨r, hr⟩
    by_contra hnone
    obtain ⟨t, ht⟩ := step_next hp fun i rest hs => by
      by_contra hi
      exact hnone ⟨i, rest, hs, by simpa using hi⟩
    rw [hr] at ht
    cases ht
  · rintro ⟨i, rest, hs, hi⟩
    exact ⟨_, step_refused hp hs hi⟩

/-- Settles O9: `Fault` has no constructor, and the entries that are refused are those of `legalInput_eq_false_iff`. -/
theorem stepRefusesOnlyAccessesOutsideTheInterface : Obligations.StepRefusesOnlyAccessesOutsideTheInterface := by
  intro s hp
  refine ⟨nofun, (step_refused_iff hp).trans ⟨?_, ?_⟩⟩
  · rintro ⟨i, rest, hs, hi⟩
    obtain ⟨off, bytes, hbad, hkind⟩ := (legalInput_eq_false_iff i).1 hi
    exact ⟨off, bytes, rest, hbad, by simpa [hs] using hkind⟩
  · rintro ⟨off, bytes, rest, hbad, hs | ⟨v, hs⟩⟩
    · exact ⟨_, rest, hs, (legalInput_eq_false_iff _).2 ⟨off, bytes, hbad, .inl rfl⟩⟩
    · exact ⟨_, rest, hs, (legalInput_eq_false_iff _).2 ⟨off, bytes, hbad, .inr ⟨v, rfl⟩⟩⟩

/-! ### The address map -/

/-- A register row names the location that stands at its offset. -/
theorem registerMap_lookup_offset {off : Nat} {l : Loc} (p : Params) (h : registerMap.lookup off = some l) :
    l.offset = off ∧ l.exists p = true := by
  have hrow : (off, l) ∈ registerMap := by
    obtain ⟨_, _, hsplit, -⟩ := List.lookup_eq_some_iff.1 h
    simp [hsplit]
  have hall : ∀ r ∈ registerMap, r.2.offset = r.1 ∧ r.2.exists p = true := by
    simp [registerMap, Loc.offset, Loc.exists]
  exact hall _ hrow

/-- An array row names the entry that stands at its aligned offset. -/
theorem locateArray_offset {p : Params} {off : Nat} (ha : off % 4 = 0) (h : locateArray p off ≠ .unmapped) :
    (locateArray p off).offset = off ∧ (locateArray p off).exists p = true := by
  unfold locateArray at h ⊢
  split_ifs at h ⊢
  rotate_right
  · exact absurd rfl h
  all_goals
    simp only [Loc.offset, Loc.exists, decide_eq_true_eq]
    omega

/-- What the address map names at an aligned offset stands there and exists. -/
theorem offset_locate {p : Params} {off : Nat} (ha : off % 4 = 0) (h : locate p off ≠ .unmapped) :
    (locate p off).offset = off ∧ (locate p off).exists p = true := by
  unfold locate at h ⊢
  split at h
  · next l hl => exact registerMap_lookup_offset p hl
  · exact locateArray_offset ha h

/-- The address map finds each location of a legal build at its offset. -/
theorem locate_offset {p : Params} (hp : p.wf = true) {l : Loc} (h : l.exists p = true) :
    locate p l.offset = l := by
  cases l with
  | tab j => exact locate_tab (of_decide_eq_true h)
  | sk i => exact locate_sk hp (of_decide_eq_true h)
  | msg k => exact locate_msg hp (of_decide_eq_true h)
  | blkLo j => exact locate_blkLo hp (of_decide_eq_true h)
  | blkHi j => exact locate_blkHi hp (of_decide_eq_true h)
  | unmapped => cases h
  | _ => rfl

/-- The locations of a legal build stand at aligned 16-bit offsets (spec/20_memory.md R47). -/
theorem Loc.offset_bounds {p : Params} (hp : p.wf = true) {l : Loc} (h : l.exists p = true) :
    l.offset < 0x10000 ∧ l.offset % 4 = 0 := by
  obtain ⟨hr, ht, hm, -⟩ := (Params.wf_iff p).1 hp
  have hblocks : p.maxBlocks ≤ p.msgBytes := BlockWidth.blocksFor_le _ _
  cases l with
  | tab | sk | msg | blkLo | blkHi =>
    have hentry := of_decide_eq_true h
    simp only [Loc.offset]
    omega
  | _ => decide

/-- Settles O18: `Loc.offset` and `locate` are inverse to each other on what exists. -/
theorem addressMapIsExact : Obligations.AddressMapIsExact := by
  intro p hp
  refine ⟨fun l hl => ?_, fun off ha hmapped => offset_locate ha hmapped⟩
  obtain ⟨hbound, haligned⟩ := Loc.offset_bounds hp hl
  exact ⟨hbound, haligned, locate_offset hp hl⟩

/-! ### Unmapped offsets -/

/-- A write to an unmapped offset is ignored, and sets OVERRUN while BUSY = 1 (spec/20_memory.md R49). -/
theorem State.busWrite_unmapped {s : State} {off : Nat} (v : Word) (hl : locate s.params off = .unmapped) :
    s.busWrite off v = { s with overrun := s.overrun || s.busy } := by
  rcases State.busWrite_cases s off v with ⟨hoff, -⟩ | ⟨-, hb, hw⟩ | ⟨-, hb, hw⟩
  · rw [(locate_eq_ctrl _ _).2 hoff] at hl
    cases hl
  · simp [hw, hb]
  · have hkeep : (s.overrun || s.busy) = s.overrun := by simp [hb]
    rw [hw, hl, hkeep]
    rfl

/-- Settles O17: the ranges hold no register and no array entry. -/
theorem unmappedOffsetsReadZeroAndIgnoreWrites : Obligations.UnmappedOffsetsReadZeroAndIgnoreWrites := by
  intro s off v hp ha hrange
  obtain ⟨hr, ht, hm, -⟩ := (Params.wf_iff _).1 hp
  have hloc : locate s.params off.toNat = .unmapped := by
    rw [locate_of_array _ (by omega), locateArray, if_neg (by omega), if_neg (by omega), if_neg (by omega),
      if_neg (by omega)]
  refine ⟨State.busRead_at hloc, ⟨_, s.hostMove_read ha⟩, ?_⟩
  rw [s.hostMove_write v ha, State.busWrite_unmapped v hloc]

end Sys2Proof.Machine

/-! The command words: the encoder and the decoder are inverse to each other, the words that they share are the legal
ones, and what the engine makes of every other word. -/

namespace Sys2Proof

/-! ### The fields of a word -/

@[simp] theorem opField_commandWord (idx op : BitVec 8) : opField (commandWord idx op) = op :=
  BitVec.extractLsb'_append_eq_right

@[simp] theorem idxField_commandWord (idx op : BitVec 8) : idxField (commandWord idx op) = idx :=
  (BitVec.extractLsb'_append_eq_of_le (Nat.le_refl 8)).trans BitVec.extractLsb'_append_eq_right

@[simp] theorem rsvdField_commandWord (idx op : BitVec 8) : rsvdField (commandWord idx op) = 0#16 :=
  (Laws.commandWord_row idx op).2

/-- A word with RSVD = 0 is made of its IDX and its OP (spec/30_encoding.md R65). -/
theorem commandWord_fields {w : Word} (hr : rsvdField w = 0#16) : commandWord (idxField w) (opField w) = w := by
  have hhigh : w.extractLsb' 16 16 ++ w.extractLsb' 8 8 = w.extractLsb' 8 24 :=
    BitVec.extractLsb'_append_extractLsb'_eq_extractLsb' rfl
  have hall : w.extractLsb' 8 24 ++ w.extractLsb' 0 8 = w.extractLsb' 0 32 :=
    BitVec.extractLsb'_append_extractLsb'_eq_extractLsb' rfl
  calc commandWord (idxField w) (opField w)
      = w.extractLsb' 16 16 ++ w.extractLsb' 8 8 ++ w.extractLsb' 0 8 := by rw [commandWord, ← hr]; rfl
    _ = w := by rw [hhigh]; exact hall.trans BitVec.extractLsb'_eq_self

/-- The number of a word is IDX * 256 + OP (spec/30_encoding.md R66). -/
theorem ofNat_eq_commandWord (idx op : BitVec 8) :
    BitVec.ofNat 32 (idx.toNat * 256 + op.toNat) = commandWord idx op := by
  have happend : (commandWord idx op).toNat = (0#16 ++ idx).toNat <<< 8 ||| op.toNat := BitVec.toNat_append _ _
  have hidx : (0#16 ++ idx).toNat = idx.toNat := by rw [BitVec.toNat_append]; simp
  have hword : (commandWord idx op).toNat = idx.toNat * 256 + op.toNat := by
    rw [happend, hidx, ← Nat.shiftLeft_add_eq_or_of_lt op.isLt, Nat.shiftLeft_eq]
  rw [← hword, BitVec.ofNat_toNat, BitVec.setWidth_eq]

/-! ### Decoding a word that was encoded -/

theorem decode_commandWord (idx op : BitVec 8) : decode (commandWord idx op) = decodeOp (commandWord idx op) :=
  if_pos (rsvdField_commandWord idx op)

theorem decodeI_commandWord (idx op : BitVec 8) (c : BitVec 8 → Instr) :
    decodeI (commandWord idx op) c = .ok (c idx) := by
  rw [decodeI, idxField_commandWord]

/-- Settles O2: the words of format N are closed, those of format I keep OP and IDX apart. -/
theorem decodeOfEncodeIsTheCommand : Obligations.DecodeOfEncodeIsTheCommand := by
  intro i
  cases i with
  | feval idx | roundFwd idx | roundInv idx =>
    simp [encode, decode_commandWord, decodeOp, decodeI_commandWord]
  | _ => rfl

/-- No two commands have the same word (spec/30_encoding.md R70). -/
theorem encode_injective : Function.Injective encode := by
  intro i j h
  have hdecode := congrArg decode h
  rw [decodeOfEncodeIsTheCommand i, decodeOfEncodeIsTheCommand j] at hdecode
  exact Except.ok.inj hdecode

/-! ### Encoding a command that was decoded -/

/-- A word that format N accepts for `i` is the word of `i`. -/
theorem encode_of_decodeN {w : Word} {i j : Instr} {n : Nat} (hr : rsvdField w = 0#16) (hop : (opField w).toNat = n)
    (hi : encode i = commandWord 0#8 (BitVec.ofNat 8 n)) (h : decodeN w i = .ok j) : encode j = w := by
  unfold decodeN at h
  split at h
  · next hidx =>
    obtain rfl := Except.ok.inj h
    rw [hi, ← hop, BitVec.ofNat_toNat, BitVec.setWidth_eq, ← hidx, commandWord_fields hr]
  · cases h

/-- A word that format I accepts for `c` is the word of `c` with the word's index. -/
theorem encode_of_decodeI {w : Word} {c : BitVec 8 → Instr} {j : Instr} {n : Nat} (hr : rsvdField w = 0#16)
    (hop : (opField w).toNat = n) (hc : ∀ idx, encode (c idx) = commandWord idx (BitVec.ofNat 8 n))
    (h : decodeI w c = .ok j) : encode j = w := by
  obtain rfl := Except.ok.inj h
  rw [hc, ← hop, BitVec.ofNat_toNat, BitVec.setWidth_eq, commandWord_fields hr]

/-- A word that the decoder accepts is the word of its command, row by row of the opcode map. -/
theorem encode_of_decode {w : Word} {i : Instr} (h : decode w = .ok i) : encode i = w := by
  unfold decode at h
  split at h
  · next hr =>
    unfold decodeOp at h
    split at h
    case h_5 hop | h_8 hop | h_9 hop => exact encode_of_decodeI hr hop (fun _ => rfl) h
    case h_16 => cases h
    all_goals next hop => exact encode_of_decodeN hr hop rfl h
  · cases h

/-! ### The legal words -/

/-- `legalWord` by the fields of the word (spec/30_encoding.md R69). -/
theorem legalWord_iff (w : Word) :
    legalWord w = true ↔
      rsvdField w = 0#16 ∧ (opField w ∈ opcodesI ∨ (opField w ∈ opcodesN ∧ idxField w = 0#8)) := by
  simp [legalWord, rsvdField, opField, idxField]

/-- The commands of format N, in the order of `opcodesN`. -/
def commandsN : List Instr :=
  [.nop, .init, .pack, .unpack, .split, .join, .encBlock, .decBlock, .ecbEnc, .ecbDec, .encMsg, .decMsg]

/-- The commands of format I, in the order of `opcodesI`. -/
def commandsI : List (BitVec 8 → Instr) := [.feval, .roundFwd, .roundInv]

theorem map_encode_commandsN : commandsN.map encode = opcodesN.map (commandWord 0#8) := rfl

theorem map_encode_commandsI (idx : BitVec 8) :
    commandsI.map (fun c => encode (c idx)) = opcodesI.map (commandWord idx) := rfl

/-- A legal word is the word of a command, found by its OP in the list of its format. -/
theorem exists_encode_of_legalWord {w : Word} (h : legalWord w = true) : ∃ i, encode i = w := by
  obtain ⟨hr, hop | ⟨hop, hidx⟩⟩ := (legalWord_iff w).1 h
  · have hmem : w ∈ opcodesI.map (commandWord (idxField w)) := List.mem_map.2 ⟨_, hop, commandWord_fields hr⟩
    rw [← map_encode_commandsI] at hmem
    obtain ⟨c, -, hc⟩ := List.mem_map.1 hmem
    exact ⟨c (idxField w), hc⟩
  · have hmem : w ∈ opcodesN.map (commandWord 0#8) := List.mem_map.2 ⟨_, hop, hidx ▸ commandWord_fields hr⟩
    rw [← map_encode_commandsN] at hmem
    obtain ⟨i, -, hi⟩ := List.mem_map.1 hmem
    exact ⟨i, hi⟩

theorem legalWord_encode (i : Instr) : legalWord (encode i) = true := by
  cases i with
  | feval idx | roundFwd idx | roundInv idx => simp [legalWord_iff, encode, opcodesI]
  | _ => rfl

/-- No OP stands in both formats (spec/30_encoding.md R68). -/
theorem not_mem_opcodesI_of_mem_opcodesN : ∀ op ∈ opcodesN, op ∉ opcodesI := by decide

/-- Each of the three grounds of spec/30_encoding.md R69 makes a word illegal. -/
theorem legalWord_eq_false {w : Word}
    (h : rsvdField w ≠ 0#16 ∨ opField w ∉ opcodesN ++ opcodesI ∨ (opField w ∈ opcodesN ∧ idxField w ≠ 0#8)) :
    legalWord w = false := by
  rw [← Bool.not_eq_true, legalWord_iff]
  rintro ⟨hr, hop⟩
  rcases h with hbad | hbad | ⟨hN, hidx⟩
  · exact hbad hr
  · exact hbad (List.mem_append.2 (hop.symm.imp_left And.left))
  · rcases hop with hI | ⟨-, hzero⟩
    · exact not_mem_opcodesI_of_mem_opcodesN _ hN hI
    · exact hidx hzero

/-- The decoder rejects every illegal word, because it accepts words of commands only. -/
theorem decode_of_illegal {w : Word} (h : legalWord w = false) : ∃ e, decode w = .error e := by
  cases hd : decode w with
  | error e => exact ⟨e, rfl⟩
  | ok i =>
    have hlegal := legalWord_encode i
    rw [encode_of_decode hd, h] at hlegal
    cases hlegal

/-- Settles O3: the legal words are the words of the commands, and the encoder is injective. -/
theorem everyWordIsOneCommandOrIllegal : Obligations.EveryWordIsOneCommandOrIllegal := by
  refine fun w => ⟨fun hlegal => ?_, fun hillegal => ⟨decode_of_illegal hillegal, ?_⟩⟩
  · obtain ⟨i, rfl⟩ := exists_encode_of_legalWord hlegal
    exact ⟨i, decodeOfEncodeIsTheCommand i, rfl, fun _ hj => encode_injective hj⟩
  · rintro j rfl
    exact absurd hillegal (by simp [legalWord_encode])

/-- Settles O1: each row's word is the encoding of its command. -/
theorem everyTableRowDecodesToItsCommand : Obligations.EveryTableRowDecodesToItsCommand := by
  have hrow := decodeOfEncodeIsTheCommand
  refine ⟨hrow .nop, hrow .init, hrow .pack, hrow .unpack, hrow .split, hrow .join, hrow .encBlock, hrow .decBlock,
    hrow .ecbEnc, hrow .ecbDec, hrow .encMsg, hrow .decMsg, fun idx => ⟨?_, ?_, ?_⟩⟩
  · exact (congrArg decode (ofNat_eq_commandWord idx 0x10#8)).trans (hrow (.feval idx))
  · exact (congrArg decode (ofNat_eq_commandWord idx 0x22#8)).trans (hrow (.roundFwd idx))
  · exact (congrArg decode (ofNat_eq_commandWord idx 0x23#8)).trans (hrow (.roundInv idx))

end Sys2Proof

namespace Sys2Proof.Machine

/-! ### The engine's turn on an illegal word -/

theorem step_nothing_scheduled {s : State} (hp : s.params.wf = true) (hs : s.inputs = []) : step s = s.engineTurn := by
  simp [step, hp, hs]

theorem step_engineTurn_scheduled {s : State} {rest : List Input} (hp : s.params.wf = true)
    (hs : s.inputs = .engineTurn :: rest) : step s = State.engineTurn { s with inputs := rest } := by
  simp [step, hp, hs]

/-- The error record whose detail value is an OP (spec/30_encoding.md R69). -/
theorem State.raiseError_opcode (s : State) (c : ErrCode) (op : BitVec 8) :
    s.raiseError c op.toNat = { s with
      err := c, errSticky := true, errCmd := s.pending, errInfo := op.setWidth 16
      busy := false, done := true, draws := s.draws + 1 } := by
  rw [State.raiseError, BitVec.ofNat_toNat]

theorem State.engineTurn_illegal {s : State} (hb : s.busy = true) (h : legalWord s.pending = false) :
    s.engineTurn = .next (s.raiseError .illegalCommand (opField s.pending).toNat) := by
  obtain ⟨e, he⟩ := decode_of_illegal h
  simp [State.engineTurn, hb, State.fetch, he, State.completeIllegal, opField]

/-- Acceptance does not look at the word (spec/40_command_lifecycle.md R79). -/
theorem State.hostMove_write_cmd {s : State} (hb : s.busy = false) (w : Word) :
    s.hostMove (.write 0x0010#16 4 w) = .next (s.issue w) := by
  rw [s.hostMove_write w (by decide), State.busWrite_idle hb (l := .cmd) rfl]
  rfl

/-- Settles O4: the word is accepted like any other, and the engine's turn raises the error in whichever way the step
comes to it. -/
theorem illegalWordCompletesWithIllegalCommand : Obligations.IllegalWordCompletesWithIllegalCommand := by
  intro w hw
  have hillegal : legalWord w = false := legalWord_eq_false hw
  refine ⟨fun s hb => ⟨_, s.hostMove_write_cmd hb w, rfl, rfl⟩, ?_⟩
  rintro s hp hb rfl
  refine ⟨fun hs => ⟨s.draws + 1, ?_⟩, fun rest hs => ⟨s.draws + 1, ?_⟩⟩
  · rw [step_nothing_scheduled hp hs, State.engineTurn_illegal hb hillegal, State.raiseError_opcode]
    rfl
  · rw [step_engineTurn_scheduled hp hs, State.engineTurn_illegal (s := { s with inputs := rest }) hb hillegal,
      State.raiseError_opcode]
    rfl

end Sys2Proof.Machine

/-! The life of a command: its acceptance by the host's write, the engine's turn that runs and completes it, what each
completion writes, and which commands need KEYED. -/

namespace Sys2Proof.Machine

/-! ### Acceptance -/

/-- Settles O11: the write reaches CMD, and acceptance is `State.issue`. -/
theorem cmdWriteIssuesTheCommand : Obligations.CmdWriteIssuesTheCommand :=
  fun _ w hb => State.hostMove_write_cmd hb w

/-- While BUSY = 1 the write of any location but CTRL is ignored and sets OVERRUN (spec/40_command_lifecycle.md R80). -/
theorem State.busWrite_busy {s : State} {off : Nat} (v : Word) (hb : s.busy = true) (hoff : off ≠ 0x0008) :
    s.busWrite off v = { s with overrun := true } := by
  rw [State.busWrite, if_neg (mt (locate_eq_ctrl _ _).1 hoff), if_pos hb]

/-- A write to CTRL acts whether BUSY is 0 or 1 (spec/70_reset_and_hazards.md R157). -/
theorem State.busWrite_ctrl (s : State) (v : Word) :
    s.busWrite 0x0008 v = if v.getLsbD 0 then s.toReset else s := by
  rw [State.busWrite, if_pos ((locate_eq_ctrl _ _).2 rfl), State.writeCtrl]

/-- Settles O12: every aligned access is one of the interface, and CTRL stands at 0x0008 alone. -/
theorem writeWhileBusyOnlySetsOverrun : Obligations.WriteWhileBusyOnlySetsOverrun := by
  intro s off v hb ha
  refine ⟨fun hoff => ?_, ?_, ⟨_, s.hostMove_read ha⟩⟩
  · have hne : off.toNat ≠ 0x0008 := fun h => hoff (BitVec.eq_of_toNat_eq h)
    rw [s.hostMove_write v ha, State.busWrite_busy v hb hne]
  · rintro rfl
    exact (s.hostMove_write v ha).trans (congrArg _ (s.busWrite_ctrl v))

/-! ### The engine's turn on the pending word -/

theorem State.engineTurn_command {s : State} {i : Instr} (hb : s.busy = true) (hi : decode s.pending = .ok i) :
    s.engineTurn = exec i s := by
  simp [State.engineTurn, hb, State.fetch, hi]

/-- Settles O5: the step is the engine's turn, scheduled or not, and the turn runs the command. -/
theorem stepRunsTheDecodedCommand : Obligations.StepRunsTheDecodedCommand := by
  intro s i hp hb hi
  refine ⟨fun hs => ?_, fun rest hs => ?_⟩
  · rw [step_nothing_scheduled hp hs, State.engineTurn_command hb hi]
  · rw [step_engineTurn_scheduled hp hs]
    exact State.engineTurn_command hb hi

/-- `t` is a state in which the command that was pending in `s` has completed, by success or by an error
(spec/40_command_lifecycle.md R82). -/
def Completed (s t : State) : Prop :=
  t.busy = false ∧ t.done = true ∧ t.pending = s.pending ∧ t.lastCmd = s.lastCmd ∧ t.inputs = s.inputs

/-- Whatever word is pending, the engine's turn completes it (spec/40_command_lifecycle.md R85). -/
theorem State.engineTurn_completes {s : State} (hb : s.busy = true) : ∃ t, s.engineTurn = .next t ∧ Completed s t := by
  obtain ⟨t, ht⟩ := s.engineTurn_next
  refine ⟨t, ht, ?_⟩
  rcases State.engineTurn_cases ht with ⟨hidle, -⟩ | ⟨-, c, n, -, rfl⟩ | ⟨-, i, u, -, hu, rfl⟩
  · rw [hb] at hidle
    cases hidle
  · exact ⟨rfl, rfl, rfl, rfl, rfl⟩
  · simp [Completed, hu.frame]

/-- Where no host move is scheduled next, a step is the engine's turn with the entry that gave it, if there was one, off
the schedule (log 5). -/
theorem step_of_engine_next {s : State} (hp : s.params.wf = true)
    (hs : s.inputs = [] ∨ ∃ rest, s.inputs = .engineTurn :: rest) :
    step s = State.engineTurn { s with inputs := s.inputs.tail } := by
  rcases hs with hs | ⟨rest, hs⟩
  · have hself : { s with inputs := s.inputs.tail } = s := by rw [hs, List.tail_nil, ← hs]
    rw [step_nothing_scheduled hp hs, hself]
  · rw [step_engineTurn_scheduled hp hs, hs, List.tail_cons]

/-- Settles O8: the step is the engine's turn, which completes the pending word and leaves the rest of the schedule. -/
theorem pendingCommandCompletesInOneStep : Obligations.PendingCommandCompletesInOneStep := by
  intro s hp hb hs
  rw [step_of_engine_next hp hs]
  exact State.engineTurn_completes hb

/-! ### What a completion writes -/

/-- Settles O24: the two completions are these updates of the state. -/
theorem completionWritesExactly : Obligations.CompletionWritesExactly :=
  fun _ _ _ _ => ⟨rfl, rfl, rfl, rfl⟩

/-- Settles O25: a command that does not succeed writes the error record alone, and one that succeeds leaves ERR = 0. -/
theorem failedCommandWritesOnlyTheErrorRecord : Obligations.FailedCommandWritesOnlyTheErrorRecord := by
  intro i s t h herr
  rcases exec_cases h with ⟨c, n, -, rfl⟩ | ⟨u, -, rfl⟩
  · rfl
  · exact absurd u.succeed_err herr

/-! ### The commands that need KEYED -/

/-- The commands that need KEYED: all but NOP, INIT, SPLIT and JOIN (spec/40_command_lifecycle.md R86). -/
def needsInstance : Instr → Bool
  | .nop | .init | .split | .join => false
  | _ => true

/-- The check of KEYED comes before every other check (spec/60_exceptions.md R144). -/
theorem commandResult_not_keyed {i : Instr} {s : State} (hi : needsInstance i = true) (hk : s.keyed = false) :
    commandResult i s = .err .notKeyed 0 := by
  cases i with
  | nop | init | split | join => cases hi
  | _ => exact State.needKeyed_false _ hk

/-- INIT's checks raise INVALID_SUBKEY_COUNT or INVALID_CONFIG (spec/42_key_schedule.md R107). -/
theorem initCheck_ne_notKeyed {p : Params} {c : CipherCfg} {t n : Nat} {r : CmdResult} (h : r ≠ .err .notKeyed n) :
    initCheck p c t r ≠ .err .notKeyed n := by
  unfold initCheck
  repeat' split
  case isFalse.isFalse.isFalse.isFalse => exact h
  all_goals simp

theorem commandResult_ne_notKeyed {i : Instr} (hi : needsInstance i = false) (s : State) (n : Nat) :
    commandResult i s ≠ .err .notKeyed n := by
  cases i with
  | nop | join => nofun
  | init =>
    simp only [commandResult]
    split
    · simp
    · exact initCheck_ne_notKeyed (by simp)
  | split =>
    simp only [commandResult, State.needBin]
    split <;> simp
  | _ => cases hi

/-- Settles O28: the eleven check KEYED first, and no check of the four raises NOT_KEYED. -/
theorem commandsThatNeedAnInstance : Obligations.CommandsThatNeedAnInstance := by
  refine fun s => ⟨fun hk idx i hi => ?_, fun i hi => ?_⟩
  · have hneeds : needsInstance i = true := by
      revert i
      simp [needsInstance]
    rw [exec_eq_complete, commandResult_not_keyed hneeds hk, State.complete_err]
  · have hfree : needsInstance i = false := by
      revert i
      simp [needsInstance]
    have hne := commandResult_ne_notKeyed hfree s
    rw [exec_eq_complete]
    cases hr : commandResult i s with
    | ok u => exact ⟨u.succeed, rfl, by simp⟩
    | err c n =>
      refine ⟨s.raiseError c n, rfl, ?_⟩
      rintro (rfl : c = .notKeyed)
      exact hne n hr

/-! ### NOP -/

/-- A word with OP 0x00 that is not 0x00000000 has a bit set in RSVD or in IDX (spec/30_encoding.md R69). -/
theorem legalWord_eq_false_of_nop_op {w : Word} (hw : w ≠ 0#32) (hop : opField w = 0#8) : legalWord w = false := by
  apply legalWord_eq_false
  by_cases hr : rsvdField w = 0#16
  · refine .inr (.inr ⟨by simp [hop, opcodesN], fun hidx => hw ?_⟩)
    rw [← commandWord_fields hr, hidx, hop]
    rfl
  · exact .inl hr

/-- Settles O33: NOP is the completion of the state itself, and the decoder rejects what `legalWord` does. -/
theorem nopOnlyCompletes : Obligations.NopOnlyCompletes :=
  ⟨fun s => ⟨s.draws + 1, rfl⟩, decodeOfEncodeIsTheCommand .nop,
    fun _ hw hop => decode_of_illegal (legalWord_eq_false_of_nop_op hw hop)⟩

end Sys2Proof.Machine

/-! The serializer: what pack and unpack make of a message byte by byte, the checks that PACK and UNPACK share with
ENC_MSG and DEC_MSG, and the two commands. -/

namespace Sys2Proof.Machine

/-! ### pack and unpack -/

/-- Every group that pack takes from the padded message is a whole one. -/
theorem padMessage_group_length (w : BlockWidth) (pad : PadPolicy) (fill : Byte) (m : List Byte) {j : Nat}
    (hj : j < w.blocksFor m.length) :
    (((padMessage w pad fill m).drop (j * w.bytes)).take w.bytes).length = w.bytes := by
  have hnext : (j + 1) * w.bytes ≤ w.blocksFor m.length * w.bytes := Nat.mul_le_mul_right _ hj
  rw [Nat.succ_mul] at hnext
  rw [List.length_take, List.length_drop, padMessage_length]
  omega

/-- Every block that pack makes is well-formed (spec/41_bitpacker.md R91). -/
theorem packMessage_wellFormed {w : BlockWidth} {pad : PadPolicy} {fill : Byte} {m : List Byte} {b : Block}
    (hb : b ∈ packMessage w pad fill m) : b.toNat < 2 ^ w.bits := by
  obtain ⟨j, hj, rfl⟩ := List.mem_iff_getElem.1 hb
  have hcount : j < w.blocksFor m.length := by simpa using hj
  rw [(List.getElem_eq_iff _).2 (packMessage_getElem? w pad fill m hcount)]
  exact (groupBlock_bytes (padMessage_group_length w pad fill m hcount)).1

/-- Byte t of block j is byte j*B + t of the padded message (spec/41_bitpacker.md R91). -/
theorem packMessage_byte (w : BlockWidth) (pad : PadPolicy) (fill : Byte) (m : List Byte) {j t : Nat}
    (hj : j < w.blocksFor m.length) (ht : t < w.bytes) :
    ((packMessage w pad fill m).getD j 0#64).extractLsb' (w.bits - 8 - 8 * t) 8 =
      (padMessage w pad fill m).getD (j * w.bytes + t) 0#8 := by
  have hblock := packMessage_getElem? w pad fill m hj
  rw [List.getD_eq_getElem?_getD, hblock, Option.getD_some,
    (groupBlock_bytes (padMessage_group_length w pad fill m hj)).2 t ht]
  simp [List.getD_eq_getElem?_getD, ht]

/-- Settles O36: the blocks are the whole byte groups of the padded message. -/
theorem packPlacesEveryByte : Obligations.PackPlacesEveryByte := by
  intro w pad fill m
  obtain ⟨hfit, hspare, -⟩ := BlockWidth.blocksFor_bounds w m.length
  refine ⟨packMessage_length w pad fill m, hfit, hspare, fun b hb => packMessage_wellFormed hb, fun j hj t ht => ?_⟩
  exact packMessage_byte w pad fill m hj ht

/-- The bytes of the packed blocks, in order, are the padded message. -/
theorem flatMap_blockBytes_packMessage (w : BlockWidth) (pad : PadPolicy) (fill : Byte) (m : List Byte) :
    (packMessage w pad fill m).flatMap (blockBytes w) = padMessage w pad fill m := by
  have hlen : ((packMessage w pad fill m).flatMap (blockBytes w)).length = (padMessage w pad fill m).length := by
    rw [flatMap_blockBytes_length, packMessage_length, padMessage_length]
  refine List.ext_getElem hlen fun q hq hpad => ?_
  have hbytes : q < (packMessage w pad fill m).length * w.bytes := by rwa [flatMap_blockBytes_length] at hq
  have hblock : q / w.bytes < w.blocksFor m.length := by
    rw [packMessage_length] at hbytes
    exact (Nat.div_lt_iff_lt_mul (BlockWidth.bytes_pos w)).2 hbytes
  rw [(List.getElem_eq_iff _).2 (flatMap_blockBytes_getElem? w _ hbytes),
    packMessage_byte w pad fill m hblock (Nat.mod_lt _ (BlockWidth.bytes_pos w)), Nat.div_add_mod' q w.bytes,
    List.getD_eq_getElem _ _ hpad]

/-- Settles O37: unpack drops from the padded message exactly what the policy added to it. -/
theorem unpackUndoesPack : Obligations.UnpackUndoesPack := by
  intro w pad fill m
  obtain ⟨-, -, hfull⟩ := BlockWidth.blocksFor_bounds w m.length
  simp only [unpackBlocks, flatMap_blockBytes_packMessage, packMessage_length]
  cases pad with
  | fillerTail | zeroLeftMessage => simp [padMessage]
  | zeroLeftFinal =>
    have htake : (m.take ((w.blocksFor m.length - 1) * w.bytes)).length = (w.blocksFor m.length - 1) * w.bytes := by
      rw [List.length_take, Nat.min_eq_left hfull]
    simp only [padMessage, List.append_assoc]
    rw [List.take_left' htake, ← List.drop_drop, List.drop_left' htake, List.drop_left' List.length_replicate,
      List.take_append_drop]

/-- Where byte k of the message stands among the bytes of its `count` blocks, n being its length: the padding is skipped
where the policy placed it (spec/41_bitpacker.md R93). -/
def keptIndex (w : BlockWidth) (pad : PadPolicy) (count n k : Nat) : Nat :=
  match pad with
  | .fillerTail => k
  | .zeroLeftMessage => count * w.bytes - n + k
  | .zeroLeftFinal => if k < (count - 1) * w.bytes then k else count * w.bytes - n + k

theorem keptIndex_lt {w : BlockWidth} (pad : PadPolicy) {count n k : Nat} (hcount : count = w.blocksFor n)
    (hk : k < n) : keptIndex w pad count n k < count * w.bytes := by
  obtain ⟨hfit, -, -⟩ := BlockWidth.blocksFor_bounds w n
  rw [← hcount] at hfit
  cases pad with
  | fillerTail | zeroLeftMessage =>
    simp only [keptIndex]
    omega
  | zeroLeftFinal =>
    simp only [keptIndex]
    split <;> omega

theorem unpackBlocks_getElem?_keptIndex {w : BlockWidth} (pad : PadPolicy) {count n k : Nat} {blocks : List Block}
    (hlen : blocks.length = count) (hcount : count = w.blocksFor n) (hk : k < n) :
    (unpackBlocks w pad n blocks)[k]? = (blocks.flatMap (blockBytes w))[keptIndex w pad count n k]? := by
  subst hlen
  cases pad with
  | fillerTail | zeroLeftMessage => simp [unpackBlocks, keptIndex, hk]
  | zeroLeftFinal =>
    obtain ⟨hfit, -, hfull⟩ := BlockWidth.blocksFor_bounds w n
    have htake : ((blocks.flatMap (blockBytes w)).take ((blocks.length - 1) * w.bytes)).length =
        (blocks.length - 1) * w.bytes := by
      rw [List.length_take, flatMap_blockBytes_length, hcount]
      omega
    simp only [unpackBlocks, keptIndex, List.getElem?_append, htake]
    split
    · next hlow => exact List.getElem?_take_of_lt hlow
    · next hhigh =>
      rw [List.getElem?_drop]
      congr 1
      omega

/-- Byte k of the message is byte q mod B of block q / B, where q skips the padding (spec/41_bitpacker.md R93). -/
theorem unpackBlocks_range_getElem? {w : BlockWidth} (pad : PadPolicy) {count n k : Nat} (f : Nat → Block)
    (hcount : count = w.blocksFor n) (hk : k < n) :
    let q := keptIndex w pad count n k
    (unpackBlocks w pad n ((List.range count).map f))[k]? =
      some ((f (q / w.bytes)).extractLsb' (w.bits - 8 - 8 * (q % w.bytes)) 8) := by
  intro q
  have hq : q < count * w.bytes := keptIndex_lt pad hcount hk
  have hblock : q / w.bytes < count := (Nat.div_lt_iff_lt_mul (BlockWidth.bytes_pos w)).2 hq
  have hlen : ((List.range count).map f).length = count := by simp
  have hget : ((List.range count).map f).getD (q / w.bytes) 0#64 = f (q / w.bytes) := by
    simp [List.getD_eq_getElem?_getD, hblock]
  rw [← hget, ← flatMap_blockBytes_getElem? w _ (hlen.symm ▸ hq)]
  exact unpackBlocks_getElem?_keptIndex pad hlen hcount hk

/-! ### The runs of bytes and slots that the commands read and write -/

@[simp] theorem State.message_length (s : State) (n : Nat) : (s.message n).length = n := by simp [State.message]

@[simp] theorem State.slots_length (s : State) (n : Nat) : (s.slots n).length = n := by simp [State.slots]

@[simp] theorem State.message_getElem (s : State) {n k : Nat} (h : k < (s.message n).length) :
    (s.message n)[k] = s.msgByte k := by simp [State.message]

@[simp] theorem State.slots_getElem (s : State) {n j : Nat} (h : j < (s.slots n).length) :
    (s.slots n)[j] = s.slot j := by simp [State.slots]

/-- A memory into which a run of blocks was written from BLK[0] on holds them in its slots. -/
theorem State.slot_of_writeBlkFrom {u : State} {m : List Host.Cell} {bs : List Block}
    (hu : u.mem = Memory.writeBlkFrom m 0 bs) {j : Nat} (hj : j < bs.length) : u.slot j = bs.getD j 0#64 := by
  refine State.slot_of_read? fun t ht => ?_
  have hread := Memory.read?_writeBlkFrom bs m 0 j t hj ht
  rwa [Nat.zero_add, ← hu, ← List.getD_eq_getElem bs 0#64 hj] at hread

/-- A memory into which a run of bytes was written from MSG[0] on holds them in its entries. -/
theorem State.msgByte_of_writeMsgFrom {u : State} {m : List Host.Cell} {bs : List Byte}
    (hu : u.mem = Memory.writeMsgFrom m 0 bs) {k : Nat} {b : Byte} (hb : bs[k]? = some b) : u.msgByte k = b := by
  obtain ⟨hk, rfl⟩ := List.getElem?_eq_some_iff.1 hb
  refine State.peek_of_read? ?_
  have hread := Memory.read?_writeMsgFrom bs m 0 k hk
  rwa [Nat.zero_add, ← hu] at hread

/-! ### The checks that PACK shares with ENC_MSG -/

/-- BYTES accepts every byte, ASCII7 those below 0x80 (spec/41_bitpacker.md R96). -/
theorem Charset.accepts_iff (c : Charset) (b : Byte) : c.accepts b = true ↔ (c = .ascii7 → b.toNat < 0x80) := by
  cases c <;> simp [Charset.accepts]

theorem needLength_of_lt {n limit : Nat} (off : Nat) (r : CmdResult) (h : limit < n) :
    needLength n limit off r = .err .lengthRange off := if_pos h

theorem needLength_of_le {n limit : Nat} (off : Nat) (r : CmdResult) (h : n ≤ limit) :
    needLength n limit off r = r := if_neg (by omega)

section Encoding
variable {s : State} (hkeyed : s.keyed = true) (r : CmdResult)
include hkeyed

theorem State.needMessage_of_too_long (hn : s.params.msgBytes < s.msgLen.toNat) :
    s.needMessage r = .err .lengthRange 0x0040 := by
  rw [State.needMessage, State.needKeyed_true _ hkeyed, needLength_of_lt _ _ hn]

theorem State.needMessage_eq_needAll (hn : s.msgLen.toNat ≤ s.params.msgBytes) :
    s.needMessage r = needAll s.acfg.charset.accepts (s.message s.msgLen.toNat) .unencodableInput r := by
  rw [State.needMessage, State.needKeyed_true _ hkeyed, needLength_of_le _ _ hn]

/-- The least byte of the message that ASCII7 rejects is reported (spec/41_bitpacker.md R96). -/
theorem State.needMessage_of_first_rejected (hn : s.msgLen.toNat ≤ s.params.msgBytes) {k : Nat}
    (hk : k < s.msgLen.toNat) (hascii : s.acfg.charset = .ascii7) (hbad : 0x80 ≤ (s.msgByte k).toNat)
    (hlt : ∀ j < k, (s.msgByte j).toNat < 0x80) :
    s.needMessage r = .err .unencodableInput k := by
  rw [State.needMessage_eq_needAll hkeyed r hn]
  refine needAll_of_first _ r k (by simpa using hk) ?_ fun j hj => ?_
  · simpa [hascii, Charset.accepts] using hbad
  · rw [State.message_getElem, Charset.accepts_iff]
    exact fun _ => hlt j hj

theorem State.needMessage_of_accepted (hn : s.msgLen.toNat ≤ s.params.msgBytes)
    (hok : s.acfg.charset = .ascii7 → ∀ k < s.msgLen.toNat, (s.msgByte k).toNat < 0x80) : s.needMessage r = r := by
  rw [State.needMessage_eq_needAll hkeyed r hn]
  refine needAll_of_all _ r fun b hb => ?_
  obtain ⟨k, hk, rfl⟩ := List.mem_iff_getElem.1 hb
  rw [State.message_getElem, Charset.accepts_iff]
  exact fun hascii => hok hascii k (by simpa using hk)

end Encoding

/-! ### PACK -/

@[simp] theorem State.packed_length (s : State) : s.packed.length = s.params.width.blocksFor s.msgLen.toNat := by
  simp [State.packed]

/-- BLK_COUNT holds the number of blocks of a message that MSG_LEN can state. -/
theorem State.storePacked_blkCount_toNat (s : State) {bs : List Block}
    (hbs : bs.length = s.params.width.blocksFor s.msgLen.toNat) :
    (s.storePacked bs).blkCount.toNat = s.params.width.blocksFor s.msgLen.toNat := by
  have hle := BlockWidth.blocksFor_le s.params.width s.msgLen.toNat
  rw [State.storePacked_blkCount, hbs, BitVec.toNat_ofNat, Nat.mod_eq_of_lt (hle.trans_lt s.msgLen.isLt)]

theorem State.storePacked_read?_other (s : State) {bs : List Block} {a : Nat}
    (ha : ∀ j < bs.length, ¬(blkAddr j ≤ a ∧ a < blkAddr j + 8)) :
    Memory.read? (s.storePacked bs).mem a = Memory.read? s.mem a :=
  Memory.read?_writeBlkFrom_other bs s.mem 0 a fun j hj => (Nat.zero_add j).symm ▸ ha j hj

/-- Settles O38: the shared checks of the encoding commands, then the write of the packed blocks. -/
theorem packFollowsItsRule : Obligations.PackFollowsItsRule := by
  intro s _
  rw [exec_eq_complete]
  refine ⟨fun hkeyed => ?unkeyed, fun hkeyed => ⟨fun hn => ?tooLong, fun hn => ⟨?unencodable, fun hok => ?packs⟩⟩⟩
  case unkeyed => rw [commandResult_not_keyed rfl hkeyed, State.complete_err]
  case tooLong => exact congrArg s.complete (State.needMessage_of_too_long hkeyed _ hn)
  case unencodable =>
    exact fun k hk hascii hbad hlt =>
      congrArg s.complete (State.needMessage_of_first_rejected hkeyed _ hn hk hascii hbad hlt)
  case packs =>
    refine ⟨(s.storePacked s.packed).succeed, congrArg s.complete (State.needMessage_of_accepted hkeyed _ hn hok), rfl,
      s.storePacked_blkCount_toNat s.packed_length, fun j hj => ?_, fun a ha => ?_⟩
    · exact State.slot_of_writeBlkFrom rfl (s.packed_length.symm ▸ hj)
    · exact s.storePacked_read?_other (s.packed_length.symm ▸ ha)

/-! ### The checks that UNPACK shares with DEC_MSG -/

section Decoding
variable {s : State} (hkeyed : s.keyed = true) (r : CmdResult)
include hkeyed

theorem State.needBlocks_of_too_many (hc : s.params.maxBlocks < s.blkCount.toNat) :
    s.needBlocks r = .err .lengthRange 0x0048 := by
  rw [State.needBlocks, State.needKeyed_true _ hkeyed, needDecodeLength, if_pos hc]

theorem State.needBlocks_of_too_long (hc : s.blkCount.toNat ≤ s.params.maxBlocks)
    (hn : s.params.msgBytes < s.origLen.toNat) : s.needBlocks r = .err .lengthRange 0x0044 := by
  rw [State.needBlocks, State.needKeyed_true _ hkeyed, needDecodeLength, if_neg (by omega), if_pos hn]

theorem State.needBlocks_of_disagreement (hc : s.blkCount.toNat ≤ s.params.maxBlocks)
    (hn : s.origLen.toNat ≤ s.params.msgBytes) (hne : s.blkCount.toNat ≠ s.params.width.blocksFor s.origLen.toNat) :
    s.needBlocks r = .err .lengthRange 0x0044 := by
  rw [State.needBlocks, State.needKeyed_true _ hkeyed, needDecodeLength, if_neg (by omega), if_neg (by omega),
    if_pos hne]

/-- Agreement of BLK_COUNT with an ORIG_LEN that fits passes the length check (spec/41_bitpacker.md R97). -/
theorem State.needBlocks_eq_needSlots (hn : s.origLen.toNat ≤ s.params.msgBytes)
    (heq : s.blkCount.toNat = s.params.width.blocksFor s.origLen.toNat) :
    s.needBlocks r = s.needSlots s.blkCount.toNat r := by
  have hc : s.blkCount.toNat ≤ s.params.maxBlocks := heq ▸ Params.blocksFor_le_maxBlocks hn
  rw [State.needBlocks, State.needKeyed_true _ hkeyed, needDecodeLength, if_neg (by omega), if_neg (by omega),
    if_neg (not_not.2 heq)]

end Decoding

/-- The least ill-formed slot is reported (spec/41_bitpacker.md R98). -/
theorem State.needSlots_of_first_ill_formed {s : State} {count j : Nat} (r : CmdResult) (hj : j < count)
    (hbad : 2 ^ s.params.width.bits ≤ (s.slot j).toNat) (hlt : ∀ i < j, (s.slot i).toNat < 2 ^ s.params.width.bits) :
    s.needSlots count r = .err .invalidBlockWidth j := by
  refine needAll_of_first _ r j (by simpa using hj) ?_ fun i hi => ?_
  · rw [State.slots_getElem, ← Bool.not_eq_true, wellFormedBlock_iff]
    omega
  · rw [State.slots_getElem, wellFormedBlock_iff]
    exact hlt i hi

theorem State.needSlots_of_well_formed {s : State} {count : Nat} (r : CmdResult)
    (hok : ∀ j < count, (s.slot j).toNat < 2 ^ s.params.width.bits) : s.needSlots count r = r := by
  refine needAll_of_all _ r fun b hb => ?_
  obtain ⟨j, hj, rfl⟩ := List.mem_iff_getElem.1 hb
  rw [State.slots_getElem, wellFormedBlock_iff]
  exact hok j (by simpa using hj)

/-! ### UNPACK -/

theorem State.storeMessage_read?_other (s : State) {m : List Byte} {a : Nat} (ha : ∀ k < m.length, a ≠ msgAddr k) :
    Memory.read? (s.storeMessage m).mem a = Memory.read? s.mem a :=
  Memory.read?_writeMsgFrom_other m s.mem 0 a fun k hk => (Nat.zero_add k).symm ▸ ha k hk

/-- Settles O39: the shared checks of the decoding commands, then the write of the bytes that unpack keeps. -/
theorem unpackFollowsItsRule : Obligations.UnpackFollowsItsRule := by
  intro s _
  rw [exec_eq_complete]
  refine ⟨fun hkeyed => ?unkeyed, fun hkeyed => ⟨fun hc => ?tooMany, fun hc hn => ?tooLong, fun hc hn hne => ?disagree,
    fun hn heq => ⟨fun j hj hbad hlt => ?illFormed, fun hok => ?unpacks⟩⟩⟩
  case unkeyed => rw [commandResult_not_keyed rfl hkeyed, State.complete_err]
  case tooMany => exact congrArg s.complete (State.needBlocks_of_too_many hkeyed _ hc)
  case tooLong => exact congrArg s.complete (State.needBlocks_of_too_long hkeyed _ hc hn)
  case disagree => exact congrArg s.complete (State.needBlocks_of_disagreement hkeyed _ hc hn hne)
  case illFormed =>
    exact congrArg s.complete
      ((State.needBlocks_eq_needSlots hkeyed _ hn heq).trans (State.needSlots_of_first_ill_formed _ hj hbad hlt))
  case unpacks =>
    have hlen : (s.unpacked (s.slots s.blkCount.toNat)).length = s.origLen.toNat :=
      unpackBlocks_length s.acfg.pad ((s.slots_length _).trans heq)
    refine ⟨(s.storeMessage (s.unpacked (s.slots s.blkCount.toNat))).succeed, congrArg s.complete
      ((State.needBlocks_eq_needSlots hkeyed _ hn heq).trans (State.needSlots_of_well_formed _ hok)), rfl,
      fun k hk => ?_, fun a ha => ?_⟩
    · exact State.msgByte_of_writeMsgFrom rfl (unpackBlocks_range_getElem? s.acfg.pad s.slot heq hk)
    · exact s.storeMessage_read?_other (hlen.symm ▸ ha)

end Sys2Proof.Machine

/-! The key schedule: what INIT reads of the staging registers and no other command does, which of its checks it
reports, and what it latches. -/

namespace Sys2Proof.Machine

/-! ### The staging registers and the commands other than INIT -/

/-- The state with other values of CFG, TABLE_LEN, TAB and MKEY. -/
def State.withStaging (s : State) (c : Word) (l : BitVec 8) (tb : List Word) (k : Word) : State :=
  { s with cfg := c, tableLen := l, tab := tb, mkey := k }

/-- The staging registers pass through the checks and writes of every command but INIT unread. -/
theorem commandResult_withStaging {i : Instr} (hi : i ≠ .init) (s : State) (c : Word) (l : BitVec 8) (tb : List Word)
    (k : Word) :
    commandResult i (s.withStaging c l tb k) = (commandResult i s).map fun u => u.withStaging c l tb k := by
  cases i with
  | init => exact absurd rfl hi
  | nop | join => rfl
  | pack | encMsg =>
    simp only [commandResult, ← State.needMessage_map]
    rfl
  | unpack | decMsg =>
    simp only [commandResult, ← State.needBlocks_map]
    rfl
  | feval idx | roundFwd idx | roundInv idx =>
    simp only [commandResult, ← State.needKeyed_map, ← State.needIndex_map]
    rfl
  | split =>
    simp only [commandResult, ← State.needBin_map]
    rfl
  | encBlock | decBlock =>
    simp only [commandResult, ← State.needKeyed_map, ← State.needBin_map]
    rfl
  | ecbEnc | ecbDec =>
    simp only [commandResult, ← State.needBlockBuffer_map]
    rfl

/-- Settles O31: with the staging registers replaced the command has the same result, and neither completion touches
them. -/
theorem stagingIsReadOnlyByInit : Obligations.StagingIsReadOnlyByInit := by
  intro i s t c l tb k hi h
  rw [exec_eq_complete] at h
  show exec i (s.withStaging c l tb k) = _
  rw [exec_eq_complete, commandResult_withStaging hi]
  rcases State.complete_cases h with ⟨u, hu, rfl⟩ | ⟨e, n, he, rfl⟩
  · rw [hu]
    rfl
  · rw [he]
    rfl

/-! ### The configuration that a CFG word selects -/

/-- The code that a two-bit selector field holds: 3 is reserved (spec/30_encoding.md R71 to R73). -/
def selectorCode (v : BitVec 2) : Option (BitVec 2) := if v = 3#2 then none else some v

theorem selectorCode_eq_none_iff (v : BitVec 2) : selectorCode v = none ↔ v.toNat = 3 := by
  revert v
  decide

/-- A selector that was read from a field has the field as its code. -/
theorem eq_of_map_eq_selectorCode {α : Type} {code : α → BitVec 2} {o : Option α} {x : α} {v : BitVec 2}
    (ho : o = some x) (h : o.map code = selectorCode v) : code x = v := by
  rw [ho, selectorCode] at h
  split at h
  · cases h
  · exact Option.some.inj h

theorem cfgFsel_map_code (c : Word) : (cfgFsel c).map RoundFn.code = selectorCode (c.extractLsb' 8 2) := by
  unfold cfgFsel
  generalize c.extractLsb' 8 2 = v
  revert v
  decide

theorem cfgKsel_map_code (c : Word) : (cfgKsel c).map KeyPolicy.code = selectorCode (c.extractLsb' 10 2) := by
  unfold cfgKsel
  generalize c.extractLsb' 10 2 = v
  revert v
  decide

theorem cfgPad_map_code (c : Word) : (cfgPad c).map PadPolicy.code = selectorCode (c.extractLsb' 12 2) := by
  unfold cfgPad
  generalize c.extractLsb' 12 2 = v
  revert v
  decide

theorem cfgCharset_code (c : Word) : (cfgCharset c).code = c.extractLsb' 14 1 := by
  have hbit : c.extractLsb' 14 1 = BitVec.ofBool (c.getLsbD 14) := by
    ext i hi
    simp [show i = 0 by omega]
  rw [hbit, cfgCharset]
  cases c.getLsbD 14 <;> rfl

/-- Check 1 of R107 fails where a selector is reserved. -/
theorem parseCfg_eq_none_iff (c : Word) :
    parseCfg c = none ↔
      (c.extractLsb' 8 2).toNat = 3 ∨ (c.extractLsb' 10 2).toNat = 3 ∨ (c.extractLsb' 12 2).toNat = 3 := by
  simp only [← selectorCode_eq_none_iff, ← cfgFsel_map_code, ← cfgKsel_map_code, ← cfgPad_map_code,
    Option.map_eq_none_iff]
  unfold parseCfg
  cases cfgFsel c <;> cases cfgKsel c <;> cases cfgPad c <;> simp

/-- The fields of a configuration are those of the CFG word that it was read from (spec/30_encoding.md R71 to R75). -/
theorem parseCfg_fields {c : Word} {g : CipherCfg} (h : parseCfg c = some g) :
    g.rounds = c.extractLsb' 0 8 ∧ g.fsel.code = c.extractLsb' 8 2 ∧ g.ksel.code = c.extractLsb' 10 2 ∧
    g.pad.code = c.extractLsb' 12 2 ∧ g.charset.code = c.extractLsb' 14 1 ∧ g.fill = c.extractLsb' 16 8 := by
  unfold parseCfg at h
  split at h
  · next hf hk hp =>
    obtain rfl := Option.some.inj h
    exact ⟨rfl, eq_of_map_eq_selectorCode hf (cfgFsel_map_code c), eq_of_map_eq_selectorCode hk (cfgKsel_map_code c),
      eq_of_map_eq_selectorCode hp (cfgPad_map_code c), cfgCharset_code c, rfl⟩
  · cases h

/-- A word is the fields of the layout of CFG (spec/10_state.md R30). -/
theorem Word.of_cfgFields (c : Word) :
    c.extractLsb' 24 8 ++ c.extractLsb' 16 8 ++ c.extractLsb' 15 1 ++ c.extractLsb' 14 1 ++ c.extractLsb' 12 2 ++
      c.extractLsb' 10 2 ++ c.extractLsb' 8 2 ++ c.extractLsb' 0 8 = c := by
  iterate 7 rw [BitVec.extractLsb'_append_extractLsb'_eq_extractLsb' (by omega)]
  exact BitVec.extractLsb'_eq_self

/-- A word whose RAZ/WI bits are 0 has zeros in the fields that CFG does not store (spec/10_state.md R30). -/
theorem cfg_zeros {c : Word} (h : c &&& cfgMask = c) : c.extractLsb' 24 8 = 0#8 ∧ c.extractLsb' 15 1 = 0#1 := by
  rw [← h]
  constructor <;> (rw [BitVec.extractLsb'_and]; exact BitVec.and_zero)

/-- ACFG reads as the CFG word that it was latched from (spec/10_state.md R31; log 9). -/
theorem toWord_of_parseCfg {c : Word} {g : CipherCfg} (h : parseCfg c = some g) (hc : c &&& cfgMask = c) :
    g.toWord = c := by
  obtain ⟨hrounds, hfsel, hksel, hpad, hcharset, hfill⟩ := parseCfg_fields h
  obtain ⟨htop, hbit15⟩ := cfg_zeros hc
  rw [CipherCfg.toWord, hrounds, hfsel, hksel, hpad, hcharset, hfill, ← htop, ← hbit15]
  exact Word.of_cfgFields c

/-- The policy by the number of KSEL (spec/30_encoding.md R72). -/
theorem parseCfg_ksel_iff {c : Word} {g : CipherCfg} (h : parseCfg c = some g) :
    ((c.extractLsb' 10 2).toNat = 0 ↔ g.ksel = .table) ∧ ((c.extractLsb' 10 2).toNat = 1 ↔ g.ksel = .arith) ∧
    ((c.extractLsb' 10 2).toNat = 2 ↔ g.ksel = .direct) := by
  obtain ⟨-, -, hksel, -⟩ := parseCfg_fields h
  rw [← hksel]
  cases g.ksel <;> decide

theorem parseCfg_rounds {c : Word} {g : CipherCfg} (h : parseCfg c = some g) :
    g.rounds.toNat = (c.extractLsb' 0 8).toNat := congrArg BitVec.toNat (parseCfg_fields h).1

/-- A word with no reserved selector selects a configuration. -/
theorem exists_parseCfg {c : Word} (hf : (c.extractLsb' 8 2).toNat ≠ 3) (hk : (c.extractLsb' 10 2).toNat ≠ 3)
    (hp : (c.extractLsb' 12 2).toNat ≠ 3) : ∃ g, parseCfg c = some g :=
  Option.ne_none_iff_exists'.1 fun hnone => ((parseCfg_eq_none_iff c).1 hnone).elim hf (Or.elim · hk hp)

/-! ### The checks of INIT -/

section InitChecks
variable {p : Params} {c : CipherCfg} {t : Nat} (r : CmdResult)

theorem initCheck_of_too_many_rounds (hr : p.rmax < c.rounds.toNat) :
    initCheck p c t r = .err .invalidSubkeyCount c.rounds.toNat := if_pos hr

theorem initCheck_of_table_length (hr : c.rounds.toNat ≤ p.rmax) (hk : c.ksel = .table) (ht : t = 0 ∨ p.tmax < t) :
    initCheck p c t r = .err .invalidConfig 0x001C := by
  rw [initCheck, if_neg (by omega), if_pos ⟨hk, ht⟩]

theorem initCheck_of_direct_length (hr : c.rounds.toNat ≤ p.rmax) (hk : c.ksel = .direct) (ht : p.tmax < t) :
    initCheck p c t r = .err .invalidConfig 0x001C := by
  rw [initCheck, if_neg (by omega), if_neg (by simp [hk]), if_pos ⟨hk, ht⟩]

theorem initCheck_of_direct_rounds (hr : c.rounds.toNat ≤ p.rmax) (hk : c.ksel = .direct) (ht : t ≤ p.tmax)
    (hne : t ≠ c.rounds.toNat) : initCheck p c t r = .err .invalidSubkeyCount t := by
  rw [initCheck, if_neg (by omega), if_neg (by simp [hk]), if_neg (by omega), if_pos ⟨hk, hne⟩]

theorem initCheck_of_passed (hr : c.rounds.toNat ≤ p.rmax) (htable : c.ksel = .table → 1 ≤ t ∧ t ≤ p.tmax)
    (hdirect : c.ksel = .direct → t ≤ p.tmax ∧ t = c.rounds.toNat) : initCheck p c t r = r := by
  rw [initCheck, if_neg (by omega), if_neg, if_neg, if_neg]
  · exact fun ⟨hk, hne⟩ => hne (hdirect hk).2
  · exact fun ⟨hk, hlt⟩ => absurd (hdirect hk).1 (by omega)
  · exact fun ⟨hk, hbad⟩ => absurd (htable hk) (by omega)

end InitChecks

theorem exec_init_of_reserved {s : State} (h : parseCfg s.cfg = none) :
    exec .init s = .next (s.raiseError .invalidConfig 0x0014) := by
  rw [exec_eq_complete, commandResult, h, State.complete_err]

theorem exec_init_of_parseCfg {s : State} {g : CipherCfg} (h : parseCfg s.cfg = some g) :
    exec .init s = s.complete (initCheck s.params g s.tableLen.toNat (.ok (s.latch g))) := by
  rw [exec_eq_complete, commandResult, h]

/-- Settles O34: the reading of CFG is the first check, and the others are those of `initCheck`. -/
theorem initReportsTheFirstFailingCheck : Obligations.InitReportsTheFirstFailingCheck := by
  intro s r fsel ksel pad t
  refine ⟨fun hreserved => exec_init_of_reserved ((parseCfg_eq_none_iff _).2 hreserved), fun hf hk hp => ?_⟩
  obtain ⟨g, hg⟩ := exists_parseCfg hf hk hp
  obtain ⟨htable, -, hdirect⟩ := parseCfg_ksel_iff hg
  have hrounds : g.rounds.toNat = r := parseCfg_rounds hg
  rw [exec_init_of_parseCfg hg]
  refine ⟨fun hr => ?tooManyRounds, fun hr => ⟨fun h0 ht => ?tableLength, fun h2 ht => ?directLength,
    fun h2 ht hne => ?directRounds⟩⟩
  case tooManyRounds => rw [initCheck_of_too_many_rounds _ (hrounds ▸ hr), hrounds, State.complete_err]
  case tableLength => rw [initCheck_of_table_length _ (hrounds ▸ hr) (htable.1 h0) ht, State.complete_err]
  case directLength => rw [initCheck_of_direct_length _ (hrounds ▸ hr) (hdirect.1 h2) ht, State.complete_err]
  case directRounds =>
    rw [initCheck_of_direct_rounds _ (hrounds ▸ hr) (hdirect.1 h2) ht (hrounds ▸ hne), State.complete_err]

/-! ### What INIT latches -/

/-- Subkeys that are taken from TAB at the indices `f` are the entries there (spec/42_key_schedule.md R103, R105). -/
theorem getElem?_map_range_getD {xs : List Word} {f : Nat → Nat} {r i : Nat} (hi : i < r) (hf : f i < xs.length) :
    ((List.range r).map fun i => xs.getD (f i) 0#32)[i]? = xs[f i]? := by
  simp [hi, hf]

/-- SK[i] of ARITH as a number (spec/42_key_schedule.md R104). -/
theorem deriveArith_getD_toNat (p : Params) (mkey : Word) {r i : Nat} (hi : i < r) :
    ((deriveArith p mkey r).getD i 0#32).toNat =
      (mkey.toNat ^^^ (i * p.ksConst.toNat % 2 ^ p.width.half)) % 2 ^ p.width.half := by
  have hdvd : 2 ^ p.width.half ∣ 2 ^ 32 := Nat.pow_dvd_pow 2 (by cases p.width <;> decide)
  have hentry : (deriveArith p mkey r).getD i 0#32 =
      truncH p.width (mkey ^^^ truncH p.width (BitVec.ofNat 32 (i * p.ksConst.toNat))) := by
    simp [deriveArith, hi]
  rw [hentry, truncH_toNat, BitVec.toNat_xor, truncH_toNat, BitVec.toNat_ofNat, Nat.mod_mod_of_dvd _ hdvd]

section Latch
variable (s : State) {c : CipherCfg} {i : Nat}

/-- SK below ROUNDS holds the derived subkeys (spec/42_key_schedule.md R108). -/
theorem State.latch_sk_getElem?_of_lt (hi : i < c.rounds.toNat) :
    (s.latch c).sk[i]? = (derive s.params c.ksel c.rounds.toNat s.tab s.tableLen.toNat s.mkey)[i]? := by
  rw [State.latch_sk, List.getElem?_append_left (by rwa [derive_length])]

/-- SK beyond ROUNDS is 0 (spec/42_key_schedule.md R108). -/
theorem State.latch_sk_getElem?_of_ge (hi : c.rounds.toNat ≤ i) (hmax : i < s.params.rmax) :
    (s.latch c).sk[i]? = some 0#32 := by
  rw [State.latch_sk, List.getElem?_append_right (by rwa [derive_length]), derive_length,
    List.getElem?_replicate_of_lt (by omega)]

theorem State.latch_sk_table (hk : c.ksel = .table) (hi : i < c.rounds.toNat)
    (ht : i % s.tableLen.toNat < s.tab.length) : (s.latch c).sk[i]? = s.tab[i % s.tableLen.toNat]? := by
  rw [s.latch_sk_getElem?_of_lt hi, hk]
  exact getElem?_map_range_getD (f := (· % s.tableLen.toNat)) hi ht

theorem State.latch_subkey_arith (hk : c.ksel = .arith) (hi : i < c.rounds.toNat) :
    ((s.latch c).subkey i).toNat =
      (s.mkey.toNat ^^^ (i * s.params.ksConst.toNat % 2 ^ s.params.width.half)) % 2 ^ s.params.width.half := by
  rw [State.subkey, List.getD_eq_getElem?_getD, s.latch_sk_getElem?_of_lt hi, hk, ← List.getD_eq_getElem?_getD]
  exact deriveArith_getD_toNat s.params s.mkey hi

theorem State.latch_sk_direct (hk : c.ksel = .direct) (hi : i < c.rounds.toNat) (ht : i < s.tab.length) :
    (s.latch c).sk[i]? = s.tab[i]? := by
  rw [s.latch_sk_getElem?_of_lt hi, hk]
  exact getElem?_map_range_getD (f := id) hi ht

end Latch

/-- Settles O35: the checks pass, so INIT completes with `State.latch`, whose subkeys are those of the policy. -/
theorem initLatchesTheInstance : Obligations.InitLatchesTheInstance := by
  intro s h r ksel t hf hk hp hr htable hdirect
  obtain ⟨g, hg⟩ := exists_parseCfg hf hk hp
  obtain ⟨hiffTable, hiffArith, hiffDirect⟩ := parseCfg_ksel_iff hg
  have hrounds : g.rounds.toNat = r := parseCfg_rounds hg
  have hlen : s.tab.length = s.params.tmax := h.tabLength
  have hpass : initCheck s.params g s.tableLen.toNat (.ok (s.latch g)) = .ok (s.latch g) :=
    initCheck_of_passed _ (hrounds ▸ hr) (fun hg0 => htable (hiffTable.2 hg0))
      (fun hg2 => hrounds ▸ hdirect (hiffDirect.2 hg2))
  refine ⟨(s.latch g).succeed, by rw [exec_init_of_parseCfg hg, hpass, State.complete_ok], rfl,
    toWord_of_parseCfg hg h.cfgBits, (h.latch (hrounds ▸ hr)).skLength, fun i hi h0 => ?table, fun i hi h1 => ?arith,
    fun i hi h2 => ?direct, fun i hi hmax => ?tail⟩
  case table =>
    obtain ⟨hpos, hle⟩ := htable h0
    have hmod : i % t < t := Nat.mod_lt _ hpos
    exact s.latch_sk_table (hiffTable.1 h0) (hrounds ▸ hi) (hlen ▸ hmod.trans_le hle)
  case arith => exact s.latch_subkey_arith (hiffArith.1 h1) (hrounds ▸ hi)
  case direct =>
    obtain ⟨hle, heq⟩ := hdirect h2
    exact s.latch_sk_direct (hiffDirect.1 h2) (hrounds ▸ hi) (by omega)
  case tail => exact s.latch_sk_getElem?_of_ge (hrounds ▸ hi) hmax

end Sys2Proof.Machine

/-! The round function: F as a bitwise operation with its values at the extreme operands, and FEVAL, which checks KEYED
and the index and then stores F. -/

namespace Sys2Proof.Machine

/-! ### The half-block mask -/

theorem halfMask_toNat (w : BlockWidth) : w.halfMask.toNat = 2 ^ w.half - 1 := by cases w <;> rfl

section HalfMask
variable {w : BlockWidth} {v : Word} (h : w.isHalf v = true)
include h

theorem and_halfMask : v &&& w.halfMask = v := beq_iff_eq.1 h

theorem halfMask_and : w.halfMask &&& v = v := by rw [BitVec.and_comm, and_halfMask h]

/-- Absorption: the bits of an H-bit value are among those of the mask. -/
theorem or_halfMask : v ||| w.halfMask = w.halfMask := by
  rw [← and_halfMask h]
  ext i
  simp

theorem halfMask_or : w.halfMask ||| v = w.halfMask := by rw [BitVec.or_comm, or_halfMask h]

end HalfMask

/-! ### F by its selector -/

@[simp] theorem roundF_xor (a k : Word) : roundF .xor a k = a ^^^ k := rfl

@[simp] theorem roundF_and (a k : Word) : roundF .and a k = a &&& k := rfl

@[simp] theorem roundF_or (a k : Word) : roundF .or a k = a ||| k := rfl

/-- With AND and subkey 0, F is 0 and the forward round only exchanges the halves (spec/43_round_function.md R116). -/
theorem fwdRound_and_zero (l r : Word) : fwdRound .and 0#32 (l, r) = (r, l) := by simp [fwdRound]

/-- Settles O40: each selector is its bitwise operation, and the all-ones operand of H bits is the mask. -/
theorem roundFunctionIsBitwise : Obligations.RoundFunctionIsBitwise := by
  refine ⟨fun a k n => by simp, fun w a k ha hk => ⟨?xor, ?and, ?or, halfMask_toNat w,
    fun sel => roundF_isHalf sel ha hk, fwdRound_and_zero a k⟩⟩
  case xor => simp [BitVec.xor_comm a w.halfMask]
  case and => simp [and_halfMask ha, halfMask_and hk]
  case or => simp [or_halfMask ha, halfMask_or hk]

/-! ### The index check and FEVAL -/

theorem State.needIndex_of_lt {s : State} {idx : BitVec 8} (r : CmdResult) (h : idx.toNat < s.acfg.rounds.toNat) :
    s.needIndex idx r = r := if_pos h

theorem State.needIndex_of_ge {s : State} {idx : BitVec 8} (r : CmdResult) (h : s.acfg.rounds.toNat ≤ idx.toNat) :
    s.needIndex idx r = .err .indexRange idx.toNat := if_neg (Nat.not_lt.2 h)

/-- Settles O41: the check of KEYED, then the index check, then the write of FOUT. -/
theorem fevalFollowsItsRule : Obligations.FevalFollowsItsRule := by
  intro s idx
  rw [exec_eq_complete]
  refine ⟨fun hkeyed => ?unkeyed, fun hkeyed hidx => ?outOfRange, fun hkeyed hidx => ?evaluates⟩
  case unkeyed => rw [commandResult_not_keyed rfl hkeyed, State.complete_err]
  case outOfRange => rw [commandResult, State.needKeyed_true _ hkeyed, State.needIndex_of_ge _ hidx, State.complete_err]
  case evaluates => rw [commandResult, State.needKeyed_true _ hkeyed, State.needIndex_of_lt _ hidx, State.complete_ok]

end Sys2Proof.Machine

/-! The Feistel round engine: the halves of a block as numbers, the rounds and the block maps with their inverses, and
the commands SPLIT, JOIN, ROUND_FWD, ROUND_INV, ENC_BLOCK and DEC_BLOCK. -/

namespace Sys2Proof.Machine

/-! ### The halves of a block -/

theorem BlockWidth.bits_eq_half_add_half (w : BlockWidth) : w.bits = w.half + w.half := by cases w <;> rfl

theorem BlockWidth.half_le (w : BlockWidth) : w.half ≤ 32 := by cases w <;> decide

/-- A half is read from 32 bits of the block and then truncated to H bits, at most 32. -/
theorem truncH_extractLsb'_toNat (w : BlockWidth) (b : Block) (n : Nat) :
    (truncH w (b.extractLsb' n 32)).toNat = b.toNat / 2 ^ n % 2 ^ w.half := by
  rw [truncH_toNat, BitVec.extractLsb'_toNat, Nat.shiftRight_eq_div_pow,
    Nat.mod_mod_of_dvd _ (Nat.pow_dvd_pow 2 (BlockWidth.half_le w))]

theorem splitBlock_fst_toNat {w : BlockWidth} {b : Block} (hb : b.toNat < 2 ^ w.bits) :
    (splitBlock w b).1.toNat = b.toNat / 2 ^ w.half := by
  rw [splitBlock, truncH_extractLsb'_toNat]
  refine Nat.mod_eq_of_lt (Nat.div_lt_of_lt_mul ?_)
  rwa [← Nat.pow_add, ← BlockWidth.bits_eq_half_add_half]

theorem splitBlock_snd_toNat (w : BlockWidth) (b : Block) :
    (splitBlock w b).2.toNat = b.toNat % 2 ^ w.half := by
  rw [splitBlock, truncH_extractLsb'_toNat, Nat.pow_zero, Nat.div_one]

theorem joinBlock_splitBlock {w : BlockWidth} {b : Block} (hb : b.toNat < 2 ^ w.bits) :
    joinBlock w (splitBlock w b).1 (splitBlock w b).2 = b := by
  obtain ⟨hl, hr⟩ := splitBlock_isHalf w b
  refine BitVec.eq_of_toNat_eq ?_
  rw [joinBlock_toNat hl hr, splitBlock_fst_toNat hb, splitBlock_snd_toNat, Nat.div_add_mod']

theorem splitBlock_joinBlock {w : BlockWidth} {l r : Word} (hl : w.isHalf l = true) (hr : w.isHalf r = true) :
    splitBlock w (joinBlock w l r) = (l, r) := by
  have hb := (wellFormedBlock_iff _ _).1 (joinBlock_wellFormed hl hr)
  have hlt := (isHalf_iff _ _).1 hr
  refine Prod.ext (BitVec.eq_of_toNat_eq ?_) (BitVec.eq_of_toNat_eq ?_)
  · rw [splitBlock_fst_toNat hb, joinBlock_toNat hl hr, Nat.add_comm, Nat.add_mul_div_right _ _ (Nat.two_pow_pos _),
      Nat.div_eq_of_lt hlt, Nat.zero_add]
  · rw [splitBlock_snd_toNat, joinBlock_toNat hl hr, Nat.mul_add_mod', Nat.mod_eq_of_lt hlt]

/-- Settles O46: the halves are the quotient and the remainder by 2^H, which determine the block. -/
theorem splitAndJoinUndoEachOther : Obligations.SplitAndJoinUndoEachOther := by
  refine fun w => ⟨fun b hb => joinBlock_splitBlock hb, fun l r hl hr => ?_⟩
  rw [← isHalf_iff] at hl hr
  exact ⟨splitBlock_joinBlock hl hr, joinBlock_toNat hl hr⟩

/-! ### The rounds and their inverses -/

@[simp] theorem invRound_fwdRound (sel : RoundFn) (k : Word) (lr : Word × Word) :
    invRound sel k (fwdRound sel k lr) = lr := by
  simp [invRound, fwdRound]

@[simp] theorem fwdRound_invRound (sel : RoundFn) (k : Word) (lr : Word × Word) :
    fwdRound sel k (invRound sel k lr) = lr := by
  simp [invRound, fwdRound]

/-- Settles O45: F has the same operands in both rounds, so its value cancels. -/
theorem roundsUndoEachOther : Obligations.RoundsUndoEachOther :=
  fun sel k lr => ⟨invRound_fwdRound sel k lr, fwdRound_invRound sel k lr⟩

/-- The inverse rounds cancel the forward rounds from the last subkey to the first. -/
theorem invRounds_fwdRounds (sel : RoundFn) (keys : List Word) (lr : Word × Word) :
    invRounds sel keys (fwdRounds sel keys lr) = lr := by
  induction keys generalizing lr with
  | nil => rfl
  | cons k ks ih => rw [fwdRounds_cons, invRounds_cons, ih, invRound_fwdRound]

theorem fwdRounds_invRounds (sel : RoundFn) (keys : List Word) (lr : Word × Word) :
    fwdRounds sel keys (invRounds sel keys lr) = lr := by
  induction keys with
  | nil => rfl
  | cons k ks ih => rw [invRounds_cons, fwdRounds_cons, fwdRound_invRound, ih]

theorem fwdRounds_take_succ (sel : RoundFn) {keys : List Word} {i : Nat} (hi : i < keys.length) (lr : Word × Word) :
    fwdRounds sel (keys.take (i + 1)) lr = fwdRound sel keys[i] (fwdRounds sel (keys.take i) lr) := by
  rw [fwdRounds, List.take_succ_eq_append_getElem hi, List.foldl_append]
  rfl

theorem invRounds_drop (sel : RoundFn) {keys : List Word} {i : Nat} (hi : i < keys.length) (lr : Word × Word) :
    invRounds sel (keys.drop i) lr = invRound sel keys[i] (invRounds sel (keys.drop (i + 1)) lr) := by
  rw [List.drop_eq_getElem_cons hi, invRounds_cons]

/-! ### The block maps and their inverses -/

section BlockMaps
variable {w : BlockWidth} {keys : List Word} (sel : RoundFn) (hk : ∀ k ∈ keys, w.isHalf k = true)
include hk

theorem encryptHalves_isHalf (b : Block) : HalfPair w (encryptHalves w sel keys b) :=
  fwdRounds_isHalf sel keys hk (splitBlock_isHalf w b)

theorem decryptHalves_isHalf (b : Block) : HalfPair w (decryptHalves w sel keys b) :=
  invRounds_isHalf sel keys hk (splitBlock_isHalf w b)

theorem encryptBlock_wellFormed (b : Block) : wellFormedBlock w (encryptBlock w sel keys b) = true :=
  joinBlock_wellFormed (encryptHalves_isHalf sel hk b).1 (encryptHalves_isHalf sel hk b).2

theorem decryptBlock_wellFormed (b : Block) : wellFormedBlock w (decryptBlock w sel keys b) = true :=
  joinBlock_wellFormed (decryptHalves_isHalf sel hk b).1 (decryptHalves_isHalf sel hk b).2

theorem splitBlock_encryptBlock (b : Block) :
    splitBlock w (encryptBlock w sel keys b) = encryptHalves w sel keys b :=
  splitBlock_joinBlock (encryptHalves_isHalf sel hk b).1 (encryptHalves_isHalf sel hk b).2

theorem splitBlock_decryptBlock (b : Block) :
    splitBlock w (decryptBlock w sel keys b) = decryptHalves w sel keys b :=
  splitBlock_joinBlock (decryptHalves_isHalf sel hk b).1 (decryptHalves_isHalf sel hk b).2

variable {b : Block} (hb : b.toNat < 2 ^ w.bits)
include hb

theorem decryptBlock_encryptBlock : decryptBlock w sel keys (encryptBlock w sel keys b) = b := by
  rw [decryptBlock, decryptHalves, splitBlock_encryptBlock sel hk, encryptHalves, invRounds_fwdRounds,
    joinBlock_splitBlock hb]

theorem encryptBlock_decryptBlock : encryptBlock w sel keys (decryptBlock w sel keys b) = b := by
  rw [encryptBlock, encryptHalves, splitBlock_decryptBlock sel hk, decryptHalves, fwdRounds_invRounds,
    joinBlock_splitBlock hb]

end BlockMaps

/-- Settles O47: no swap stands between a map's last round and its join, so the rounds of one map start where those of
the other end. -/
theorem decryptUndoesEncrypt : Obligations.DecryptUndoesEncrypt := by
  intro w sel keys b hkeys hb
  simp only [← isHalf_iff] at hkeys
  exact ⟨(wellFormedBlock_iff _ _).1 (encryptBlock_wellFormed sel hkeys b),
    (wellFormedBlock_iff _ _).1 (decryptBlock_wellFormed sel hkeys b),
    decryptBlock_encryptBlock sel hkeys hb, encryptBlock_decryptBlock sel hkeys hb⟩

/-! ### SPLIT and JOIN -/

theorem State.needBin_of_lt {s : State} (r : CmdResult) (h : s.bin.toNat < 2 ^ s.params.width.bits) :
    s.needBin r = r := if_pos ((wellFormedBlock_iff _ _).2 h)

theorem State.needBin_of_ge {s : State} (r : CmdResult) (h : 2 ^ s.params.width.bits ≤ s.bin.toNat) :
    s.needBin r = .err .invalidBlockWidth 0 := by
  refine if_neg fun hwf => ?_
  rw [wellFormedBlock_iff] at hwf
  omega

theorem exec_split_of_lt {s : State} (h : s.bin.toNat < 2 ^ s.params.width.bits) :
    exec .split s = .next (s.putHalves (splitBlock s.params.width s.bin)).succeed := by
  rw [exec_eq_complete, commandResult, State.needBin_of_lt _ h, State.complete_ok]

/-- Settles O42: the width check of BIN, then the quotient and the remainder by 2^H. -/
theorem splitFollowsItsRule : Obligations.SplitFollowsItsRule := by
  refine fun s => ⟨fun hbin => ?illFormed, fun hbin => ?splits⟩
  case illFormed => rw [exec_eq_complete, commandResult, State.needBin_of_ge _ hbin, State.complete_err]
  case splits => exact ⟨_, exec_split_of_lt hbin, rfl, splitBlock_fst_toNat hbin, splitBlock_snd_toNat _ _⟩

/-- Settles O43: the halves hold H bits, so they do not overlap in BOUT. -/
theorem joinFollowsItsRule : Obligations.JoinFollowsItsRule :=
  fun _ h => ⟨_, rfl, rfl, joinBlock_toNat h.halfLHalf h.halfRHalf⟩

/-! ### ROUND_FWD and ROUND_INV -/

/-- The command `c` of an index checks KEYED and the index, and then applies the round `f` with SK[i] to the halves. -/
def RoundCommand (c : BitVec 8 → Instr) (f : RoundFn → Word → Word × Word → Word × Word) : Prop :=
  ∀ (s : State) (idx : BitVec 8), commandResult (c idx) s =
    (s.needKeyed <| s.needIndex idx <| .ok (s.putHalves (f s.acfg.fsel (s.subkey idx.toNat) (s.halfL, s.halfR))))

theorem roundCommand_roundFwd : RoundCommand .roundFwd fwdRound := fun _ _ => rfl

theorem roundCommand_roundInv : RoundCommand .roundInv invRound := fun _ _ => rfl

section RoundCommand
variable {c : BitVec 8 → Instr} {f : RoundFn → Word → Word × Word → Word × Word} (hc : RoundCommand c f)
  {s : State} {idx : BitVec 8}
include hc

theorem RoundCommand.exec_of_not_keyed (hk : s.keyed = false) :
    exec (c idx) s = .next (s.raiseError .notKeyed 0) := by
  rw [exec_eq_complete, hc, State.needKeyed_false _ hk, State.complete_err]

theorem RoundCommand.exec_of_ge (hk : s.keyed = true) (hidx : s.acfg.rounds.toNat ≤ idx.toNat) :
    exec (c idx) s = .next (s.raiseError .indexRange idx.toNat) := by
  rw [exec_eq_complete, hc, State.needKeyed_true _ hk, State.needIndex_of_ge _ hidx, State.complete_err]

theorem RoundCommand.exec_of_lt (hk : s.keyed = true) (hidx : idx.toNat < s.acfg.rounds.toNat) :
    exec (c idx) s =
      .next (s.putHalves (f s.acfg.fsel (s.subkey idx.toNat) (s.halfL, s.halfR))).succeed := by
  rw [exec_eq_complete, hc, State.needKeyed_true _ hk, State.needIndex_of_lt _ hidx, State.complete_ok]

end RoundCommand

/-- Settles O44: both commands have the same checks, and each writes the pair that its round makes of the old halves. -/
theorem roundCommandsFollowTheirRules : Obligations.RoundCommandsFollowTheirRules :=
  fun _ _ =>
    ⟨fun hk => ⟨roundCommand_roundFwd.exec_of_not_keyed hk, roundCommand_roundInv.exec_of_not_keyed hk⟩,
      fun hk hidx => ⟨roundCommand_roundFwd.exec_of_ge hk hidx, roundCommand_roundInv.exec_of_ge hk hidx⟩,
      fun hk hidx => ⟨roundCommand_roundFwd.exec_of_lt hk hidx, roundCommand_roundInv.exec_of_lt hk hidx⟩⟩

/-! ### ENC_BLOCK and DEC_BLOCK -/

/-- The command `i` checks KEYED and BIN, and then writes the halves that `f` makes of BIN, and their join. -/
def BlockCommand (i : Instr) (f : BlockWidth → RoundFn → List Word → Block → Word × Word) : Prop :=
  ∀ s : State, commandResult i s =
    (s.needKeyed <| s.needBin <| .ok (s.putBlock (f s.params.width s.acfg.fsel s.subkeys s.bin)))

theorem blockCommand_encBlock : BlockCommand .encBlock encryptHalves := fun _ => rfl

theorem blockCommand_decBlock : BlockCommand .decBlock decryptHalves := fun _ => rfl

section BlockCommand
variable {i : Instr} {f : BlockWidth → RoundFn → List Word → Block → Word × Word} (hi : BlockCommand i f) {s : State}
include hi

theorem BlockCommand.exec_of_not_keyed (hk : s.keyed = false) : exec i s = .next (s.raiseError .notKeyed 0) := by
  rw [exec_eq_complete, hi, State.needKeyed_false _ hk, State.complete_err]

theorem BlockCommand.exec_of_ge (hk : s.keyed = true) (hbin : 2 ^ s.params.width.bits ≤ s.bin.toNat) :
    exec i s = .next (s.raiseError .invalidBlockWidth 0) := by
  rw [exec_eq_complete, hi, State.needKeyed_true _ hk, State.needBin_of_ge _ hbin, State.complete_err]

theorem BlockCommand.exec_of_lt (hk : s.keyed = true) (hbin : s.bin.toNat < 2 ^ s.params.width.bits) :
    exec i s = .next (s.putBlock (f s.params.width s.acfg.fsel s.subkeys s.bin)).succeed := by
  rw [exec_eq_complete, hi, State.needKeyed_true _ hk, State.needBin_of_lt _ hbin, State.complete_ok]

end BlockCommand

/-- Settles O50: BOUT is the join of the final halves, and enc and dec do not read BIN. -/
theorem blockMapsAreTheBlockCommands : Obligations.BlockMapsAreTheBlockCommands :=
  fun s b hk hb =>
    ⟨⟨_, blockCommand_encBlock.exec_of_lt (s := { s with bin := b }) hk hb, rfl⟩,
      ⟨_, blockCommand_decBlock.exec_of_lt (s := { s with bin := b }) hk hb, rfl⟩⟩

/-! ### The subkeys in use -/

theorem State.subkeys_getElem {s : State} {i : Nat} (hi : i < s.subkeys.length) : s.subkeys[i] = s.subkey i := by
  have hsk : i < s.sk.length := hi.trans_le (List.length_take_le' _ _)
  simp [State.subkeys, State.subkey, hsk]

section Subkeys
variable {s : State} (h : s.Inv)
include h

theorem State.Inv.subkeys_length : s.subkeys.length = s.acfg.rounds.toNat := by
  rw [State.subkeys, List.length_take, h.skLength, Nat.min_eq_left h.roundsFit]

theorem State.Inv.subkeys_eq_map_range : s.subkeys = (List.range s.acfg.rounds.toNat).map s.subkey :=
  List.ext_getElem (by simp [h.subkeys_length]) fun i hi _ => by simp [State.subkeys_getElem hi]

end Subkeys

/-! ### The halves round by round -/

/-- The halves of BIN after the forward rounds 0 to `i`-1. -/
def State.encTrace (s : State) (i : Nat) : Word × Word :=
  fwdRounds s.acfg.fsel (s.subkeys.take i) (splitBlock s.params.width s.bin)

/-- The halves of BIN after the inverse rounds ROUNDS-1 down to `i`. -/
def State.decTrace (s : State) (i : Nat) : Word × Word :=
  invRounds s.acfg.fsel (s.subkeys.drop i) (splitBlock s.params.width s.bin)

theorem State.encTrace_zero (s : State) : s.encTrace 0 = splitBlock s.params.width s.bin := rfl

theorem State.decTrace_zero (s : State) :
    s.decTrace 0 = decryptHalves s.params.width s.acfg.fsel s.subkeys s.bin := rfl

section Traces
variable {s : State} (h : s.Inv)
include h

theorem State.Inv.encTrace_succ {i : Nat} (hi : i < s.acfg.rounds.toNat) :
    s.encTrace (i + 1) = fwdRound s.acfg.fsel (s.subkey i) (s.encTrace i) := by
  have hlen : i < s.subkeys.length := h.subkeys_length ▸ hi
  rw [State.encTrace, fwdRounds_take_succ _ hlen, State.subkeys_getElem, State.encTrace]

theorem State.Inv.encTrace_rounds :
    s.encTrace s.acfg.rounds.toNat = encryptHalves s.params.width s.acfg.fsel s.subkeys s.bin := by
  rw [State.encTrace, ← h.subkeys_length, List.take_length, encryptHalves]

theorem State.Inv.decTrace_eq_invRound {i : Nat} (hi : i < s.acfg.rounds.toNat) :
    s.decTrace i = invRound s.acfg.fsel (s.subkey i) (s.decTrace (i + 1)) := by
  have hlen : i < s.subkeys.length := h.subkeys_length ▸ hi
  rw [State.decTrace, invRounds_drop _ hlen, State.subkeys_getElem, State.decTrace]

theorem State.Inv.decTrace_rounds : s.decTrace s.acfg.rounds.toNat = splitBlock s.params.width s.bin := by
  rw [State.decTrace, ← h.subkeys_length, List.drop_length, invRounds_nil]

end Traces

/-- Settles O48: the trace is the forward rounds with growing prefixes of the subkeys. -/
theorem encBlockIteratesTheForwardRounds : Obligations.EncBlockIteratesTheForwardRounds := by
  refine fun s h => ⟨blockCommand_encBlock.exec_of_not_keyed, blockCommand_encBlock.exec_of_ge, fun hk hbin => ?_⟩
  obtain ⟨hl, hr⟩ := encryptHalves_isHalf s.acfg.fsel h.subkeys_isHalf s.bin
  refine ⟨_, blockCommand_encBlock.exec_of_lt hk hbin, rfl, joinBlock_toNat hl hr, s.encTrace, ?high, ?low,
    fun i hi => h.encTrace_succ hi, h.encTrace_rounds⟩
  case high => rw [State.encTrace_zero, splitBlock_fst_toNat hbin]
  case low => rw [State.encTrace_zero, splitBlock_snd_toNat]

/-- Settles O49: the trace is the inverse rounds with growing suffixes of the subkeys. -/
theorem decBlockIteratesTheInverseRounds : Obligations.DecBlockIteratesTheInverseRounds := by
  refine fun s h => ⟨blockCommand_decBlock.exec_of_not_keyed, blockCommand_decBlock.exec_of_ge, fun hk hbin => ?_⟩
  obtain ⟨hl, hr⟩ := decryptHalves_isHalf s.acfg.fsel h.subkeys_isHalf s.bin
  refine ⟨_, blockCommand_decBlock.exec_of_lt hk hbin, rfl, joinBlock_toNat hl hr, s.decTrace, ?high, ?low,
    fun i hi => h.decTrace_eq_invRound hi, s.decTrace_zero⟩
  case high => rw [h.decTrace_rounds, splitBlock_fst_toNat hbin]
  case low => rw [h.decTrace_rounds, splitBlock_snd_toNat]

/-! ### The block commands as sequences of smaller commands -/

@[simp] theorem execSeq_nil (s : State) : execSeq [] s = .next s := rfl

theorem execSeq_cons_of_next {i : Instr} {s t : State} (h : exec i s = .next t) (is : List Instr) :
    execSeq (i :: is) s = execSeq is t := by
  simp only [execSeq, h]

theorem execSeq_append_of_next {is : List Instr} {s t : State} (h : execSeq is s = .next t) (js : List Instr) :
    execSeq (is ++ js) s = execSeq js t := by
  induction is generalizing s with
  | nil =>
    obtain rfl : s = t := Host.Outcome.next.inj h
    rfl
  | cons i is ih =>
    obtain ⟨u, hu⟩ := exec_next i s
    rw [execSeq_cons_of_next hu] at h
    rw [List.cons_append, execSeq_cons_of_next hu, ih h]

/-- The state between the rounds of a sequence: completed with success, the halves `lr` written, the draws counted up
to `n`. -/
def State.midRounds (s : State) (lr : Word × Word) (n : Nat) : State := { (s.putHalves lr).succeed with draws := n }

/-- The halves after the round `f` with SK[i] for each `i` of a list in turn. -/
def State.roundsOver (s : State) (f : RoundFn → Word → Word × Word → Word × Word) (is : List Nat)
    (lr : Word × Word) : Word × Word :=
  is.foldl (fun x i => f s.acfg.fsel (s.subkey i) x) lr

/-- Round commands executed one after another iterate their round on the halves. -/
theorem RoundCommand.execSeq_map {c : BitVec 8 → Instr} {f : RoundFn → Word → Word × Word → Word × Word}
    (hc : RoundCommand c f) {s : State} (hk : s.keyed = true) (is : List Nat)
    (his : ∀ i ∈ is, i < s.acfg.rounds.toNat) (lr : Word × Word) (n : Nat) :
    execSeq (is.map fun i => c (BitVec.ofNat 8 i)) (s.midRounds lr n) =
      .next (s.midRounds (s.roundsOver f is lr) (n + is.length)) := by
  induction is generalizing lr n with
  | nil => rfl
  | cons i is ih =>
    obtain ⟨hi, his⟩ := List.forall_mem_cons.1 his
    have hidx : (BitVec.ofNat 8 i).toNat = i := Nat.mod_eq_of_lt (hi.trans s.acfg.rounds.isLt)
    have hround : exec (c (BitVec.ofNat 8 i)) (s.midRounds lr n) =
        .next (s.midRounds (f s.acfg.fsel (s.subkey i) lr) (n + 1)) := by
      have hexec := hc.exec_of_lt (s := s.midRounds lr n) (idx := BitVec.ofNat 8 i) hk (hidx.symm ▸ hi)
      rwa [hidx] at hexec
    rw [List.map_cons, execSeq_cons_of_next hround, ih his, List.length_cons, Nat.add_assoc, Nat.add_comm 1]
    rfl

/-- SPLIT, round commands and JOIN leave what a block command with those rounds leaves, but for the draws. -/
theorem RoundCommand.execSeq_split_map_join {c : BitVec 8 → Instr}
    {f : RoundFn → Word → Word × Word → Word × Word} (hc : RoundCommand c f) {s : State} (hk : s.keyed = true)
    (hbin : s.bin.toNat < 2 ^ s.params.width.bits) (is : List Nat) (his : ∀ i ∈ is, i < s.acfg.rounds.toNat) :
    execSeq (.split :: (is.map fun i => c (BitVec.ofNat 8 i)) ++ [.join]) s =
      .next { (s.putBlock (s.roundsOver f is (splitBlock s.params.width s.bin))).succeed with
        draws := s.draws + 1 + is.length + 1 } := by
  have hsplit : exec .split s = .next (s.midRounds (splitBlock s.params.width s.bin) (s.draws + 1)) :=
    exec_split_of_lt hbin
  rw [List.cons_append, execSeq_cons_of_next hsplit, execSeq_append_of_next (hc.execSeq_map hk is his _ _)]
  rfl

theorem State.Inv.roundsOver_fwdRound {s : State} (h : s.Inv) :
    s.roundsOver fwdRound (List.range s.acfg.rounds.toNat) (splitBlock s.params.width s.bin) =
      encryptHalves s.params.width s.acfg.fsel s.subkeys s.bin := by
  rw [State.roundsOver, encryptHalves, fwdRounds, h.subkeys_eq_map_range, List.foldl_map]

theorem State.Inv.roundsOver_invRound {s : State} (h : s.Inv) :
    s.roundsOver invRound (List.range s.acfg.rounds.toNat).reverse (splitBlock s.params.width s.bin) =
      decryptHalves s.params.width s.acfg.fsel s.subkeys s.bin := by
  rw [State.roundsOver, decryptHalves, invRounds, h.subkeys_eq_map_range, ← List.map_reverse, List.foldl_map]

/-- Settles O51: the sequence iterates the same round, over the same subkeys in the same order, from the same halves. -/
theorem blockCommandsAreTheirRoundSequences : Obligations.BlockCommandsAreTheirRoundSequences := by
  refine fun s h hk hbin => ⟨?encBlock, ?decBlock⟩
  case encBlock =>
    have hseq := roundCommand_roundFwd.execSeq_split_map_join hk hbin (List.range s.acfg.rounds.toNat)
      fun _ => List.mem_range.1
    rw [h.roundsOver_fwdRound] at hseq
    exact ⟨_, _, blockCommand_encBlock.exec_of_lt hk hbin, rfl, hseq, rfl⟩
  case decBlock =>
    have hseq := roundCommand_roundInv.execSeq_split_map_join hk hbin (List.range s.acfg.rounds.toNat).reverse
      fun _ hi => List.mem_range.1 (List.mem_reverse.1 hi)
    rw [h.roundsOver_invRound] at hseq
    exact ⟨_, _, blockCommand_decBlock.exec_of_lt hk hbin, rfl, hseq, rfl⟩

end Sys2Proof.Machine

/-! The ECB sequencer: what ECB_ENC, ECB_DEC, ENC_MSG and DEC_MSG write, that the message commands are their pairs, that
a decoded message is the encoded one, and that equal slots stay equal and distinct ones distinct. -/

namespace Sys2Proof.Machine

/-! ### Runs of slots in memory -/

theorem Memory.read?_writeBlkFrom_zero (bs : List Block) (m : List Host.Cell) {j t : Nat} (hj : j < bs.length)
    (ht : t < 8) : Memory.read? (Memory.writeBlkFrom m 0 bs) (blkAddr j + t) = some (bs[j].extractLsb' (8 * t) 8) := by
  have hread := Memory.read?_writeBlkFrom bs m 0 j t hj ht
  rwa [Nat.zero_add] at hread

theorem Memory.read?_writeBlkFrom_zero_other {bs : List Block} {x : Nat} (m : List Host.Cell)
    (hx : ∀ j < bs.length, ¬(blkAddr j ≤ x ∧ x < blkAddr j + 8)) :
    Memory.read? (Memory.writeBlkFrom m 0 bs) x = Memory.read? m x :=
  Memory.read?_writeBlkFrom_other bs m 0 x fun j hj => (Nat.zero_add j).symm ▸ hx j hj

/-- A run of blocks overwrites a run of the same length without a trace. -/
theorem Memory.writeBlkFrom_writeBlkFrom {m : List Host.Cell} {as bs : List Block} (hm : Memory.wf m = true)
    (hlen : as.length = bs.length) :
    Memory.writeBlkFrom (Memory.writeBlkFrom m 0 as) 0 bs = Memory.writeBlkFrom m 0 bs := by
  have hwf := Memory.wf_writeBlkFrom as m 0 hm
  refine Memory.eq_of_read? (Memory.wf_writeBlkFrom bs _ 0 hwf) (Memory.wf_writeBlkFrom bs m 0 hm) fun x => ?_
  by_cases hx : ∃ j < bs.length, blkAddr j ≤ x ∧ x < blkAddr j + 8
  · obtain ⟨j, hj, hlow, hhigh⟩ := hx
    obtain ⟨t, rfl⟩ := Nat.exists_eq_add_of_le hlow
    have ht : t < 8 := by omega
    rw [Memory.read?_writeBlkFrom_zero bs _ hj ht, Memory.read?_writeBlkFrom_zero bs _ hj ht]
  · have hout : ∀ j < bs.length, ¬(blkAddr j ≤ x ∧ x < blkAddr j + 8) := fun j hj hin => hx ⟨j, hj, hin⟩
    rw [Memory.read?_writeBlkFrom_zero_other _ hout, Memory.read?_writeBlkFrom_zero_other _ hout,
      Memory.read?_writeBlkFrom_zero_other _ (hlen ▸ hout)]

/-- MSG ends below BLK: a message that fits a legal build's buffer touches no slot (spec/20_memory.md R48). -/
theorem Memory.read?_writeMsgFrom_blkAddr {bs : List Byte} (m : List Host.Cell) (hlen : bs.length ≤ 4096) (j t : Nat) :
    Memory.read? (Memory.writeMsgFrom m 0 bs) (blkAddr j + t) = Memory.read? m (blkAddr j + t) := by
  refine Memory.read?_writeMsgFrom_other bs m 0 _ fun k hk => ?_
  simp only [blkAddr, msgAddr]
  omega

theorem getD_map_of_lt {α : Type} (f : α → α) {xs : List α} {d : α} {j : Nat} (hj : j < xs.length) :
    (xs.map f).getD j d = f (xs.getD j d) := by
  rw [List.getD_eq_getElem _ _ hj, List.getD_eq_getElem _ _ (by simpa using hj), List.getElem_map]

/-! ### The slots after a map over the block buffer -/

theorem State.mapSlots_succeed_slot (s : State) (f : Block → Block) {j : Nat} (hj : j < s.blkCount.toNat) :
    (s.mapSlots f).succeed.slot j = f (s.slot j) := by
  have hlen : j < (s.slots s.blkCount.toNat).length := by simpa using hj
  have hslot : (s.mapSlots f).succeed.slot j = ((s.slots s.blkCount.toNat).map f).getD j 0#64 :=
    State.slot_of_writeBlkFrom rfl (by simpa using hj)
  rw [hslot, getD_map_of_lt f hlen, List.getD_eq_getElem _ _ hlen, State.slots_getElem]

theorem State.mapSlots_succeed_slots (s : State) (f : Block → Block) :
    (s.mapSlots f).succeed.slots s.blkCount.toNat = (s.slots s.blkCount.toNat).map f := by
  rw [State.slots, State.slots, List.map_map]
  exact List.map_congr_left fun j hj => s.mapSlots_succeed_slot f (List.mem_range.1 hj)

theorem State.mapSlots_read?_other (s : State) (f : Block → Block) {a : Nat}
    (ha : ∀ j < s.blkCount.toNat, ¬(blkAddr j ≤ a ∧ a < blkAddr j + 8)) :
    Memory.read? (s.mapSlots f).mem a = Memory.read? s.mem a :=
  Memory.read?_writeBlkFrom_zero_other s.mem (by simpa using ha)

/-- The width check of the slots, slot by slot (spec/41_bitpacker.md R98). -/
theorem State.slots_wellFormed_iff (s : State) (w : BlockWidth) (n : Nat) :
    (∀ b ∈ s.slots n, wellFormedBlock w b = true) ↔ ∀ j < n, (s.slot j).toNat < 2 ^ w.bits := by
  simp [State.slots, wellFormedBlock_iff]

/-- The character-set check of the message, byte by byte (spec/41_bitpacker.md R96). -/
theorem State.message_accepted_iff (s : State) (c : Charset) (n : Nat) :
    (∀ b ∈ s.message n, c.accepts b = true) ↔ (c = .ascii7 → ∀ k < n, (s.msgByte k).toNat < 0x80) := by
  simp only [State.message, List.forall_mem_map, List.mem_range, Charset.accepts_iff]
  exact ⟨fun h hc k hk => h k hk hc, fun h k hk hc => h hc k hk⟩

/-! ### ECB_ENC and ECB_DEC -/

/-- The command `i` checks KEYED and the block buffer, and then maps `f` over the slots in place. -/
def EcbCommand (i : Instr) (f : State → Block → Block) : Prop :=
  ∀ s : State, commandResult i s = s.needBlockBuffer (.ok (s.mapSlots (f s)))

theorem ecbCommand_ecbEnc : EcbCommand .ecbEnc State.enc := fun _ => rfl

theorem ecbCommand_ecbDec : EcbCommand .ecbDec State.dec := fun _ => rfl

theorem State.needBlockBuffer_eq_needSlots {s : State} (hk : s.keyed = true) (r : CmdResult)
    (hc : s.blkCount.toNat ≤ s.params.maxBlocks) : s.needBlockBuffer r = s.needSlots s.blkCount.toNat r := by
  rw [State.needBlockBuffer, State.needKeyed_true _ hk, needLength_of_le _ _ hc]

section EcbCommand
variable {i : Instr} {f : State → Block → Block} (hi : EcbCommand i f) {s : State}
include hi

theorem EcbCommand.exec_of_not_keyed (hk : s.keyed = false) : exec i s = .next (s.raiseError .notKeyed 0) := by
  rw [exec_eq_complete, hi, State.needBlockBuffer, State.needKeyed_false _ hk, State.complete_err]

theorem EcbCommand.exec_of_too_many (hk : s.keyed = true) (hc : s.params.maxBlocks < s.blkCount.toNat) :
    exec i s = .next (s.raiseError .lengthRange 0x0048) := by
  rw [exec_eq_complete, hi, State.needBlockBuffer, State.needKeyed_true _ hk, needLength_of_lt _ _ hc,
    State.complete_err]

theorem EcbCommand.exec_of_first_ill_formed (hk : s.keyed = true) (hc : s.blkCount.toNat ≤ s.params.maxBlocks)
    {j : Nat} (hj : j < s.blkCount.toNat) (hbad : 2 ^ s.params.width.bits ≤ (s.slot j).toNat)
    (hlt : ∀ i < j, (s.slot i).toNat < 2 ^ s.params.width.bits) :
    exec i s = .next (s.raiseError .invalidBlockWidth j) := by
  rw [exec_eq_complete, hi, State.needBlockBuffer_eq_needSlots hk _ hc,
    State.needSlots_of_first_ill_formed _ hj hbad hlt, State.complete_err]

theorem EcbCommand.exec_of_well_formed (hk : s.keyed = true) (hc : s.blkCount.toNat ≤ s.params.maxBlocks)
    (hok : ∀ j < s.blkCount.toNat, (s.slot j).toNat < 2 ^ s.params.width.bits) :
    exec i s = .next (s.mapSlots (f s)).succeed := by
  rw [exec_eq_complete, hi, State.needBlockBuffer_eq_needSlots hk _ hc, State.needSlots_of_well_formed _ hok,
    State.complete_ok]

/-- A success rewrites each slot below BLK_COUNT by `f`, and nothing else (spec/45_ecb.md R135, R136). -/
theorem EcbCommand.maps_slots (hk : s.keyed = true) (hc : s.blkCount.toNat ≤ s.params.maxBlocks)
    (hok : ∀ j < s.blkCount.toNat, (s.slot j).toNat < 2 ^ s.params.width.bits) :
    ∃ u, exec i s = .next u ∧ u = State.succeed { s with mem := u.mem } ∧
      (∀ j < s.blkCount.toNat, u.slot j = f s (s.slot j)) ∧
      ∀ a, (∀ j < s.blkCount.toNat, ¬(blkAddr j ≤ a ∧ a < blkAddr j + 8)) →
        Memory.read? u.mem a = Memory.read? s.mem a :=
  ⟨_, hi.exec_of_well_formed hk hc hok, rfl, fun _ hj => s.mapSlots_succeed_slot (f s) hj,
    fun _ ha => s.mapSlots_read?_other (f s) ha⟩

end EcbCommand

/-- Settles O52: both commands have the same checks, and each maps its block map over the slots. -/
theorem ecbCommandsFollowTheirRules : Obligations.EcbCommandsFollowTheirRules := by
  have henc := ecbCommand_ecbEnc
  have hdec := ecbCommand_ecbDec
  exact fun s _ =>
    ⟨fun hk => ⟨henc.exec_of_not_keyed hk, hdec.exec_of_not_keyed hk⟩, fun hk =>
      ⟨fun hc => ⟨henc.exec_of_too_many hk hc, hdec.exec_of_too_many hk hc⟩, fun hc =>
        ⟨fun j hj hbad hlt =>
          ⟨henc.exec_of_first_ill_formed hk hc hj hbad hlt, hdec.exec_of_first_ill_formed hk hc hj hbad hlt⟩,
        fun hok => ⟨henc.maps_slots hk hc hok, hdec.maps_slots hk hc hok⟩⟩⟩⟩

/-! ### PACK and ENC_MSG -/

/-- The command `i` makes the checks of an encoding command, and then stores the blocks `f`. -/
def EncodingCommand (i : Instr) (f : State → List Block) : Prop :=
  ∀ s : State, commandResult i s = s.needMessage (.ok (s.storePacked (f s)))

theorem encodingCommand_pack : EncodingCommand .pack State.packed := fun _ => rfl

theorem encodingCommand_encMsg : EncodingCommand .encMsg fun s => s.packed.map s.enc := fun _ => rfl

theorem EncodingCommand.exec_of_accepted {i : Instr} {f : State → List Block} (hi : EncodingCommand i f) {s : State}
    (hk : s.keyed = true) (hn : s.msgLen.toNat ≤ s.params.msgBytes)
    (hok : s.acfg.charset = .ascii7 → ∀ k < s.msgLen.toNat, (s.msgByte k).toNat < 0x80) :
    exec i s = .next (s.storePacked (f s)).succeed := by
  rw [exec_eq_complete, hi, State.needMessage_of_accepted hk _ hn hok, State.complete_ok]

/-- The blocks of a message that fits its buffer fit theirs. -/
theorem State.storePacked_blkCount_le {s : State} {bs : List Block}
    (hbs : bs.length = s.params.width.blocksFor s.msgLen.toNat) (hn : s.msgLen.toNat ≤ s.params.msgBytes) :
    (s.storePacked bs).blkCount.toNat ≤ s.params.maxBlocks := by
  rw [s.storePacked_blkCount_toNat hbs]
  exact Params.blocksFor_le_maxBlocks hn

theorem State.storePacked_succeed_slot (s : State) {bs : List Block} {j : Nat} (hj : j < bs.length) :
    (s.storePacked bs).succeed.slot j = bs.getD j 0#64 := State.slot_of_writeBlkFrom rfl hj

/-- The slots below the BLK_COUNT that an encoding command leaves hold the blocks that it stored. -/
theorem State.storePacked_succeed_slots {s : State} {bs : List Block}
    (hbs : bs.length = s.params.width.blocksFor s.msgLen.toNat) :
    (s.storePacked bs).succeed.slots (s.storePacked bs).succeed.blkCount.toNat = bs := by
  rw [State.succeed_blkCount, s.storePacked_blkCount_toNat hbs, ← hbs]
  refine List.ext_getElem (State.slots_length _ _) fun j _ hj => ?_
  rw [State.slots_getElem, s.storePacked_succeed_slot hj, List.getD_eq_getElem _ _ hj]

theorem State.packed_map_length (s : State) (f : Block → Block) :
    (s.packed.map f).length = s.params.width.blocksFor s.msgLen.toNat := by simp

/-- Settles O53: the checks of PACK, then the write of the packed blocks, each encrypted. -/
theorem encMsgFollowsItsRule : Obligations.EncMsgFollowsItsRule := by
  intro s _
  have hlen := s.packed_map_length s.enc
  refine ⟨fun hk => ?unkeyed, fun hk => ⟨fun hn => ?tooLong, fun hn => ⟨?unencodable, fun hok => ?encodes⟩⟩⟩
  case unkeyed => rw [exec_eq_complete, commandResult_not_keyed rfl hk, State.complete_err]
  case tooLong =>
    rw [exec_eq_complete, encodingCommand_encMsg, State.needMessage_of_too_long hk _ hn, State.complete_err]
  case unencodable =>
    intro k hlt hascii hbad hfirst
    rw [exec_eq_complete, encodingCommand_encMsg,
      State.needMessage_of_first_rejected hk _ hn hlt hascii hbad hfirst, State.complete_err]
  case encodes =>
    refine ⟨_, encodingCommand_encMsg.exec_of_accepted hk hn hok, rfl, s.storePacked_blkCount_toNat hlen,
      fun j hj => ?_, fun a ha => s.storePacked_read?_other (hlen.symm ▸ ha)⟩
    rw [s.storePacked_succeed_slot (hlen.symm ▸ hj), getD_map_of_lt s.enc (s.packed_length.symm ▸ hj)]
    rfl

/-! ### UNPACK and DEC_MSG -/

/-- The command `i` makes the checks of a decoding command, and then leaves `f`. -/
def DecodingCommand (i : Instr) (f : State → State) : Prop :=
  ∀ s : State, commandResult i s = s.needBlocks (.ok (f s))

/-- The message that the decrypted blocks unpack to (spec/45_ecb.md R138). -/
def State.decoded (s : State) : List Byte := s.unpacked ((s.slots s.blkCount.toNat).map s.dec)

theorem decodingCommand_unpack :
    DecodingCommand .unpack fun s => s.storeMessage (s.unpacked (s.slots s.blkCount.toNat)) := fun _ => rfl

theorem decodingCommand_decMsg : DecodingCommand .decMsg fun s => (s.mapSlots s.dec).storeMessage s.decoded :=
  fun _ => rfl

section DecodingCommand
variable {i : Instr} {f : State → State} (hi : DecodingCommand i f) {s : State} (hk : s.keyed = true)
  (hn : s.origLen.toNat ≤ s.params.msgBytes) (heq : s.blkCount.toNat = s.params.width.blocksFor s.origLen.toNat)
include hi hk hn heq

theorem DecodingCommand.exec_of_first_ill_formed {j : Nat} (hj : j < s.blkCount.toNat)
    (hbad : 2 ^ s.params.width.bits ≤ (s.slot j).toNat) (hlt : ∀ i < j, (s.slot i).toNat < 2 ^ s.params.width.bits) :
    exec i s = .next (s.raiseError .invalidBlockWidth j) := by
  rw [exec_eq_complete, hi, State.needBlocks_eq_needSlots hk _ hn heq,
    State.needSlots_of_first_ill_formed _ hj hbad hlt, State.complete_err]

theorem DecodingCommand.exec_of_well_formed
    (hok : ∀ j < s.blkCount.toNat, (s.slot j).toNat < 2 ^ s.params.width.bits) : exec i s = .next (f s).succeed := by
  rw [exec_eq_complete, hi, State.needBlocks_eq_needSlots hk _ hn heq, State.needSlots_of_well_formed _ hok,
    State.complete_ok]

end DecodingCommand

theorem State.decoded_length {s : State} (heq : s.blkCount.toNat = s.params.width.blocksFor s.origLen.toNat) :
    s.decoded.length = s.origLen.toNat :=
  unpackBlocks_length s.acfg.pad (by simpa using heq)

/-- Byte k of the decoded message is the byte that the padding policy keeps there (spec/41_bitpacker.md R93). -/
theorem State.decoded_getElem? {s : State} (heq : s.blkCount.toNat = s.params.width.blocksFor s.origLen.toNat)
    {k : Nat} (hk : k < s.origLen.toNat) :
    let q := keptIndex s.params.width s.acfg.pad s.blkCount.toNat s.origLen.toNat k
    s.decoded[k]? = some ((s.dec (s.slot (q / s.params.width.bytes))).extractLsb'
      (s.params.width.bits - 8 - 8 * (q % s.params.width.bytes)) 8) := by
  rw [State.decoded, State.slots, List.map_map]
  exact unpackBlocks_range_getElem? s.acfg.pad (s.dec ∘ s.slot) heq hk

theorem State.storeMessage_succeed_msgByte (s : State) {m : List Byte} {k : Nat} {b : Byte} (hb : m[k]? = some b) :
    (s.storeMessage m).succeed.msgByte k = b := State.msgByte_of_writeMsgFrom rfl hb

/-- Storing a message that fits a legal build's buffer leaves the slots that were written as they are. -/
theorem State.mapSlots_storeMessage_slot (s : State) (f : Block → Block) {m : List Byte} (hm : m.length ≤ 4096)
    {j : Nat} (hj : j < s.blkCount.toNat) : ((s.mapSlots f).storeMessage m).succeed.slot j = f (s.slot j) := by
  have hlen : j < ((s.slots s.blkCount.toNat).map f).length := by simpa using hj
  refine State.slot_of_read? fun t ht => ?_
  rw [State.succeed_mem, State.storeMessage_mem, Memory.read?_writeMsgFrom_blkAddr _ hm, State.mapSlots_mem,
    Memory.read?_writeBlkFrom_zero _ _ hlen ht, List.getElem_map, State.slots_getElem]

/-- Settles O54: the checks of UNPACK, then the slots decrypted in place and the bytes that unpack keeps of them. -/
theorem decMsgFollowsItsRule : Obligations.DecMsgFollowsItsRule := by
  intro s hp
  have hdec := decodingCommand_decMsg
  refine ⟨fun hk => ?unkeyed, fun hk => ⟨fun hc => ?tooMany, fun hc hn => ?tooLong, fun hc hn hne => ?disagree,
    fun hn heq => ⟨fun j => hdec.exec_of_first_ill_formed hk hn heq, fun hok => ?decodes⟩⟩⟩
  case unkeyed => rw [exec_eq_complete, commandResult_not_keyed rfl hk, State.complete_err]
  case tooMany => rw [exec_eq_complete, hdec, State.needBlocks_of_too_many hk _ hc, State.complete_err]
  case tooLong => rw [exec_eq_complete, hdec, State.needBlocks_of_too_long hk _ hc hn, State.complete_err]
  case disagree => rw [exec_eq_complete, hdec, State.needBlocks_of_disagreement hk _ hc hn hne, State.complete_err]
  case decodes =>
    obtain ⟨-, -, ⟨-, hmsg⟩, -⟩ := (Params.wf_iff _).1 hp
    have hlen := s.decoded_length heq
    refine ⟨_, hdec.exec_of_well_formed hk hn heq hok, rfl, fun j hj => ?_, fun k hlt => ?_, fun a hblk hmsgs => ?_⟩
    · exact s.mapSlots_storeMessage_slot s.dec (hlen.symm ▸ hn.trans hmsg) hj
    · exact State.storeMessage_succeed_msgByte _ (s.decoded_getElem? heq hlt)
    · exact (State.storeMessage_read?_other _ (hlen.symm ▸ hmsgs)).trans (s.mapSlots_read?_other s.dec hblk)

/-! ### The message commands as pairs -/

/-- The slots that ECB_DEC left unpack to the message that DEC_MSG decodes (spec/45_ecb.md R139). -/
theorem State.mapSlots_dec_unpacked (s : State) :
    (s.mapSlots s.dec).succeed.unpacked ((s.mapSlots s.dec).succeed.slots (s.mapSlots s.dec).succeed.blkCount.toNat) =
      s.decoded := by
  rw [State.succeed_blkCount, State.mapSlots_blkCount, State.mapSlots_succeed_slots]
  rfl

section Inv
variable {s : State} (h : s.Inv)
include h

theorem State.Inv.enc_lt (b : Block) : (s.enc b).toNat < 2 ^ s.params.width.bits :=
  (wellFormedBlock_iff _ _).1 (encryptBlock_wellFormed s.acfg.fsel h.subkeys_isHalf b)

theorem State.Inv.dec_lt (b : Block) : (s.dec b).toNat < 2 ^ s.params.width.bits :=
  (wellFormedBlock_iff _ _).1 (decryptBlock_wellFormed s.acfg.fsel h.subkeys_isHalf b)

theorem State.Inv.dec_enc {b : Block} (hb : b.toNat < 2 ^ s.params.width.bits) : s.dec (s.enc b) = b :=
  decryptBlock_encryptBlock s.acfg.fsel h.subkeys_isHalf hb

theorem State.Inv.enc_eq_enc_iff {b c : Block} (hb : b.toNat < 2 ^ s.params.width.bits)
    (hc : c.toNat < 2 ^ s.params.width.bits) : s.enc b = s.enc c ↔ b = c := by
  refine ⟨fun heq => ?_, congrArg s.enc⟩
  rw [← h.dec_enc hb, heq, h.dec_enc hc]

/-- ECB_ENC over the slots that PACK left writes what ENC_MSG writes (spec/45_ecb.md R139). -/
theorem State.Inv.storePacked_mapSlots_enc :
    (s.storePacked s.packed).succeed.mapSlots s.enc = (s.storePacked (s.packed.map s.enc)).succeed := by
  rw [State.mapSlots, State.storePacked_succeed_slots s.packed_length, State.succeed_mem, State.storePacked_mem,
    Memory.writeBlkFrom_writeBlkFrom h.memWf (List.length_map _).symm]
  simp [State.storePacked, State.succeed]

end Inv

theorem State.packed_lt {s : State} {b : Block} (hb : b ∈ s.packed) : b.toNat < 2 ^ s.params.width.bits :=
  packMessage_wellFormed hb

/-- A state into which an encoding command stored well-formed blocks passes the width check of its slots. -/
theorem State.storePacked_succeed_slot_lt {s : State} {bs : List Block}
    (hbs : bs.length = s.params.width.blocksFor s.msgLen.toNat) (hlt : ∀ b ∈ bs, b.toNat < 2 ^ s.params.width.bits) :
    ∀ j < (s.storePacked bs).succeed.blkCount.toNat,
      ((s.storePacked bs).succeed.slot j).toNat < 2 ^ s.params.width.bits := by
  rw [← State.slots_wellFormed_iff, State.storePacked_succeed_slots hbs]
  exact fun b hb => (wellFormedBlock_iff _ _).2 (hlt b hb)

/-- A command that completes without an error has had its effect. -/
theorem effect_of_exec_ok {i : Instr} {s t : State} (ht : exec i s = .next t) (hok : t.err = .ok) :
    ∃ u, Effect i s u ∧ t = u.succeed := by
  rcases exec_cases ht with ⟨c, n, hc, rfl⟩ | hu
  · exact absurd hok hc
  · exact hu

/-- Settles O55: the first command of each pair leaves the block buffer that the second starts from, and the message
command computes the same blocks without the write between. -/
theorem messageCommandsAreTheirPairs : Obligations.MessageCommandsAreTheirPairs := by
  refine fun s h => ⟨fun t ht hok => ?encMsg, fun t ht hok => ?decMsg⟩
  case encMsg =>
    obtain ⟨-, ⟨hk, hn, hacc, rfl⟩, rfl⟩ := effect_of_exec_ok ht hok
    have hpack := encodingCommand_pack.exec_of_accepted hk hn ((s.message_accepted_iff _ _).1 hacc)
    have hecb := ecbCommand_ecbEnc.exec_of_well_formed (s := (s.storePacked s.packed).succeed) hk
      (State.storePacked_blkCount_le s.packed_length hn)
      (State.storePacked_succeed_slot_lt s.packed_length fun _ => State.packed_lt)
    refine ⟨_, (execSeq_cons_of_next hpack _).trans (execSeq_cons_of_next hecb []), ?_⟩
    exact congrArg State.succeed h.storePacked_mapSlots_enc
  case decMsg =>
    obtain ⟨-, ⟨hk, hc, hn, heq, hwf, rfl⟩, rfl⟩ := effect_of_exec_ok ht hok
    have hecb := ecbCommand_ecbDec.exec_of_well_formed hk hc ((s.slots_wellFormed_iff _ _).1 hwf)
    have hunpack := decodingCommand_unpack.exec_of_well_formed (s := (s.mapSlots s.dec).succeed) hk hn heq
      fun j hj => (s.mapSlots_succeed_slot s.dec hj).symm ▸ h.dec_lt _
    refine ⟨_, (execSeq_cons_of_next hecb _).trans (execSeq_cons_of_next hunpack []), ?_⟩
    rw [s.mapSlots_dec_unpacked]
    rfl

/-! ### The round trip of a message -/

theorem State.Inv.map_dec_map_enc_packed {s : State} (h : s.Inv) : (s.packed.map s.enc).map s.dec = s.packed := by
  rw [List.map_map]
  exact (List.map_congr_left fun b hb => h.dec_enc (State.packed_lt hb)).trans (List.map_id _)

/-- What ENC_MSG leaves decodes to the message that it encoded (spec/45_ecb.md R140). -/
theorem State.Inv.decoded_encMsg {s : State} (h : s.Inv) :
    (s.storePacked (s.packed.map s.enc)).succeed.decoded = s.message s.msgLen.toNat := by
  have hdec : (s.storePacked (s.packed.map s.enc)).succeed.dec = s.dec := rfl
  have hunpack := unpackUndoesPack s.params.width s.acfg.pad s.acfg.fill (s.message s.msgLen.toNat)
  rw [State.message_length] at hunpack
  rw [State.decoded, State.storePacked_succeed_slots (s.packed_map_length s.enc), hdec, h.map_dec_map_enc_packed]
  exact hunpack

theorem State.storeMessage_read?_msgAddr (s : State) {m : List Byte} {k : Nat} (hk : k < m.length) :
    Memory.read? (s.storeMessage m).mem (msgAddr k) = some m[k] := by
  have hread := Memory.read?_writeMsgFrom m s.mem 0 k hk
  rwa [Nat.zero_add] at hread

/-- Settles O56: decryption undoes encryption slot by slot, and unpack undoes pack. -/
theorem encMsgThenDecMsgRestoresTheMessage : Obligations.EncMsgThenDecMsgRestoresTheMessage := by
  intro s h hk hn hok
  have hlen := s.packed_map_length s.enc
  have hwf := State.storePacked_succeed_slot_lt hlen (List.forall_mem_map.2 fun b _ => h.enc_lt b)
  have hdec := decodingCommand_decMsg.exec_of_well_formed (s := (s.storePacked (s.packed.map s.enc)).succeed) hk hn
    (s.storePacked_blkCount_toNat hlen) hwf
  rw [h.decoded_encMsg] at hdec
  refine ⟨_, _, encodingCommand_encMsg.exec_of_accepted hk hn hok, rfl, hdec, rfl, rfl, fun k hlt => ?_⟩
  have hmsg : k < (s.message s.msgLen.toNat).length := by simpa using hlt
  rw [State.succeed_mem, State.storeMessage_read?_msgAddr _ hmsg, State.message_getElem]

/-! ### Equal blocks and equal ciphertexts -/

/-- Settles O57: enc has an inverse on the well-formed blocks, and ECB_ENC rewrites each slot by enc. -/
theorem equalBlocksExactlyEqualCiphertexts : Obligations.EqualBlocksExactlyEqualCiphertexts := by
  refine fun s h => ⟨fun b c => h.enc_eq_enc_iff, fun t ht hok i hi j hj => ?_⟩
  obtain ⟨-, ⟨-, -, hwf, rfl⟩, rfl⟩ := effect_of_exec_ok ht hok
  rw [State.slots_wellFormed_iff] at hwf
  rw [s.mapSlots_succeed_slot s.enc hi, s.mapSlots_succeed_slot s.enc hj, h.enc_eq_enc_iff (hwf i hi) (hwf j hj)]

end Sys2Proof.Machine

/-! Errors and their record: ERR_STICKY and OVERRUN stay 1 until the host clears them or a reset does, and the engine
rests while no command is pending. -/

namespace Sys2Proof.Machine

/-! ### What keeps ERR_STICKY and OVERRUN -/

/-- Neither ERR_STICKY nor OVERRUN goes from 1 to 0 between `s` and `t`. -/
abbrev StickyKept (s t : State) : Prop :=
  (s.errSticky = true → t.errSticky = true) ∧ (s.overrun = true → t.overrun = true)

/-- An error sets ERR_STICKY, and no other completion writes either flag (spec/60_exceptions.md R146). -/
theorem State.engineTurn_stickyKept {s t : State} (h : s.engineTurn = .next t) : StickyKept s t := by
  rcases State.engineTurn_cases h with ⟨-, rfl⟩ | ⟨-, c, n, -, rfl⟩ | ⟨-, i, u, -, hu, rfl⟩
  · exact ⟨id, id⟩
  · exact ⟨fun _ => rfl, id⟩
  · simp [StickyKept, hu.frame]

/-- No write accepted while idle reaches the two flags, but one to CTRL or STATUS. -/
theorem State.writeLoc_stickyKept (s : State) (v : Word) {l : Loc} (hctrl : l ≠ .ctrl) (hstatus : l ≠ .status) :
    StickyKept s (s.writeLoc v l) := by
  cases l with
  | ctrl => exact absurd rfl hctrl
  | status => exact absurd rfl hstatus
  | _ => exact ⟨id, id⟩

/-- What a bus write does to the two flags: it keeps them, it is the soft reset, or it is the W1C write of STATUS while
idle (spec/10_state.md R28). -/
theorem State.busWrite_sticky_cases (s : State) (off : Nat) (v : Word) :
    StickyKept s (s.busWrite off v) ∨ (off = 0x0008 ∧ v.getLsbD 0 = true) ∨
    (off = 0x000C ∧ s.busy = false ∧ s.busWrite off v = s.clearStatus v) := by
  rcases State.busWrite_cases s off v with ⟨hoff, hw⟩ | ⟨-, -, hw⟩ | ⟨hoff, hb, hw⟩
  · by_cases hv : v.getLsbD 0 = true
    · exact .inr (.inl ⟨hoff, hv⟩)
    · rw [hw, State.writeCtrl, if_neg hv]
      exact .inl ⟨id, id⟩
  · rw [hw]
    exact .inl ⟨id, fun _ => rfl⟩
  · by_cases hl : locate s.params off = .status
    · exact .inr (.inr ⟨(locate_eq_status _ _).1 hl, hb, by rw [hw, hl]; rfl⟩)
    · rw [hw]
      exact .inl (s.writeLoc_stickyKept v (mt (locate_eq_ctrl _ _).1 hoff) hl)

/-- What a step does to the two flags: it keeps them, it is one of the two resets, or it is the W1C write of STATUS while
idle (spec/60_exceptions.md R146, R147). -/
theorem step_sticky_cases {s t : State} (h : step s = .next t) :
    StickyKept s t ∨ (∃ rest, s.inputs = .host .hardReset :: rest) ∨
    (∃ v rest, s.inputs = .host (.write 0x0008#16 4 v) :: rest ∧ v.getLsbD 0 = true) ∨
    (∃ v rest, s.inputs = .host (.write 0x000C#16 4 v) :: rest ∧ s.busy = false ∧
      t = State.clearStatus { s with inputs := rest } v) := by
  rcases step_cases h with ⟨-, ht⟩ | ⟨m, rest, hs, ht⟩
  · have hkept := State.engineTurn_stickyKept ht
    exact .inl hkept
  rcases State.hostMove_cases ht with ⟨off, bytes, -, rfl⟩ | ⟨off, v, rfl, rfl⟩ | ⟨rfl, -⟩
  · exact .inl ⟨id, id⟩
  · rcases State.busWrite_sticky_cases { s with inputs := rest } off.toNat v with hkept | ⟨hoff, hv⟩ | ⟨hoff, hb, hw⟩
    · exact .inl hkept
    · obtain rfl : off = 0x0008#16 := BitVec.eq_of_toNat_eq hoff
      exact .inr (.inr (.inl ⟨v, rest, hs, hv⟩))
    · obtain rfl : off = 0x000C#16 := BitVec.eq_of_toNat_eq hoff
      exact .inr (.inr (.inr ⟨v, rest, hs, hb, hw⟩))
  · exact .inr (.inl ⟨rest, hs⟩)

/-- A W1C write of STATUS keeps each flag whose bit it does not write as 1 (spec/10_state.md R28). -/
theorem State.clearStatus_kept_or_written (s : State) (v : Word) :
    (s.errSticky = true → (s.clearStatus v).errSticky = true ∨ v.getLsbD 3 = true) ∧
    (s.overrun = true → (s.clearStatus v).overrun = true ∨ v.getLsbD 4 = true) := by
  constructor
  · intro hsticky
    rw [State.clearStatus_errSticky, hsticky]
    cases v.getLsbD 3 <;> simp
  · intro hoverrun
    rw [State.clearStatus_overrun, hoverrun]
    cases v.getLsbD 4 <;> simp

/-- Settles O27: in the one case of `step_sticky_cases` that is left, the write of STATUS, each flag falls by its own
bit. -/
theorem stickyBitsStayUntilClearedOrReset : Obligations.StickyBitsStayUntilClearedOrReset := by
  intro s t h
  rcases step_sticky_cases h with ⟨hsticky, hoverrun⟩ | hhard | hsoft | ⟨v, rest, hs, hb, rfl⟩
  · exact ⟨fun h1 => .inl (hsticky h1), fun h1 => .inl (hoverrun h1)⟩
  · exact ⟨fun _ => .inr (.inl hhard), fun _ => .inr (.inl hhard)⟩
  · exact ⟨fun _ => .inr (.inr (.inl hsoft)), fun _ => .inr (.inr (.inl hsoft))⟩
  · obtain ⟨hsticky, hoverrun⟩ := State.clearStatus_kept_or_written { s with inputs := rest } v
    exact ⟨fun h1 => (hsticky h1).imp_right fun hv => .inr (.inr ⟨v, rest, hs, hv, hb⟩),
      fun h1 => (hoverrun h1).imp_right fun hv => .inr (.inr ⟨v, rest, hs, hv, hb⟩)⟩

/-! ### The idle engine -/

theorem State.engineTurn_idle {s : State} (hb : s.busy = false) : s.engineTurn = .next s := by
  simp [State.engineTurn, hb]

/-- Settles O7: the step is the engine's turn, scheduled or not, and an idle engine's turn changes nothing. -/
theorem idleEngineKeepsAllState : Obligations.IdleEngineKeepsAllState := by
  intro s hp hb
  refine ⟨fun hs => ?_, fun rest hs => ?_⟩
  · rw [step_nothing_scheduled hp hs, State.engineTurn_idle hb]
  · rw [step_engineTurn_scheduled hp hs]
    exact State.engineTurn_idle hb

end Sys2Proof.Machine

/-! Reset: what the reset state of a legal build reads, that both resets lead to it, and that it meets the
invariant. -/

namespace Sys2Proof.Machine

/-! ### The reset state as the host reads it -/

/-- Entries of the default value after a list's end do not change what `getD` finds. -/
theorem getD_append_replicate_default {α : Type} (xs : List α) (n j : Nat) (d : α) :
    (xs ++ List.replicate n d).getD j d = xs.getD j d := by
  rcases lt_or_ge j xs.length with hj | hj
  · exact List.getD_append _ _ _ _ hj
  · rw [List.getD_append_right _ _ _ _ hj, List.getD_eq_getElem?_getD, List.getElem?_getD_replicate_default_eq,
      List.getD_eq_default _ _ hj]

/-- Every flag of STATUS is 0 at reset (spec/10_state.md R28). -/
theorem State.resetOf_status (p : Params) : (State.resetOf p).status = 0#32 := by
  simp only [State.status, State.resetOf]
  decide

/-- ACFG reads 0x00000000 at reset (spec/10_state.md R31). -/
theorem CipherCfg.reset_toWord : CipherCfg.reset.toWord = 0#32 := by decide

/-- TAB holds the table image, then 0 (spec/70_reset_and_hazards.md R156). -/
theorem State.resetOf_tab_getD (p : Params) (j : Nat) : (State.resetOf p).tab.getD j 0#32 = p.tableInit.getD j 0#32 :=
  getD_append_replicate_default ..

/-- SK holds 0 everywhere (spec/70_reset_and_hazards.md R156). -/
theorem State.resetOf_subkey (p : Params) (i : Nat) : (State.resetOf p).subkey i = 0#32 :=
  List.getElem?_getD_replicate_default_eq ..

/-- The table image fits TAB, so TABLE_LEN holds its length (spec/00_scope.md R11). -/
theorem State.resetOf_tableLen_toNat {p : Params} (hp : p.wf = true) :
    (State.resetOf p).tableLen.toNat = p.tableInit.length := by
  obtain ⟨-, htmax, -, -, hlen, -⟩ := (Params.wf_iff p).1 hp
  exact Nat.mod_eq_of_lt (by omega)

/-- Settles O22: each read is `readLoc` at the location of the offset, on the reset values. -/
theorem resetStateHasTheStatedValues : Obligations.ResetStateHasTheStatedValues := by
  intro p hp
  refine ⟨rfl, State.resetOf_status p, rfl, rfl, CipherCfg.reset_toWord, ?tableLen, ?registers, fun j hj => ?tab,
    fun i hi => ?sk, fun _ => rfl⟩
  case tableLen => exact (BitVec.toNat_setWidth_of_le (by omega)).trans (State.resetOf_tableLen_toNat hp)
  case registers =>
    have hhigh : (0#64).extractLsb' 32 32 = 0#32 := by decide
    simp only [List.forall_mem_cons]
    exact ⟨rfl, rfl, rfl, rfl, rfl, hhigh, rfl, hhigh, rfl, rfl, rfl, rfl, rfl, List.forall_mem_nil _⟩
  case tab =>
    rw [State.busRead_at (locate_tab hj)]
    exact State.resetOf_tab_getD p j
  case sk =>
    rw [State.busRead_at (locate_sk hp hi)]
    exact State.resetOf_subkey p i

/-! ### Both resets lead to the reset state -/

/-- The hardware reset is one move, whatever the state (spec/70_reset_and_hazards.md R155). -/
theorem State.hostMove_hardReset (s : State) : s.hostMove .hardReset = .next s.toReset := rfl

/-- The soft reset is a write of 1 to CTRL; a write of 0 does nothing (spec/70_reset_and_hazards.md R157). -/
theorem State.hostMove_write_ctrl (s : State) (v : Word) :
    s.hostMove (.write 0x0008#16 4 v) = .next (if v.getLsbD 0 then s.toReset else s) :=
  (s.hostMove_write v rfl).trans (congrArg _ (s.busWrite_ctrl v))

/-- Settles O23: either move leads to `State.toReset`, and no case of it reads BUSY. -/
theorem bothResetsGiveTheResetState : Obligations.BothResetsGiveTheResetState :=
  fun s => ⟨s.hostMove_hardReset, s.hostMove_write_ctrl⟩

/-! ### The reset state meets the invariant -/

/-- Settles O58, by `State.resetOf_inv`. -/
theorem resetMeetsTheInvariant : Obligations.ResetMeetsTheInvariant :=
  fun _ hp => State.resetOf_inv hp

end Sys2Proof.Machine
